-- ==== Sys2Proof/Word.lean ====
section
/-! DEFINITION. The words of the block: the 64-bit pattern read as a float64 (rules R7, R61), the 32-bit
pattern read as a float32 (rule R260), the byte of a text (rule R40) and the command word (rule R60). -/

namespace Sys2Proof

/-- A 64-bit pattern (rule R61): bit 63 the sign, bits 62:52 the biased exponent, bits 51:0 the mantissa field. -/
abbrev F64 := BitVec 64

/-- A 32-bit pattern read as a float32 (rule R260). -/
abbrev F32 := BitVec 32

/-- One byte of a byte string (rule R40). -/
abbrev Byte := BitVec 8

/-- The command word `req.cmd` (rule R60). -/
abbrev Command := BitVec 32

end Sys2Proof
end

