-- ==== Sys2Proof/Machine/State.lean ====
section
/-! DEFINITION. The state of one instance of the block: `phase`, the request latch and the response latch (rule R25),
the input ports (rule R31) with the requester's presented request and received responses (rules R28, R30, R327), and
the model's own counters. Plain data throughout. -/

namespace Sys2Proof.Machine

/-- The phase of the block (rule R25). -/
inductive Phase where
  | idle
  | busy
  | done
deriving DecidableEq, Repr, Inhabited

/-- A byte string (rule R40) as address and byte pairs in one canonical form (`Memory.wf`): indices strictly rising,
no entry equal to what an unlisted index reads as. -/
abbrev Memory := List Host.Cell

/-- The request record (rule R26). `txt` is the byte string `TXT_IN` of 255 bytes (rule R40). -/
structure Req where
  cmd : Command
  a   : F64
  b   : F64
  c   : F64
  len : BitVec 8
  txt : Memory
deriving DecidableEq, Repr, Inhabited

/-- The response record (rule R27). `dig` is the byte string `DIG_OUT` of 17 bytes and `txt` is `TXT_OUT` of 275
bytes (rule R40). -/
structure Resp where
  r    : BitVec 64
  x    : BitVec 16
  cc   : BitVec 3
  sgn  : BitVec 1
  dlen : BitVec 5
  dig  : Memory
  tlen : BitVec 9
  txt  : Memory
deriving DecidableEq, Repr, Inhabited

/-- The levels of the input ports at one active clock edge (rule R31): `rst`, `req_valid` with the request it
presents, and `resp_ready`. -/
structure Inputs where
  rst       : Bool
  reqValid  : Bool
  req       : Req
  respReady : Bool
deriving DecidableEq, Repr, Inhabited

/-- What the requester has presented at the port and not yet had accepted (the duty of rules R28 and R327): nothing,
a request held unchanged since it was first presented, or one that was changed while it waited (rule R346(c)). -/
inductive Offer where
  | none
  | held (r : Req)
  | changed
deriving DecidableEq, Repr, Inhabited

/-- Why the machine faults. There is no constructor: "The hardware raises no synchronous exception, for any operation
and any operand" (rule R310), and no rule gives the block an error state (rule R321). Nobody raises a fault; safe. -/
inductive Fault where
deriving DecidableEq, Repr

/-- Why the machine gives a request no next state. -/
inductive Refusal where
  /-- Raised by `exec` for an operation that has no meaning yet. Safe: the run stops. -/
  | notModelled (mnemonic : String)
  /-- Raised by `step` where a request with a non-zero `cmd[31:24]` is accepted or carried out: "The hardware's
  behaviour for one is undefined" and "A model refuses a reserved command word" (rule R70, U1). Safe: the run
  stops. -/
  | reservedField (rsv : BitVec 8)
  /-- Raised by `step` where a request whose `cmd[7:0]` is none of the 44 op codes is accepted or carried out (rule
  R70, U1). Safe: the run stops. -/
  | reservedOp (op : BitVec 8)
  /-- Raised by `step` where it would accept a request that the requester changed while it waited: such a change
  "makes the accepted value undefined" (rule R346(c)), and a model refuses it (U7). Safe: the run stops. -/
  | requestChanged
deriving DecidableEq, Repr

/-- The machine. `phase`, `req` and `resp` are the whole architectural state of the block (rule R25); the other
fields stand for its surroundings and for what the rules leave open. -/
structure State where
  /-- The phase (rule R25). -/
  phase    : Phase
  /-- The request latch `REQ`, meaningful while BUSY (rule R25). -/
  req      : Req
  /-- The response latch `RESP`, meaningful while DONE (rule R25). -/
  resp     : Resp
  /-- The levels of the input ports at this and the later clock edges, this edge's first; beyond the list every input
  port is low (rule R31). -/
  inputs   : List Inputs
  /-- The request that waits at the port (rules R28, R346). -/
  offer    : Offer
  /-- The responses the requester has taken, the latest first (rule R30). -/
  received : List Resp
  /-- The model's own: clock edges still to pass, while BUSY, before the edge of step "complete" (rule R350). -/
  busyFor  : Nat
  /-- The model's own: how many unspecified latch contents have been drawn (rules R30, R34); it indexes the free
  values of `Config`. -/
  drawn    : Nat
deriving DecidableEq, Repr

/-- The request record whose fields are all zero; the value the latch is given at reset, which no rule states. -/
def Req.zero : Req := { cmd := 0#32, a := 0#64, b := 0#64, c := 0#64, len := 0#8, txt := [] }

/-- The response record whose fields and bytes are all zero: what an operation's response holds in every field its
rule does not write (rule R27). -/
def Resp.zero : Resp :=
  { r := 0#64, x := 0#16, cc := 0#3, sgn := 0#1, dlen := 0#5, dig := [], tlen := 0#9, txt := [] }

/-- The machine right after reset (rules R34, R340): `phase = IDLE`. The latches are "unspecified, unobservable" there;
the zeros they hold in this one state are the model's choice. Nothing is presented at the ports. -/
def State.reset : State :=
  { phase := .idle, req := Req.zero, resp := Resp.zero, inputs := [], offer := .none, received := [],
    busyFor := 0, drawn := 0 }

end Sys2Proof.Machine
end

