-- ==== Sys2Proof/Machine/Ops.lean ====
section
/-! DEFINITION. The named operations over byte strings and over the request and response latches. There is no
exception entry and no return from one: the hardware raises none (rule R310) and has no trap (rule R316). -/

namespace Sys2Proof.Machine

/-- What an index that is not listed reads as. The bytes of a response string at its length and above "are zero" (rule
R27); a request's 255 bytes all hold a value, and those of value zero are the ones not listed. -/
def Memory.unlisted : Byte := 0#8

/-- `MemRead(space, i, 1)` (rule R41). -/
def Memory.read : Memory → Nat → Byte
  | [], _ => Memory.unlisted
  | (j, v) :: m, i => if i = j then v else Memory.read m i

/-- `MemWrite(space, i, 1, v)` (rule R42), keeping the canonical form. -/
def Memory.write : Memory → Nat → Byte → Memory
  | [], i, v => if v = Memory.unlisted then [] else [(i, v)]
  | (j, w) :: m, i, v =>
    if i < j then (if v = Memory.unlisted then (j, w) :: m else (i, v) :: (j, w) :: m)
    else if i = j then (if v = Memory.unlisted then m else (i, v) :: m)
    else (j, w) :: Memory.write m i v

/-- The canonical form of a byte string from index `lo` on, below `size`. -/
def Memory.wfFrom (size : Nat) : Nat → Memory → Bool
  | _, [] => true
  | lo, (i, v) :: m => decide (lo ≤ i) && decide (i < size) && decide (v ≠ Memory.unlisted) && Memory.wfFrom size (i + 1) m

/-- The canonical form of a byte string of `size` bytes (rule R40): indices strictly rising and below `size`, no entry
equal to what an unlisted index reads as. -/
def Memory.wf (size : Nat) (m : Memory) : Bool := Memory.wfFrom size 0 m

/-- Write bytes in ascending index from `i` with no gaps (rule R42). -/
def Memory.writeFrom : Memory → Nat → List Byte → Memory
  | m, _, [] => m
  | m, i, v :: vs => Memory.writeFrom (Memory.write m i v) (i + 1) vs

/-- The byte string that holds the bytes of a list from index 0 (rule R42). -/
def Memory.ofBytes (bs : List Byte) : Memory := Memory.writeFrom [] 0 bs

/-- The first `n` bytes of a byte string, index 0 first (rule R44). -/
def Memory.bytes (m : Memory) (n : Nat) : List Byte := (List.range n).map m.read

/-- `TXT_IN_MAX` (rule R40). -/
def txtInMax : Nat := 255

/-- `DIG_MAX` (rule R40). -/
def digMax : Nat := 17

/-- `TXT_OUT_MAX` (rule R40). -/
def txtOutMax : Nat := 275

/-- The response whose one written field is `r` (formats U, B and T, rule R62); every other field is zero (R27). -/
def Resp.ofR (r : BitVec 64) : Resp := { Resp.zero with r := r }

/-- The response whose one written field is `cc` (CLASSIFY and CMP, rule R62); every other field is zero (R27). -/
def Resp.ofCC (cc : BitVec 3) : Resp := { Resp.zero with cc := cc }

/-- Step "complete" (rule R29): `RESP <- exec(REQ)`, `phase <- DONE`. -/
def State.respond (s : State) (r : Resp) : State := { s with resp := r, phase := .done }

end Sys2Proof.Machine
end

