-- ==== Sys2Proof/Machine/Classifier.lean ====
section
/-! DEFINITION. The decoder and classifier unit: the fields, category, exact value and unpacked form of a float64
pattern (rules R90 to R98), which every other unit uses as the sole way to look into a pattern (rule R97). -/

namespace Sys2Proof.Machine

/-- The five categories (rule R91). -/
inductive Category where
  | zero
  | subnormal
  | normal
  | infinite
  | nan
deriving DecidableEq, Repr

/-- `S(b)`, bit 63 (rule R90); `true` is negative. -/
def signOf (b : F64) : Bool := b.getLsbD 63

/-- `E(b)`, bits 62:52, the biased exponent as a number 0 to 2047 (rule R90). -/
def expOf (b : F64) : Nat := (b.extractLsb' 52 11).toNat

/-- `F(b)`, bits 51:0, the mantissa field as a number (rule R90). -/
def fracOf (b : F64) : Nat := (b.extractLsb' 0 52).toNat

/-- `cat(b)` (rule R91). -/
def cat (b : F64) : Category :=
  if expOf b = 0 then (if fracOf b = 0 then .zero else .subnormal)
  else if expOf b = 2047 then (if fracOf b = 0 then .infinite else .nan)
  else .normal

/-- A pattern is finite when its category is zero, subnormal or normal (rule R91). -/
def isFinite (b : F64) : Bool := cat b == .zero || cat b == .subnormal || cat b == .normal

/-- `abs(val(b)) * 2^1074` for a finite pattern (rule R93): the magnitude as a whole number of units of 2^-1074, the
smallest positive value. -/
def magUnits (b : F64) : Nat :=
  if expOf b = 0 then fracOf b else (2 ^ 52 + fracOf b) * 2 ^ (expOf b - 1)

/-- How many of the units `magUnits` counts in make 1: `2^1074`. -/
@[irreducible] def unitsPerOne : Nat := 2 ^ 1074

/-- `val(b) * 2^1074` for a finite pattern (rule R93): the exact value as a whole number of units of 2^-1074. -/
def valUnits (b : F64) : Int := if signOf b then -(magUnits b : Int) else (magUnits b : Int)

/-- The unpacked form `(s, e, m)` (rule R94). -/
structure Unpacked where
  s : Bool
  e : Int
  m : Nat
deriving DecidableEq, Repr

/-- `dec(b)` (rule R94). -/
def unpack (b : F64) : Unpacked :=
  match cat b with
  | .zero => { s := signOf b, e := -1022, m := 0 }
  | .subnormal => { s := signOf b, e := -1022, m := fracOf b }
  | .normal => { s := signOf b, e := (expOf b : Int) - 1023, m := 2 ^ 52 + fracOf b }
  | .infinite => { s := signOf b, e := 1024, m := 0 }
  | .nan => { s := signOf b, e := 1024, m := fracOf b }

/-- `norm(b) = (M, p)` for a non-zero finite pattern (rule R98): `2^52 ≤ M < 2^53` and `abs(val(b)) = M * 2^p`. -/
def norm (b : F64) : Nat × Int :=
  if expOf b = 0 then
    let z := 52 - Nat.log2 (fracOf b)
    (fracOf b <<< z, -1074 - (z : Int))
  else (2 ^ 52 + fracOf b, (expOf b : Int) - 1075)

/-- `ZERO(s) = {s, 63'b0}` (rule R9). -/
def zeroF (s : Bool) : F64 := BitVec.ofBool s ++ 0#63

/-- `INF(s) = {s, 11'h7FF, 52'b0}` (rule R9). -/
def infF (s : Bool) : F64 := BitVec.ofBool s ++ 0x7FF0000000000000#63

/-- The NaN every operation that produces one returns (rule R118). -/
def canonNaN : F64 := 0x7FF8000000000000#64

/-- `neg(b) = b xor 0x8000000000000000` (rule R9). -/
def negF (b : F64) : F64 := b ^^^ 0x8000000000000000#64

/-- `b` with its sign bit cleared (rule R151). -/
def absF (b : F64) : F64 := b &&& 0x7FFFFFFFFFFFFFFF#64

/-- `{s}C`, the constant `C` with its sign bit set to `s` (rule R181). -/
def withSign (s : Bool) (c : F64) : F64 := BitVec.ofBool s ++ c.extractLsb' 0 63

/-- The real 1.0 (rule R181). -/
def oneF : F64 := 0x3FF0000000000000#64

end Sys2Proof.Machine
end

