-- ==== Sys2Proof/Machine/Rounder.lean ====
section
/-! DEFINITION. The rounder unit: round to nearest, ties to even, once per operation, of an exact non-negative rational
given as numerator and denominator (rules R110 to R118). -/

namespace Sys2Proof.Machine

/-- `rhe(num / den)`: the nearest integer, ties to the even one (rule R111). -/
def rhe (num den : Nat) : Nat :=
  let f := num / den
  let rem := num % den
  if den < 2 * rem ∨ (2 * rem = den ∧ f % 2 = 1) then f + 1 else f

/-- `2^k ≤ num / den`, for an integer `k` of either sign. -/
def pow2Le (k : Int) (num den : Nat) : Bool := decide (den * 2 ^ k.toNat ≤ num * 2 ^ (-k).toNat)

/-- `floor(log2 (num / den))` for positive `num` and `den` (rule R111). -/
def floorLog2 (num den : Nat) : Int :=
  let k : Int := (Nat.log2 num : Int) - (Nat.log2 den : Int)
  if pow2Le k num den then k else k - 1

/-- A binary format (rule R117): precision `P`, least and greatest exponent, and the width of the exponent field. -/
structure Format where
  P    : Nat
  emin : Int
  emax : Int
  xb   : Nat
deriving DecidableEq, Repr

/-- float64: `rne = rne_fmt(53, -1022, 1023, 11)` (rule R117). -/
def binary64 : Format := { P := 53, emin := -1022, emax := 1023, xb := 11 }

/-- float32: `rne32 = rne_fmt(24, -126, 127, 8)` (rule R117). -/
def binary32 : Format := { P := 24, emin := -126, emax := 127, xb := 8 }

/-- The end of `rne_fmt` (rule R117): from the exponent `e` of the last binade and the rounded significand `n`, the
exponent and fraction fields of the result as one number; a carry out of the significand moves to the next binade, and
an exponent above `emax` gives the pattern of infinity. -/
def packMag (f : Format) (e : Int) (n : Nat) : Nat :=
  let e' := if n = 2 ^ f.P then e + 1 else e
  let n' := if n = 2 ^ f.P then 2 ^ (f.P - 1) else n
  if f.emax < e' then (2 ^ f.xb - 1) * 2 ^ (f.P - 1)
  else (e' - f.emin).toNat * 2 ^ (f.P - 1) + n'

/-- The exponent and fraction fields of `rne_fmt(P, EMIN, EMAX, XB)(s, num / den)` as one number (rule R117). -/
def roundMag (f : Format) (num den : Nat) : Nat :=
  if num = 0 then 0
  else
    let e := max (floorLog2 num den) f.emin
    let k := e - ((f.P : Int) - 1)
    packMag f e (rhe (num * 2 ^ (-k).toNat) (den * 2 ^ k.toNat))

/-- `rne(s, num / den)` (rule R111), for a positive `den`. -/
def rne (s : Bool) (num den : Nat) : F64 := BitVec.ofBool s ++ BitVec.ofNat 63 (roundMag binary64 num den)

/-- `rne32(s, num / den)` (rule R117), for a positive `den`. -/
def rne32 (s : Bool) (num den : Nat) : F32 := BitVec.ofBool s ++ BitVec.ofNat 31 (roundMag binary32 num den)

/-- `N * 2^k` as numerator and denominator. -/
def scaledFrac (N : Nat) (k : Int) : Nat × Nat := (N * 2 ^ k.toNat, 2 ^ (-k).toNat)

/-- `round_pack(s, N, k, sticky)` (rule R114): the rounding of `N * 2^k`, or of `(N + 1/2) * 2^k` where `sticky` says
that the exact magnitude lies strictly between `N * 2^k` and `(N + 1) * 2^k`. -/
def roundPack (s : Bool) (N : Nat) (k : Int) (sticky : Bool) : F64 :=
  let q := if sticky then scaledFrac (2 * N + 1) (k - 1) else scaledFrac N k
  rne s q.1 q.2

end Sys2Proof.Machine
end

