-- ==== Sys2Proof/Machine/Arithmetic.lean ====
section
/-! DEFINITION. The arithmetic core: ADD, SUB, MUL, DIV, SQRT, FMA, NEG, ABS (42_arithmetic.md). Exact values are whole
numbers of units of 2^-1074 (`valUnits`) or of 2^-2148 for a product, so every case 5 computation is exact and is
rounded once (rule R110). The order of the cases is rule R130's. -/

namespace Sys2Proof.Machine

/-- ADD of two patterns (rule R132; the sign of an exact zero is rule R131's). -/
def addF (a b : F64) : F64 :=
  if cat a = .nan ∨ cat b = .nan then canonNaN
  else if cat a = .infinite ∧ cat b = .infinite then (if signOf a = signOf b then a else canonNaN)
  else if cat a = .infinite then a
  else if cat b = .infinite then b
  else
    let t := valUnits a + valUnits b
    if t = 0 then zeroF (signOf a && signOf b)
    else rne (decide (t < 0)) t.natAbs unitsPerOne

/-- SUB of two patterns: ADD with the sign bit of `b` flipped (rule R134). -/
def subF (a b : F64) : F64 := addF a (negF b)

/-- MUL of two patterns (rule R136). -/
def mulF (a b : F64) : F64 :=
  let sx := signOf a ^^ signOf b
  if cat a = .nan ∨ cat b = .nan then canonNaN
  else if (cat a = .infinite ∧ cat b = .zero) ∨ (cat a = .zero ∧ cat b = .infinite) then canonNaN
  else if cat a = .infinite ∨ cat b = .infinite then infF sx
  else rne sx (magUnits a * magUnits b) (unitsPerOne * unitsPerOne)

/-- DIV of two patterns (rule R139). -/
def divF (a b : F64) : F64 :=
  let sx := signOf a ^^ signOf b
  if cat a = .nan ∨ cat b = .nan then canonNaN
  else if cat a = .infinite ∧ cat b = .infinite then canonNaN
  else if cat a = .zero ∧ cat b = .zero then canonNaN
  else if cat a = .infinite then infF sx
  else if cat b = .infinite then zeroF sx
  else if cat b = .zero then infF sx
  else rne sx (magUnits a) (magUnits b)

/-- The largest `k` below `acc + 2^bits`, at least `acc`, at which `p` holds, for a `p` that holds at `acc` and, once
false, stays false. -/
def largest (p : Nat → Bool) : Nat → Nat → Nat
  | 0, acc => acc
  | bits + 1, acc => if p (acc + 2 ^ bits) then largest p bits (acc + 2 ^ bits) else largest p bits acc

/-- `isqrt(x)`: the largest integer whose square is at most `x` (rules R142, R250). -/
def isqrt (x : Nat) : Nat := largest (fun k => decide (k * k ≤ x)) (Nat.log2 x / 2 + 1) 0

/-- SQRT of a pattern (rule R142). -/
def sqrtF (a : F64) : F64 :=
  if cat a = .nan then canonNaN
  else if cat a = .zero then a
  else if signOf a then canonNaN
  else if cat a = .infinite then a
  else
    let M := (norm a).1
    let p := (norm a).2
    let j : Nat := if (p - 58) % 2 = 0 then 58 else 59
    let X := M <<< j
    let N := isqrt X
    roundPack false N ((p - j) / 2) (decide (N * N ≠ X))

/-- FMA of three patterns, `a * b + c` with one rounding (rule R145; the signs of zero are rule R131's). -/
def fmaF (a b c : F64) : F64 :=
  let sp := signOf a ^^ signOf b
  if cat a = .nan ∨ cat b = .nan ∨ cat c = .nan then canonNaN
  else if (cat a = .infinite ∧ cat b = .zero) ∨ (cat a = .zero ∧ cat b = .infinite) then canonNaN
  else if cat a = .infinite ∨ cat b = .infinite then
    (if cat c = .infinite ∧ signOf c ≠ sp then canonNaN else infF sp)
  else if cat c = .infinite then c
  else
    let t := valUnits a * valUnits b + valUnits c * unitsPerOne
    if t ≠ 0 then rne (decide (t < 0)) t.natAbs (unitsPerOne * unitsPerOne)
    else if (cat a = .zero ∨ cat b = .zero) ∧ cat c = .zero then zeroF (sp && signOf c)
    else zeroF false

/-- ADD (rule R132). -/
def execAdd (s : State) : Host.Outcome State Fault Refusal := .next (s.respond (Resp.ofR (addF s.req.a s.req.b)))

/-- SUB (rule R134). -/
def execSub (s : State) : Host.Outcome State Fault Refusal := .next (s.respond (Resp.ofR (subF s.req.a s.req.b)))

/-- MUL (rule R136). -/
def execMul (s : State) : Host.Outcome State Fault Refusal := .next (s.respond (Resp.ofR (mulF s.req.a s.req.b)))

/-- DIV (rule R139). -/
def execDiv (s : State) : Host.Outcome State Fault Refusal := .next (s.respond (Resp.ofR (divF s.req.a s.req.b)))

/-- SQRT (rule R142). -/
def execSqrt (s : State) : Host.Outcome State Fault Refusal := .next (s.respond (Resp.ofR (sqrtF s.req.a)))

/-- FMA (rule R145). -/
def execFma (s : State) : Host.Outcome State Fault Refusal :=
  .next (s.respond (Resp.ofR (fmaF s.req.a s.req.b s.req.c)))

/-- NEG (rule R150). -/
def execNeg (s : State) : Host.Outcome State Fault Refusal := .next (s.respond (Resp.ofR (negF s.req.a)))

/-- ABS (rule R151). -/
def execAbs (s : State) : Host.Outcome State Fault Refusal := .next (s.respond (Resp.ofR (absF s.req.a)))

end Sys2Proof.Machine
end

