-- ==== Sys2Proof/Machine/Flags.lean ====
section
/-! DEFINITION. The result codes of `resp.cc` (rule R67). The hardware has no status flags, no condition-code register
and no sticky exception flags (rule R22): these codes are a field of one response and are kept nowhere. -/

namespace Sys2Proof.Machine

/-- The category code (rule R67). -/
def Category.code : Category → BitVec 3
  | .zero => 0#3
  | .subnormal => 1#3
  | .normal => 2#3
  | .infinite => 3#3
  | .nan => 4#3

/-- The four outcomes of a comparison (rule R67). -/
inductive Comparison where
  | equal
  | less
  | greater
  | unordered
deriving DecidableEq, Repr

/-- The comparison outcome's code (rule R67). -/
def Comparison.code : Comparison → BitVec 3
  | .equal => 0#3
  | .less => 1#3
  | .greater => 2#3
  | .unordered => 3#3

end Sys2Proof.Machine
end

