-- ==== Sys2Proof/Machine/Comparator.lean ====
section
/-! DEFINITION. The comparator unit: the ordering key and CMP (43_comparator.md). -/

namespace Sys2Proof.Machine

/-- `key(b)` of a pattern that is not a NaN (rule R170); it is also `ord(b)` of rule R183. -/
def key (b : F64) : Int :=
  if signOf b then -((b.extractLsb' 0 63).toNat : Int) else ((b.extractLsb' 0 63).toNat : Int)

/-- The outcome of comparing two patterns (rule R171). -/
def compareF (a b : F64) : Comparison :=
  if cat a = .nan ∨ cat b = .nan then .unordered
  else if key a < key b then .less
  else if key b < key a then .greater
  else .equal

/-- CMP (rule R171). -/
def execCmp (s : State) : Host.Outcome State Fault Refusal :=
  .next (s.respond (Resp.ofCC (compareF s.req.a s.req.b).code))

end Sys2Proof.Machine
end

