-- ==== Sys2Proof/Machine/Operands.lean ====
section
/-! DEFINITION. Operand and result assembly (rules R66, R68): how narrow integers and float32 patterns sit in the
64-bit request and response fields, and the text of a request (rules R26, R41). -/

namespace Sys2Proof.Machine

/-- `signed(req.a[n-1:0])`; the bits above are ignored (rule R66). -/
def signedOperand (n : Nat) (a : BitVec 64) : Int := (a.extractLsb' 0 n).toInt

/-- `unsigned(req.a[n-1:0])`; the bits above are ignored (rule R66). -/
def unsignedOperand (n : Nat) (a : BitVec 64) : Int := ((a.extractLsb' 0 n).toNat : Int)

/-- The float32 operand `req.a[31:0]`; the bits above are ignored (rule R66). -/
def float32Operand (a : BitVec 64) : F32 := a.extractLsb' 0 32

/-- `sext_64(v[n-1:0])`, the placement of a signed integer result (rule R68). -/
def signedResult (n : Nat) (v : Int) : BitVec 64 := (BitVec.ofInt n v).signExtend 64

/-- `zext_64(v[n-1:0])`, the placement of an unsigned integer result (rule R68). -/
def unsignedResult (n : Nat) (v : Int) : BitVec 64 := (BitVec.ofInt n v).setWidth 64

/-- `zext_64(w)`, the placement of a float32 result (rule R68). -/
def float32Result (w : F32) : BitVec 64 := w.setWidth 64

/-- The text of a request: `req.txt[0 .. req.len - 1]`; bytes at `req.len` and above are never read (rules R26, R41). -/
def Req.text (q : Req) : List Byte := q.txt.bytes q.len.toNat

end Sys2Proof.Machine
end

