-- ==== Sys2Proof/Machine/DecimalEncoder.lean ====
section
/-! DEFINITION. The decimal encoder: TODEC (47_decimal_encoder.md). Digit generation is exact, in integers (rule R272);
digits are numbers 0 to 9 until the text is written in ASCII (rule R43). -/

namespace Sys2Proof.Machine

/-- The ASCII code of the decimal digit `d`, 0x30 to 0x39 (rule R43). -/
def digitByte (d : Nat) : Byte := BitVec.ofNat 8 (0x30 + d)

/-- '-' (rule R43). -/
def chMinus : Byte := 0x2D#8
/-- '+' (rule R43). -/
def chPlus : Byte := 0x2B#8
/-- '.' (rule R43). -/
def chPoint : Byte := 0x2E#8
/-- 'E', the exponent separator `EXP_SEP` that TODEC writes (rules R43, R276). -/
def chE : Byte := 0x45#8
/-- 'e', which PARSE accepts beside 'E' (rules R43, R291). -/
def chLowerE : Byte := 0x65#8
/-- '0' (rule R43). -/
def chZero : Byte := 0x30#8
/-- "inf" (rules R43, R277). -/
def textInf : List Byte := [0x69#8, 0x6E#8, 0x66#8]
/-- "nan" (rules R43, R277). -/
def textNan : List Byte := [0x6E#8, 0x61#8, 0x6E#8]

/-- The largest `k` with `10^k ≤ n`, for a positive `n`. -/
def ilog10 (n : Nat) : Nat := largest (fun k => decide (10 ^ k ≤ n)) (Nat.log2 (Nat.log2 n) + 1) 0

/-- The least `k` with `den ≤ num * 10^k`, where `num < den` (`num` positive): one more than the largest `k` with
`num * 10^k < den`. -/
def stepsToOne (num den : Nat) : Nat :=
  largest (fun k => decide (num * 10 ^ k < den)) (Nat.log2 (Nat.log2 den) + 1) 0 + 1

/-- `floor(log10 (num / den))` for positive `num` and `den` (rule R272). -/
def floorLog10 (num den : Nat) : Int :=
  if den ≤ num then (ilog10 (num / den) : Int) else -(stepsToOne num den : Int)

/-- The `n`-digit decimal numeral of `D`, most significant digit first (rule R272). -/
def decDigits : Nat → Nat → List Nat
  | 0, _ => []
  | n + 1, D => decDigits n (D / 10) ++ [D % 10]

/-- `dec10(k)`: the decimal numeral of `k` with no leading zeros (rule R271). -/
def numeral (k : Nat) : List Nat := if k = 0 then [0] else decDigits (ilog10 k + 1) k

/-- A digit string without its trailing zeros (rule R272). -/
def stripZeros (ds : List Nat) : List Nat := (ds.reverse.dropWhile (fun d => d == 0)).reverse

/-- `digits(num / den, n)` (rule R272): the significant digits and the exponent of the first one, of the value rounded
half to even to `n` significant decimal digits. -/
def digits (num den n : Nat) : List Nat × Int :=
  let e0 := floorLog10 num den
  let k := e0 - (n : Int) + 1
  let D := rhe (num * 10 ^ (-k).toNat) (den * 10 ^ k.toNat)
  if D = 10 ^ n then (stripZeros (decDigits n (10 ^ (n - 1))), e0 + 1)
  else (stripZeros (decDigits n D), e0)

/-- The clamp of `p0` into 1 to `DIG_MAX` (rule R278). -/
def clampDigits (p0 : Nat) : Nat := min (max p0 1) digMax

/-- "-" for a negative value and nothing otherwise (rule R275). -/
def signText (s : Bool) : List Byte := if s then [chMinus] else []

/-- The text of a finite non-zero value from its sign, digits and exponent, the clamped digit bound `n` and the bound
`p1` on leading zeros: fixed notation (rules R274, R275) or exponential notation (rule R276). -/
def renderText (s : Bool) (dig : List Nat) (e0 : Int) (n p1 : Nat) : List Byte :=
  let ds := dig.map digitByte
  if 0 ≤ e0 ∧ e0 < n then
    let w := e0.toNat + 1
    let ip := ds.take w ++ List.replicate (w - ds.length) chZero
    let fp := ds.drop w
    signText s ++ ip ++ (if fp = [] then [] else chPoint :: fp)
  else if e0 < 0 ∧ -e0 - 1 ≤ p1 then
    signText s ++ [chZero, chPoint] ++ List.replicate (-e0 - 1).toNat chZero ++ ds
  else
    signText s ++ ds.take 1 ++ (if 1 < ds.length then chPoint :: ds.drop 1 else []) ++
      [chE, if e0 < 0 then chMinus else chPlus] ++ (numeral e0.natAbs).map digitByte

/-- The response of TODEC that carries a digit string and a text (rules R271, R42). -/
def decResp (sgn : Bool) (c : Category) (dig : List Byte) (x : Int) (txt : List Byte) : Resp :=
  { Resp.zero with
    sgn := BitVec.ofBool sgn
    cc := c.code
    x := BitVec.ofInt 16 x
    dlen := BitVec.ofNat 5 dig.length
    dig := Memory.ofBytes dig
    tlen := BitVec.ofNat 9 txt.length
    txt := Memory.ofBytes txt }

/-- The response of TODEC to a finite non-zero operand of category `c` (rule R271 case 4). -/
def todecFinite (a : F64) (c : Category) (p0 p1 : Nat) : Resp :=
  let n := clampDigits p0
  let d := digits (magUnits a) unitsPerOne n
  decResp (signOf a) c (d.1.map digitByte) d.2 (renderText (signOf a) d.1 d.2 n p1)

/-- The response of TODEC to the operand `a` with the parameters `p0` and `p1` (rules R271, R277). -/
def todecResp (a : F64) (p0 p1 : Nat) : Resp :=
  match cat a with
  | .nan => decResp false .nan [] 0 textNan
  | .infinite => decResp (signOf a) .infinite [] 0 (signText (signOf a) ++ textInf)
  | .zero => decResp (signOf a) .zero [chZero] 0 (signText (signOf a) ++ [chZero])
  | .subnormal => todecFinite a .subnormal p0 p1
  | .normal => todecFinite a .normal p0 p1

/-- TODEC (rule R271). -/
def execTodec (p0 p1 : BitVec 8) (s : State) : Host.Outcome State Fault Refusal :=
  .next (s.respond (todecResp s.req.a p0.toNat p1.toNat))

end Sys2Proof.Machine
end

