-- ==== Sys2Proof/Machine/DecimalDecoder.lean ====
section
/-! DEFINITION. The decimal decoder: PARSE (48_decimal_decode.md). The text is the list of its bytes, so the end of the
list is the end of the text and no byte at `req.len` or above is read (rule R41); a position of the scan of rule R293 is
the number of bytes already passed. -/

namespace Sys2Proof.Machine

/-- `0x30 ≤ byte ≤ 0x39` (rule R293). -/
def isDigitByte (c : Byte) : Bool := decide (0x30 ≤ c.toNat) && decide (c.toNat ≤ 0x39)

/-- The digits a text begins with, as far as they go. -/
def leadingDigits (t : List Byte) : List Byte := t.takeWhile isDigitByte

/-- The decimal value of a string of digit bytes (rule R293). -/
def decimalValue (ds : List Byte) : Nat := ds.foldl (fun v c => 10 * v + (c.toNat - 0x30)) 0

/-- An optional sign at the head of a text: whether it is '-', and how many bytes it takes (rules R291, R293). -/
def scanSign (t : List Byte) : Bool × Nat :=
  match t with
  | c :: _ => if c = chMinus then (true, 1) else if c = chPlus then (false, 1) else (false, 0)
  | [] => (false, 0)

/-- The exponent at the head of a text: its value and how many bytes it takes. It is taken only when complete: a marker
without a digit after it and its optional sign takes no byte and stands for 0 (rules R291(d), R293). -/
def scanExponent (t : List Byte) : Int × Nat :=
  match t with
  | c :: rest =>
    if c = chLowerE ∨ c = chE then
      let es := scanSign rest
      let ds := leadingDigits (rest.drop es.2)
      if ds = [] then (0, 0)
      else (if es.1 then -(decimalValue ds : Int) else (decimalValue ds : Int), 1 + es.2 + ds.length)
    else (0, 0)
  | [] => (0, 0)

/-- What a successful scan returns (rule R293): the sign, the digits before and after the point, the exponent, and the
number of bytes consumed. -/
structure Scan where
  s        : Bool
  ints     : List Byte
  fracs    : List Byte
  ex       : Int
  consumed : Nat
deriving DecidableEq, Repr

/-- The fraction at the head of a text: the digits after a '.', and how many bytes the point and they take (rule
R293). -/
def scanFraction (t : List Byte) : List Byte × Nat :=
  match t with
  | c :: rest => if c = chPoint then (leadingDigits rest, 1 + (leadingDigits rest).length) else ([], 0)
  | [] => ([], 0)

/-- `scan()` (rule R293): the longest prefix of the text that the grammar of rule R291 derives, or `none` for FAIL. -/
def scan (t : List Byte) : Option Scan :=
  let sg := scanSign t
  let t1 := t.drop sg.2
  let ints := leadingDigits t1
  let t2 := t1.drop ints.length
  let fr := scanFraction t2
  if ints = [] ∧ fr.1 = [] then none
  else
    let t3 := t2.drop fr.2
    let e := scanExponent t3
    some { s := sg.1, ints := ints, fracs := fr.1, ex := e.1, consumed := sg.2 + ints.length + fr.2 + e.2 }

/-- `rne(s, D * 10^k)`, the exact decimal value rounded once (rule R292), by the rule's own shortcuts: with `P` the
decimal exponent of the first non-zero digit, `P ≥ 309` gives `INF(s)` and `P ≤ -325` gives `ZERO(s)`, so that no power
of ten is formed for an exponent far out of range. -/
def decimalToF (s : Bool) (D : Nat) (k : Int) : F64 :=
  if D = 0 then zeroF s
  else
    let P : Int := (ilog10 D : Int) + k
    if 309 ≤ P then infF s
    else if P ≤ -325 then zeroF s
    else rne s (D * 10 ^ k.toNat) (10 ^ (-k).toNat)

/-- The response of PARSE to a text (rule R292). -/
def parseResp (t : List Byte) : Resp :=
  match scan t with
  | none => Resp.zero
  | some m =>
    { Resp.zero with
      r := decimalToF m.s (decimalValue (m.ints ++ m.fracs)) (m.ex - (m.fracs.length : Int))
      x := BitVec.ofNat 16 m.consumed }

/-- PARSE (rule R292). -/
def execParse (s : State) : Host.Outcome State Fault Refusal := .next (s.respond (parseResp s.req.text))

end Sys2Proof.Machine
end

