-- ==== Sys2Proof/Machine/Decoder.lean ====
section
/-! DEFINITION. The operations of the decoder and classifier unit: DECODE and CLASSIFY (rules R95, R96). -/

namespace Sys2Proof.Machine

/-- The response of DECODE to the operand `a` (rule R95). -/
def decodeResp (a : F64) : Resp :=
  let u := unpack a
  { Resp.zero with
    sgn := BitVec.ofBool u.s
    x := BitVec.ofInt 16 u.e
    r := BitVec.ofNat 64 u.m
    cc := (cat a).code }

/-- DECODE (rule R95). -/
def execDecode (s : State) : Host.Outcome State Fault Refusal := .next (s.respond (decodeResp s.req.a))

/-- CLASSIFY (rule R96). -/
def execClassify (s : State) : Host.Outcome State Fault Refusal :=
  .next (s.respond (Resp.ofCC (cat s.req.a).code))

end Sys2Proof.Machine
end

