-- ==== Sys2Proof/Machine/Float32Conversion.lean ====
section
/-! DEFINITION. The float32 converters: F32TOF64 and F64TOF32 (46_conversion_fp32.md). -/

namespace Sys2Proof.Machine

/-- `S32`, bit 31 (rule R260). -/
def signOf32 (w : F32) : Bool := w.getLsbD 31

/-- `E32`, bits 30:23 (rule R260). -/
def expOf32 (w : F32) : Nat := (w.extractLsb' 23 8).toNat

/-- `F32`, bits 22:0 (rule R260). -/
def fracOf32 (w : F32) : Nat := (w.extractLsb' 0 23).toNat

/-- `cat32(w)` (rule R260). -/
def cat32 (w : F32) : Category :=
  if expOf32 w = 0 then (if fracOf32 w = 0 then .zero else .subnormal)
  else if expOf32 w = 255 then (if fracOf32 w = 0 then .infinite else .nan)
  else .normal

/-- `abs(val32(w)) * 2^149` for a finite float32 pattern (rule R260): whole units of 2^-149, the smallest positive
float32 value. -/
def magUnits32 (w : F32) : Nat :=
  if expOf32 w = 0 then fracOf32 w else (2 ^ 23 + fracOf32 w) * 2 ^ (expOf32 w - 1)

/-- `ZERO32(s)` (rule R260). -/
def zeroF32 (s : Bool) : F32 := BitVec.ofBool s ++ 0#31

/-- `INF32(s)` (rule R260). -/
def infF32 (s : Bool) : F32 := BitVec.ofBool s ++ 0x7F800000#31

/-- `CANON_NAN32` (rule R260). -/
def canonNaN32 : F32 := 0x7FC00000#32

/-- Widening of a float32 pattern (rule R262). -/
def widenF (w : F32) : F64 :=
  if cat32 w = .nan then canonNaN
  else if cat32 w = .infinite then infF (signOf32 w)
  else if cat32 w = .zero then zeroF (signOf32 w)
  else rne (signOf32 w) (magUnits32 w) (2 ^ 149)

/-- Narrowing to a float32 pattern (rule R263). -/
def narrowF (a : F64) : F32 :=
  if cat a = .nan then canonNaN32
  else if cat a = .infinite then infF32 (signOf a)
  else if cat a = .zero then zeroF32 (signOf a)
  else rne32 (signOf a) (magUnits a) unitsPerOne

/-- F32TOF64 (rule R262). -/
def execF32ToF64 (s : State) : Host.Outcome State Fault Refusal :=
  .next (s.respond (Resp.ofR (widenF (float32Operand s.req.a))))

/-- F64TOF32 (rule R263). -/
def execF64ToF32 (s : State) : Host.Outcome State Fault Refusal :=
  .next (s.respond (Resp.ofR (float32Result (narrowF s.req.a))))

end Sys2Proof.Machine
end

