-- ==== Sys2Proof/Machine/IntConversion.lean ====
section
/-! DEFINITION. The integer converters: I2F.* and F2I.* (45_conversion_int.md). Integers are mathematical integers;
they are narrowed only where they enter or leave a request or response field (rules R66, R68, R250). -/

namespace Sys2Proof.Machine

/-- `i2f(v)` (rule R230). -/
def i2f (v : Int) : F64 := if v = 0 then zeroF false else rne (decide (v < 0)) v.natAbs 1

/-- `trunc(val(a))` of a finite pattern: the integer part, rounded toward zero (rule R240 line 3). -/
def truncF (a : F64) : Int := (valUnits a).tdiv unitsPerOne

/-- `f2i(a, lo, hi)` (rule R240). -/
def f2i (a : F64) (lo hi : Int) : Int :=
  if cat a = .nan then 0
  else if cat a = .infinite then (if signOf a then lo else hi)
  else
    let t := truncF a
    if hi < t then hi else if t < lo then lo else t

/-- I2F.S8 (rule R232). -/
def execI2fS8 (s : State) : Host.Outcome State Fault Refusal :=
  .next (s.respond (Resp.ofR (i2f (signedOperand 8 s.req.a))))

/-- I2F.U8 (rule R233). -/
def execI2fU8 (s : State) : Host.Outcome State Fault Refusal :=
  .next (s.respond (Resp.ofR (i2f (unsignedOperand 8 s.req.a))))

/-- I2F.S16 (rule R234). -/
def execI2fS16 (s : State) : Host.Outcome State Fault Refusal :=
  .next (s.respond (Resp.ofR (i2f (signedOperand 16 s.req.a))))

/-- I2F.U16 (rule R235). -/
def execI2fU16 (s : State) : Host.Outcome State Fault Refusal :=
  .next (s.respond (Resp.ofR (i2f (unsignedOperand 16 s.req.a))))

/-- I2F.S32 (rule R236). -/
def execI2fS32 (s : State) : Host.Outcome State Fault Refusal :=
  .next (s.respond (Resp.ofR (i2f (signedOperand 32 s.req.a))))

/-- I2F.U32 (rule R237). -/
def execI2fU32 (s : State) : Host.Outcome State Fault Refusal :=
  .next (s.respond (Resp.ofR (i2f (unsignedOperand 32 s.req.a))))

/-- I2F.S64 (rule R238). -/
def execI2fS64 (s : State) : Host.Outcome State Fault Refusal :=
  .next (s.respond (Resp.ofR (i2f (signedOperand 64 s.req.a))))

/-- I2F.U64 (rule R239). -/
def execI2fU64 (s : State) : Host.Outcome State Fault Refusal :=
  .next (s.respond (Resp.ofR (i2f (unsignedOperand 64 s.req.a))))

/-- F2I.S8 (rule R242). -/
def execF2iS8 (s : State) : Host.Outcome State Fault Refusal :=
  .next (s.respond (Resp.ofR (signedResult 8 (f2i s.req.a (-128) 127))))

/-- F2I.U8 (rule R243). -/
def execF2iU8 (s : State) : Host.Outcome State Fault Refusal :=
  .next (s.respond (Resp.ofR (unsignedResult 8 (f2i s.req.a 0 255))))

/-- F2I.S16 (rule R244). -/
def execF2iS16 (s : State) : Host.Outcome State Fault Refusal :=
  .next (s.respond (Resp.ofR (signedResult 16 (f2i s.req.a (-32768) 32767))))

/-- F2I.U16 (rule R245). -/
def execF2iU16 (s : State) : Host.Outcome State Fault Refusal :=
  .next (s.respond (Resp.ofR (unsignedResult 16 (f2i s.req.a 0 65535))))

/-- F2I.S32 (rule R246). -/
def execF2iS32 (s : State) : Host.Outcome State Fault Refusal :=
  .next (s.respond (Resp.ofR (signedResult 32 (f2i s.req.a (-2147483648) 2147483647))))

/-- F2I.U32 (rule R247). -/
def execF2iU32 (s : State) : Host.Outcome State Fault Refusal :=
  .next (s.respond (Resp.ofR (unsignedResult 32 (f2i s.req.a 0 4294967295))))

/-- F2I.S64 (rule R248). -/
def execF2iS64 (s : State) : Host.Outcome State Fault Refusal :=
  .next (s.respond (Resp.ofR (signedResult 64 (f2i s.req.a (-2 ^ 63) (2 ^ 63 - 1)))))

/-- F2I.U64 (rule R249). -/
def execF2iU64 (s : State) : Host.Outcome State Fault Refusal :=
  .next (s.respond (Resp.ofR (unsignedResult 64 (f2i s.req.a 0 (2 ^ 64 - 1)))))

end Sys2Proof.Machine
end

