-- ==== Sys2Proof/Machine/Accuracy.lean ====
section
/-! DEFINITION. Exact values and rounding over an ordered field, as rules R93, R111 and R117 write them, and the
accuracy contract of the transcendental engine (rule R184). `exec` evaluates none of the functions of this file: over
the rationals they are what statements hold the integer computations of the units against, and over the reals they say
what a result of the transcendental engine may be. -/

namespace Sys2Proof.Machine

section Field

variable (K : Type) [Field K] [LinearOrder K] [FloorRing K]

/-- `val(b)` of a finite pattern (rule R93). -/
def val (b : F64) : K :=
  (if signOf b then -1 else 1) *
    (if expOf b = 0 then (fracOf b : K) * 2 ^ (-1074 : ℤ) else ((2 : K) ^ 52 + fracOf b) * 2 ^ ((expOf b : ℤ) - 1075))

/-- `val32(w)` of a finite float32 pattern (rule R260). -/
def val32 (w : F32) : K :=
  (if signOf32 w then -1 else 1) *
    (if expOf32 w = 0 then (fracOf32 w : K) * 2 ^ (-149 : ℤ)
     else ((2 : K) ^ 23 + fracOf32 w) * 2 ^ ((expOf32 w : ℤ) - 150))

variable {K}

/-- `rhe(x)`: the nearest integer to a non-negative `x`, ties to the even one (rule R111). -/
def rheOn (x : K) : Nat :=
  let f := ⌊x⌋₊
  if 1 / 2 < x - f ∨ (x - f = 1 / 2 ∧ f % 2 = 1) then f + 1 else f

/-- The exponent and fraction fields of `rne_fmt(P, EMIN, EMAX, XB)(s, q)` as one number, for a non-negative `q` (rule
R117). -/
def roundOn (f : Format) (q : K) : Nat :=
  if q = 0 then 0
  else
    let e := max (Int.log 2 q) f.emin
    packMag f e (rheOn (q / 2 ^ (e - ((f.P : ℤ) - 1))))

/-- `rne(s, q)` for a non-negative `q` (rule R111). -/
def rneOn (s : Bool) (q : K) : F64 := BitVec.ofBool s ++ BitVec.ofNat 63 (roundOn binary64 q)

/-- `rne32(s, q)` for a non-negative `q` (rule R117). -/
def rne32On (s : Bool) (q : K) : F32 := BitVec.ofBool s ++ BitVec.ofNat 31 (roundOn binary32 q)

/-- A number correctly rounded: `rne` of its magnitude with its sign (`rne_real` of rule R184). -/
def rneSigned (t : K) : F64 := rneOn (decide (t < 0)) |t|

end Field

/-- The accuracy contract (rule R184 (a) to (c)) for the real mathematical result `t` and the bound `bound`: the
returned pattern `r` is no NaN, lies within `bound` ordinal steps of `t` correctly rounded, and has the sign of `t`.
(`key` is the ordinal of rule R183.) -/
def Accurate (bound : Nat) (t : ℝ) (r : F64) : Prop :=
  cat r ≠ .nan ∧ |key r - key (rneSigned t)| ≤ bound ∧ (0 < t → signOf r = false) ∧ (t < 0 → signOf r = true)

/-- `isint(b)` (rule R201). -/
def isInt (b : F64) : Bool :=
  cat b == .zero || (isFinite b && decide (1075 ≤ expOf b)) ||
    (decide (1023 ≤ expOf b) && decide (expOf b ≤ 1074) && fracOf b % 2 ^ (1075 - expOf b) == 0)

/-- `isodd(b)` (rule R201). -/
def isOdd (b : F64) : Bool :=
  decide (1023 ≤ expOf b) && decide (expOf b ≤ 1075) && isInt b &&
    (2 ^ 52 + fracOf b) / 2 ^ (1075 - expOf b) % 2 == 1

/-- A finite pattern of a non-zero value. -/
def isFiniteNonzero (b : F64) : Bool := cat b == .subnormal || cat b == .normal

/-- The value of a finite pattern is 1 in magnitude, or less: its magnitude field is at most that of `ONE`. -/
def magAtMostOne (b : F64) : Bool := decide (magUnits b ≤ unitsPerOne)

/-- The operands on which POW reaches its last case (rule R202 case 9): both finite and non-zero, the base not `ONE`,
and the exponent an integer where the base is negative. -/
def powLastCase (a b : F64) : Bool :=
  isFiniteNonzero a && isFiniteNonzero b && !(a == oneF) && !(signOf a && !isInt b)

/-- The real result of POW in its last case: `abs(val(a)) ^ val(b)`, negated for a negative base and an odd exponent
(rule R202 case 9). -/
def powReal (a b : F64) (t : ℝ) : Prop :=
  t = (if signOf a && isOdd b then -1 else 1) * |val ℝ a| ^ (val ℝ b)

/-- An implementation of the transcendental engine's last cases: its two accuracy bounds (rule R6) and one function of
the operand patterns for each operation (rules R182, R184(d)). -/
structure Engine where
  transUlp : Nat
  powUlp   : Nat
  sin      : F64 → F64
  cos      : F64 → F64
  tan      : F64 → F64
  asin     : F64 → F64
  acos     : F64 → F64
  atan     : F64 → F64
  atan2    : F64 → F64 → F64
  exp      : F64 → F64
  log      : F64 → F64
  pow      : F64 → F64 → F64
  sinh     : F64 → F64
  cosh     : F64 → F64
  tanh     : F64 → F64

/-- Rule R184 for every operation, on the operands that reach its last case (rules R190 to R207): the one thing the
model knows of an engine. -/
structure Engine.Conforms (g : Engine) : Prop where
  sin   : ∀ a, isFiniteNonzero a → Accurate g.transUlp (Real.sin (val ℝ a)) (g.sin a)
  cos   : ∀ a, isFiniteNonzero a → Accurate g.transUlp (Real.cos (val ℝ a)) (g.cos a)
  tan   : ∀ a, isFiniteNonzero a → Accurate g.transUlp (Real.tan (val ℝ a)) (g.tan a)
  asin  : ∀ a, isFiniteNonzero a → magAtMostOne a → Accurate g.transUlp (Real.arcsin (val ℝ a)) (g.asin a)
  acos  : ∀ a, isFinite a → magAtMostOne a → a ≠ oneF → Accurate g.transUlp (Real.arccos (val ℝ a)) (g.acos a)
  atan  : ∀ a, isFiniteNonzero a → Accurate g.transUlp (Real.arctan (val ℝ a)) (g.atan a)
  atan2 : ∀ y x, isFiniteNonzero y → isFiniteNonzero x →
            Accurate g.transUlp (Complex.arg ⟨val ℝ x, val ℝ y⟩) (g.atan2 y x)
  exp   : ∀ a, isFiniteNonzero a → Accurate g.transUlp (Real.exp (val ℝ a)) (g.exp a)
  log   : ∀ a, isFiniteNonzero a → signOf a = false → a ≠ oneF → Accurate g.transUlp (Real.log (val ℝ a)) (g.log a)
  pow   : ∀ a b t, powLastCase a b → powReal a b t → Accurate g.powUlp t (g.pow a b)
  sinh  : ∀ a, isFiniteNonzero a → Accurate g.transUlp (Real.sinh (val ℝ a)) (g.sinh a)
  cosh  : ∀ a, isFiniteNonzero a → Accurate g.transUlp (Real.cosh (val ℝ a)) (g.cosh a)
  tanh  : ∀ a, isFiniteNonzero a → Accurate g.transUlp (Real.tanh (val ℝ a)) (g.tanh a)

end Sys2Proof.Machine
end

