-- ==== Sys2Proof/Machine/EngineWitness.lean ====
section
/-! DEFINITION. An engine that meets the accuracy contract exists, and can be computed: the witness that lets
`Config` hold an engine of which nothing but the contract is known. It answers 1 or -1, with the sign of the true
result, and its bounds are wider than the whole range of ordinals; it stands for no implementation. The one thing it
has to compute is that sign; for the sine and the cosine it is read off a Taylor sum once the remainder is smaller than
the sum. -/

namespace Sys2Proof.Machine

open Finset

/-- The `m`-th coefficient's sign in the sine series: 0, 1, 0, -1, … -/
def sinSign (m : ℕ) : ℚ := if m % 4 = 1 then 1 else if m % 4 = 3 then -1 else 0

/-- The `m`-th coefficient's sign in the cosine series: 1, 0, -1, 0, … -/
def cosSign (m : ℕ) : ℚ := if m % 4 = 0 then 1 else if m % 4 = 2 then -1 else 0

/-- The sum of the first `n` terms of the series with signs `c`. -/
def taylorSum (c : ℕ → ℚ) (x : ℚ) (n : ℕ) : ℚ := ∑ m ∈ range n, c m * x ^ m / m.factorial

/-- A bound on what the series leaves out after `n` terms, once `2 * abs x ≤ n + 1`. -/
def taylorRest (x : ℚ) (n : ℕ) : ℚ := |x| ^ n / n.factorial * 2

/-- After `n` terms the sum shows the sign of its limit. -/
abbrev signShown (c : ℕ → ℚ) (x : ℚ) (n : ℕ) : Prop :=
  2 * |x| ≤ n + 1 ∧ taylorRest x n < |taylorSum c x n|

theorem I_pow_re_im (m : ℕ) : (Complex.I ^ m).re = (cosSign m : ℝ) ∧ (Complex.I ^ m).im = (sinSign m : ℝ) := by
  have h4 : Complex.I ^ m = Complex.I ^ (m % 4) := by
    conv_lhs => rw [← Nat.div_add_mod m 4, pow_add, pow_mul, Complex.I_pow_four, one_pow, one_mul]
  have hlt : m % 4 < 4 := Nat.mod_lt _ (by norm_num)
  rw [h4, cosSign, sinSign]
  generalize m % 4 = r at hlt
  interval_cases r <;> simp [pow_succ]

theorem exp_terms (x : ℚ) (n : ℕ) :
    (∑ m ∈ range n, (((x : ℝ) : ℂ) * Complex.I) ^ m / m.factorial).re = ((taylorSum cosSign x n : ℚ) : ℝ) ∧
    (∑ m ∈ range n, (((x : ℝ) : ℂ) * Complex.I) ^ m / m.factorial).im = ((taylorSum sinSign x n : ℚ) : ℝ) := by
  have term : ∀ m : ℕ, (((x : ℝ) : ℂ) * Complex.I) ^ m / (m.factorial : ℂ) =
      (((x ^ m / m.factorial : ℚ) : ℝ) : ℂ) * Complex.I ^ m := by
    intro m; push_cast; ring
  simp only [term, Complex.re_sum, Complex.im_sum, Complex.re_ofReal_mul, Complex.im_ofReal_mul, I_pow_re_im,
    taylorSum, Rat.cast_sum]
  constructor <;> refine sum_congr rfl fun m _ => ?_ <;> push_cast <;> ring

theorem taylor_close (x : ℚ) (n : ℕ) (hn : 2 * |x| ≤ n + 1) :
    |Real.cos x - (taylorSum cosSign x n : ℚ)| ≤ (taylorRest x n : ℚ) ∧
    |Real.sin x - (taylorSum sinSign x n : ℚ)| ≤ (taylorRest x n : ℚ) := by
  have hx : ‖((x : ℝ) : ℂ) * Complex.I‖ = ((|x| : ℚ) : ℝ) := by simp
  have hn' : ((|x| : ℚ) : ℝ) / (n.succ : ℕ) ≤ 1 / 2 := by
    rw [div_le_iff₀ (by positivity)]
    have : ((2 * |x| : ℚ) : ℝ) ≤ ((n + 1 : ℚ) : ℝ) := by exact_mod_cast hn
    push_cast at this ⊢; linarith
  have h := Complex.exp_bound' (x := ((x : ℝ) : ℂ) * Complex.I) (n := n) (by rw [hx]; exact hn')
  rw [hx] at h
  have hr : ((taylorRest x n : ℚ) : ℝ) = ((|x| : ℚ) : ℝ) ^ n / (n.factorial : ℝ) * 2 := by
    rw [taylorRest]; push_cast; ring
  rw [← hr] at h
  have e := exp_terms x n
  constructor
  · have h1 := (Complex.abs_re_le_norm _).trans h
    rwa [Complex.sub_re, e.1, Complex.exp_ofReal_mul_I_re] at h1
  · have h1 := (Complex.abs_im_le_norm _).trans h
    rwa [Complex.sub_im, e.2, Complex.exp_ofReal_mul_I_im] at h1

theorem exists_signShown (c : ℕ → ℚ) (x : ℚ) (t : ℝ) (ht : t ≠ 0)
    (close : ∀ n : ℕ, 2 * |x| ≤ n + 1 → |t - (taylorSum c x n : ℚ)| ≤ (taylorRest x n : ℚ)) :
    ∃ n, signShown c x n := by
  have lim : Filter.Tendsto (fun n : ℕ => ((taylorRest x n : ℚ) : ℝ)) Filter.atTop (nhds 0) := by
    have := (FloorSemiring.tendsto_pow_div_factorial_atTop ((|x| : ℚ) : ℝ)).mul_const 2
    simpa [taylorRest] using this
  have ev := (lim.eventually_lt_const (show (0 : ℝ) < |t| / 2 by positivity)).and
    (Filter.eventually_ge_atTop ⌈2 * |x|⌉₊)
  obtain ⟨n, hlt, hge⟩ := ev.exists
  have hn : 2 * |x| ≤ n + 1 := by
    have h1 : (2 * |x| : ℚ) ≤ ⌈2 * |x|⌉₊ := Nat.le_ceil _
    have h2 : ((⌈2 * |x|⌉₊ : ℕ) : ℚ) ≤ n := by exact_mod_cast hge
    linarith
  refine ⟨n, hn, ?_⟩
  have h := close n hn
  have h3 : |t| ≤ |t - ((taylorSum c x n : ℚ) : ℝ)| + |((taylorSum c x n : ℚ) : ℝ)| := by
    simpa using abs_add_le (t - ((taylorSum c x n : ℚ) : ℝ)) ((taylorSum c x n : ℚ) : ℝ)
  have h4 : ((taylorRest x n : ℚ) : ℝ) < ((|taylorSum c x n| : ℚ) : ℝ) := by push_cast; linarith
  exact_mod_cast h4

/-- The sign of the limit of a series, read off the first sum that shows it. -/
def limitNegative (c : ℕ → ℚ) (x : ℚ) (h : ∃ n, signShown c x n) : Bool := decide (taylorSum c x (Nat.find h) < 0)

theorem limitNegative_spec (c : ℕ → ℚ) (x : ℚ) (t : ℝ) (h : ∃ n, signShown c x n)
    (close : ∀ n : ℕ, 2 * |x| ≤ n + 1 → |t - (taylorSum c x n : ℚ)| ≤ (taylorRest x n : ℚ)) :
    (limitNegative c x h = true ↔ t < 0) := by
  obtain ⟨hn, hlt⟩ := Nat.find_spec h
  have hc := abs_le.mp (close _ hn)
  have h4 : ((taylorRest x (Nat.find h) : ℚ) : ℝ) < |((taylorSum c x (Nat.find h) : ℚ) : ℝ)| := by exact_mod_cast hlt
  rw [limitNegative, decide_eq_true_iff]
  constructor
  · intro hneg
    have : ((taylorSum c x (Nat.find h) : ℚ) : ℝ) < 0 := by exact_mod_cast hneg
    rw [abs_of_neg this] at h4; linarith [hc.2]
  · intro ht
    by_contra hpos
    have : (0 : ℝ) ≤ ((taylorSum c x (Nat.find h) : ℚ) : ℝ) := by exact_mod_cast not_lt.mp hpos
    rw [abs_of_nonneg this] at h4; linarith [hc.1]

theorem sin_rat_ne_zero (x : ℚ) (hx : x ≠ 0) : Real.sin x ≠ 0 := by
  intro h
  obtain ⟨n, hn⟩ := Real.sin_eq_zero_iff.mp h
  have hn0 : (n : ℝ) ≠ 0 := by
    rintro h0; rw [h0, zero_mul] at hn; exact hx (by exact_mod_cast hn.symm)
  exact irrational_pi ⟨x / n, by push_cast; field_simp; linarith⟩

theorem cos_rat_ne_zero (x : ℚ) : Real.cos x ≠ 0 := by
  intro h
  obtain ⟨k, hk⟩ := Real.cos_eq_zero_iff.mp h
  have hk0 : (2 * (k : ℝ) + 1) ≠ 0 := by
    have : (2 * k + 1 : ℤ) ≠ 0 := by omega
    exact_mod_cast this
  exact irrational_pi ⟨2 * x / (2 * k + 1), by push_cast; field_simp; linarith⟩

theorem exists_sinShown (x : ℚ) (hx : x ≠ 0) : ∃ n, signShown sinSign x n :=
  exists_signShown sinSign x (Real.sin x) (sin_rat_ne_zero x hx) fun n hn => (taylor_close x n hn).2

theorem exists_cosShown (x : ℚ) : ∃ n, signShown cosSign x n :=
  exists_signShown cosSign x (Real.cos x) (cos_rat_ne_zero x) fun n hn => (taylor_close x n hn).1

/-- The sine of a rational is negative. -/
def sinNegative (x : ℚ) : Bool := if hx : x ≠ 0 then limitNegative sinSign x (exists_sinShown x hx) else false

/-- The cosine of a rational is negative. -/
def cosNegative (x : ℚ) : Bool := limitNegative cosSign x (exists_cosShown x)

theorem sinNegative_spec (x : ℚ) : sinNegative x = true ↔ Real.sin x < 0 := by
  by_cases hx : x ≠ 0
  · rw [sinNegative, dif_pos hx]
    exact limitNegative_spec _ _ _ _ fun n hn => (taylor_close x n hn).2
  · rw [sinNegative, dif_neg hx]; simp [not_not.mp hx]

theorem cosNegative_spec (x : ℚ) : cosNegative x = true ↔ Real.cos x < 0 :=
  limitNegative_spec _ _ _ _ fun n hn => (taylor_close x n hn).1

/-! The values of finite patterns. -/

theorem two_pow_cast (K : Type) [Field K] (n : ℕ) : ((2 ^ n : ℕ) : K) = 2 ^ n := by push_cast; rfl

theorem unitsPerOne_cast (K : Type) [Field K] : ((unitsPerOne : ℕ) : K) = 2 ^ (1074 : ℕ) := by
  generalize hn : (1074 : ℕ) = n
  have h : unitsPerOne = 2 ^ n := by subst hn; delta unitsPerOne; rfl
  rw [h, two_pow_cast]

theorem unitsPerOne_pos (K : Type) [Field K] [LinearOrder K] [IsStrictOrderedRing K] : (0 : K) < unitsPerOne := by
  rw [unitsPerOne_cast]; exact pow_pos two_pos _

theorem val_eq_units (K : Type) [Field K] [LinearOrder K] [IsStrictOrderedRing K] [FloorRing K] (b : F64) :
    val K b = (valUnits b : K) / unitsPerOne := by
  have key : (if expOf b = 0 then (fracOf b : K) * 2 ^ (-1074 : ℤ)
      else ((2 : K) ^ 52 + fracOf b) * 2 ^ ((expOf b : ℤ) - 1075)) = (magUnits b : K) / unitsPerOne := by
    rw [magUnits, unitsPerOne_cast]
    split
    · rw [show (-1074 : ℤ) = -((1074 : ℕ) : ℤ) from rfl, zpow_neg, zpow_natCast, div_eq_mul_inv]
    · rename_i h
      obtain ⟨e, he⟩ : ∃ e, expOf b = e + 1 := ⟨expOf b - 1, by omega⟩
      have : ((expOf b : ℤ) - 1075) = (e : ℤ) - ((1074 : ℕ) : ℤ) := by omega
      rw [this, zpow_sub₀ two_ne_zero, he, zpow_natCast, zpow_natCast, Nat.add_sub_cancel, Nat.cast_mul,
        Nat.cast_add, Nat.cast_pow, Nat.cast_pow, Nat.cast_ofNat, mul_div_assoc]
  rw [val, key, valUnits]
  split <;> simp [neg_div]

theorem val_rat_cast (b : F64) : val ℝ b = ((val ℚ b : ℚ) : ℝ) := by
  rw [val_eq_units, val_eq_units, Rat.cast_div, Rat.cast_intCast, Rat.cast_natCast]

theorem magUnits_pos (b : F64) (h : isFiniteNonzero b = true) : 0 < magUnits b := by
  rw [isFiniteNonzero, cat] at h
  rw [magUnits]
  split_ifs at h ⊢ <;> first | omega | positivity | simp_all

theorem val_sign (b : F64) (h : isFiniteNonzero b = true) :
    (signOf b = true → val ℝ b < 0) ∧ (signOf b = false → 0 < val ℝ b) := by
  have hp : (0 : ℝ) < (magUnits b : ℝ) / unitsPerOne :=
    div_pos (Nat.cast_pos.mpr (magUnits_pos b h)) (unitsPerOne_pos ℝ)
  rw [val_eq_units, valUnits]
  constructor <;> intro hs <;> rw [hs] <;> simpa [neg_div] using hp

/-! The witness. -/

theorem key_bound (b : F64) : |key b| ≤ 2 ^ 63 := by
  have h : (b.extractLsb' 0 63).toNat < 2 ^ 63 := (b.extractLsb' 0 63).isLt
  rw [key]; split <;> rw [abs_le] <;> constructor <;> omega

theorem cat_signedOne (s : Bool) : cat (withSign s oneF) = .normal := by cases s <;> decide

theorem sign_signedOne (s : Bool) : signOf (withSign s oneF) = s := by cases s <;> decide

/-- With a bound as wide as the range of ordinals, a pattern of the right sign meets the contract. -/
theorem accurate_signedOne (s : Bool) (t : ℝ) (hp : 0 < t → s = false) (hn : t < 0 → s = true) :
    Accurate (2 ^ 64) t (withSign s oneF) := by
  refine ⟨by rw [cat_signedOne]; decide, ?_, by rwa [sign_signedOne], by rwa [sign_signedOne]⟩
  have h1 := abs_le.mp (key_bound (withSign s oneF))
  have h2 := abs_le.mp (key_bound (rneSigned t))
  rw [abs_le]; constructor <;> push_cast <;> omega

/-- The engine of the witness. -/
def signEngine : Engine where
  transUlp := 2 ^ 64
  powUlp   := 2 ^ 64
  sin a    := withSign (sinNegative (val ℚ a)) oneF
  cos a    := withSign (cosNegative (val ℚ a)) oneF
  tan a    := withSign (sinNegative (val ℚ a) ^^ cosNegative (val ℚ a)) oneF
  asin a   := withSign (signOf a) oneF
  acos _   := withSign false oneF
  atan a   := withSign (signOf a) oneF
  atan2 y _ := withSign (signOf y) oneF
  exp _    := withSign false oneF
  log a    := withSign (decide (magUnits a < unitsPerOne)) oneF
  pow a b  := withSign (signOf a && isOdd b) oneF
  sinh a   := withSign (signOf a) oneF
  cosh _   := withSign false oneF
  tanh a   := withSign (signOf a) oneF

/-- A function with the sign of its argument keeps the sign bit. -/
theorem accurate_odd (f : ℝ → ℝ) (hp : ∀ x, 0 < x → 0 < f x) (hn : ∀ x, x < 0 → f x < 0) (a : F64)
    (h : isFiniteNonzero a = true) : Accurate (2 ^ 64) (f (val ℝ a)) (withSign (signOf a) oneF) := by
  obtain ⟨vn, vp⟩ := val_sign a h
  refine accurate_signedOne _ _ (fun ht => ?_) (fun ht => ?_) <;> cases hs : signOf a <;> try rfl
  · exact absurd (hn _ (vn hs)) (not_lt.mpr ht.le)
  · exact absurd (hp _ (vp hs)) (not_lt.mpr ht.le)

theorem accurate_nonneg (t : ℝ) (h : 0 ≤ t) : Accurate (2 ^ 64) t (withSign false oneF) :=
  accurate_signedOne _ _ (fun _ => rfl) (fun ht => absurd ht (not_lt.mpr h))

theorem signEngine_conforms : signEngine.Conforms where
  sin a _ := by
    have h := sinNegative_spec (val ℚ a)
    rw [← val_rat_cast] at h
    refine accurate_signedOne _ _ (fun ht => ?_) h.mpr
    rw [← Bool.not_eq_true, h]; exact not_lt.mpr ht.le
  cos a _ := by
    have h := cosNegative_spec (val ℚ a)
    rw [← val_rat_cast] at h
    refine accurate_signedOne _ _ (fun ht => ?_) h.mpr
    rw [← Bool.not_eq_true, h]; exact not_lt.mpr ht.le
  tan a ha := by
    have h1 := sinNegative_spec (val ℚ a)
    have h2 := cosNegative_spec (val ℚ a)
    rw [← val_rat_cast] at h1 h2
    rw [Real.tan_eq_sin_div_cos]
    refine accurate_signedOne _ _ (fun ht => ?_) (fun ht => ?_)
    · rcases div_pos_iff.mp ht with ⟨a1, a2⟩ | ⟨a1, a2⟩
      · rw [Bool.eq_false_iff.mpr (fun e => absurd (h1.mp e) (not_lt.mpr a1.le)),
          Bool.eq_false_iff.mpr (fun e => absurd (h2.mp e) (not_lt.mpr a2.le))]; rfl
      · rw [h1.mpr a1, h2.mpr a2]; rfl
    · rcases div_neg_iff.mp ht with ⟨a1, a2⟩ | ⟨a1, a2⟩
      · rw [Bool.eq_false_iff.mpr (fun e => absurd (h1.mp e) (not_lt.mpr a1.le)), h2.mpr a2]; rfl
      · rw [h1.mpr a1, Bool.eq_false_iff.mpr (fun e => absurd (h2.mp e) (not_lt.mpr a2.le))]; rfl
  asin a ha _ := accurate_odd Real.arcsin (fun _ => Real.arcsin_pos.mpr) (fun _ => Real.arcsin_lt_zero.mpr) a ha
  acos a _ _ _ := accurate_nonneg _ (Real.arccos_nonneg _)
  atan a ha := accurate_odd Real.arctan (fun _ => Real.arctan_pos.mpr) (fun _ => Real.arctan_lt_zero.mpr) a ha
  atan2 y x hy _ := by
    obtain ⟨vn, vp⟩ := val_sign y hy
    refine accurate_signedOne _ _ (fun ht => ?_) (fun ht => ?_) <;> cases hs : signOf y <;> try rfl
    · exact absurd (Complex.arg_neg_iff.mpr (vn hs)) (not_lt.mpr ht.le)
    · exact absurd (Complex.arg_neg_iff.mp ht) (not_lt.mpr (vp hs).le)
  exp a _ := accurate_nonneg _ (Real.exp_pos _).le
  log a ha hs _ := by
    have hv : val ℝ a = (magUnits a : ℝ) / unitsPerOne := by rw [val_eq_units, valUnits, hs]; simp
    have hp : (0 : ℝ) < magUnits a := Nat.cast_pos.mpr (magUnits_pos a ha)
    have hu := unitsPerOne_pos ℝ
    refine accurate_signedOne _ _ (fun ht => ?_) (fun ht => ?_)
    · rw [decide_eq_false_iff_not]
      intro hlt
      have hlt : (magUnits a : ℝ) < unitsPerOne := Nat.cast_lt.mpr hlt
      refine absurd (Real.log_nonpos (by rw [hv]; positivity) ?_) (not_le.mpr ht)
      rw [hv, div_le_one hu]; exact hlt.le
    · rw [decide_eq_true_iff]
      by_contra hge
      have hge : (unitsPerOne : ℝ) ≤ magUnits a := Nat.cast_le.mpr (not_lt.mp hge)
      refine absurd (Real.log_nonneg ?_) (not_le.mpr ht)
      rw [hv, one_le_div hu]; exact hge
  pow a b t h ht := by
    have ha : isFiniteNonzero a = true := by
      rw [powLastCase] at h; simp only [Bool.and_eq_true] at h; exact h.1.1.1
    have hv : val ℝ a ≠ 0 := by
      obtain ⟨vn, vp⟩ := val_sign a ha
      cases hs : signOf a
      · exact (vp hs).ne'
      · exact (vn hs).ne
    have hp : 0 < |val ℝ a| ^ (val ℝ b) := Real.rpow_pos_of_pos (abs_pos.mpr hv) _
    rw [powReal] at ht
    refine accurate_signedOne _ _ (fun h0 => ?_) (fun h0 => ?_) <;> cases hc : (signOf a && isOdd b) <;> try rfl
    · rw [hc] at ht; simp only [if_true] at ht; linarith
    · rw [hc] at ht; simp only [Bool.false_eq_true, if_false] at ht; linarith
  sinh a ha := accurate_odd Real.sinh (fun _ => Real.sinh_pos_iff.mpr) (fun _ => Real.sinh_neg_iff.mpr) a ha
  cosh a _ := accurate_nonneg _ (Real.cosh_pos _).le
  tanh a ha := by
    refine accurate_odd Real.tanh (fun x hx => ?_) (fun x hx => ?_) a ha <;> rw [Real.tanh_eq_sinh_div_cosh]
    · exact div_pos (Real.sinh_pos_iff.mpr hx) (Real.cosh_pos _)
    · exact div_neg_of_neg_of_pos (Real.sinh_neg_iff.mpr hx) (Real.cosh_pos _)

end Sys2Proof.Machine
end

