-- ==== Sys2Proof/Config.lean ====
section
/-! DEFINITION. What an implementation fixes and the rules leave open: the transcendental engine with its two accuracy
bounds (rules R6, R184), the latency (rule R350) and what the latches hold where their contents are unspecified (rules
R30, R34). Every one is opaque: nothing can be proved of its value but what its type says. The parameters rule R6 gives
a value are written where they are used; `BUS_BYTE_ORDER` is read by no rule (rule R44). -/

namespace Sys2Proof

open Machine

/-- An engine that meets the accuracy contract, of which nothing else is known (rule R184, U3). The argument is only
the evidence that one exists, which Lean asks for before it admits an opaque constant. -/
opaque Config.anyEngine [Inhabited { g : Engine // g.Conforms }] : { g : Engine // g.Conforms }

/-- The implementation's transcendental engine: 13 uninterpreted functions of the operand patterns that meet the
accuracy contract, and nothing else (rule R184). -/
def Config.engine : { g : Engine // g.Conforms } := @Config.anyEngine ⟨⟨signEngine, signEngine_conforms⟩⟩

/-- `LATENCY` of a request is one more than this number: "finite for every legal request, otherwise unspecified, and
allowed to depend on the operation and on the operand values" (rule R350). -/
opaque Config.extraCycles : Req → Nat

/-- The 64-bit part `part` of the `k`-th unspecified latch contents (rules R30, R34, U8). -/
opaque Config.unspecifiedBits : (k part : Nat) → BitVec 64

/-- The byte string `part` of the `k`-th unspecified latch contents (rules R30, R34, U8). -/
opaque Config.unspecifiedBytes : (k part : Nat) → List Byte

end Sys2Proof
end

