-- ==== Sys2Proof/Machine/Transcendental.lean ====
section
/-! DEFINITION. The transcendental engine: SIN, COS, TAN, ASIN, ACOS, ATAN, ATAN2, EXP, LOG, POW, SINH, COSH, TANH
(44_transcendental.md). The exact cases of each rule are written out in the rule's order; the last case is the
engine's, of which only the accuracy contract of rule R184 is known. -/

namespace Sys2Proof.Machine

/-- `PI` (rule R181). -/
def piF : F64 := 0x400921FB54442D18#64
/-- `PIO2`, pi/2 (rule R181). -/
def piO2F : F64 := 0x3FF921FB54442D18#64
/-- `PIO4`, pi/4 (rule R181). -/
def piO4F : F64 := 0x3FE921FB54442D18#64
/-- `PI3O4`, 3*pi/4 (rule R181). -/
def pi3O4F : F64 := 0x4002D97C7F3321D2#64

/-- The engine's functions for the last cases (rules R182, R184). -/
def engine : Engine := Config.engine.val

/-- SIN of a pattern (rule R190). -/
def sinF (a : F64) : F64 :=
  if cat a = .nan then canonNaN
  else if cat a = .zero then a
  else if cat a = .infinite then canonNaN
  else engine.sin a

/-- COS of a pattern (rule R191). -/
def cosF (a : F64) : F64 :=
  if cat a = .nan then canonNaN
  else if cat a = .zero then oneF
  else if cat a = .infinite then canonNaN
  else engine.cos a

/-- TAN of a pattern (rule R192). -/
def tanF (a : F64) : F64 :=
  if cat a = .nan then canonNaN
  else if cat a = .zero then a
  else if cat a = .infinite then canonNaN
  else engine.tan a

/-- ASIN of a pattern (rule R194). -/
def asinF (a : F64) : F64 :=
  if cat a = .nan then canonNaN
  else if cat a = .zero then a
  else if cat a = .infinite ∨ magAtMostOne a = false then canonNaN
  else engine.asin a

/-- ACOS of a pattern (rule R195). -/
def acosF (a : F64) : F64 :=
  if cat a = .nan then canonNaN
  else if cat a = .infinite ∨ magAtMostOne a = false then canonNaN
  else if a = oneF then zeroF false
  else engine.acos a

/-- ATAN of a pattern (rule R196). -/
def atanF (a : F64) : F64 :=
  if cat a = .nan then canonNaN
  else if cat a = .zero then a
  else if cat a = .infinite then withSign (signOf a) piO2F
  else engine.atan a

/-- ATAN2 of `a`, the ordinate y, and `b`, the abscissa x (rule R197). -/
def atan2F (a b : F64) : F64 :=
  let s := signOf a
  if cat a = .nan ∨ cat b = .nan then canonNaN
  else if cat a = .zero then (if signOf b then withSign s piF else zeroF s)
  else if cat b = .zero then withSign s piO2F
  else if cat a = .infinite then
    (if cat b = .infinite then (if signOf b then withSign s pi3O4F else withSign s piO4F) else withSign s piO2F)
  else if cat b = .infinite then (if signOf b then withSign s piF else zeroF s)
  else engine.atan2 a b

/-- EXP of a pattern (rule R199). -/
def expF (a : F64) : F64 :=
  if cat a = .nan then canonNaN
  else if cat a = .zero then oneF
  else if cat a = .infinite then (if signOf a then zeroF false else infF false)
  else engine.exp a

/-- LOG of a pattern (rule R200). -/
def logF (a : F64) : F64 :=
  if cat a = .nan then canonNaN
  else if cat a = .zero then infF true
  else if signOf a then canonNaN
  else if cat a = .infinite then infF false
  else if a = oneF then zeroF false
  else engine.log a

/-- POW of `a`, the base x, and `b`, the exponent y (rule R202). -/
def powF (a b : F64) : F64 :=
  if cat b = .zero then oneF
  else if cat a = .nan ∨ cat b = .nan then canonNaN
  else if a = oneF then oneF
  else if a = withSign true oneF ∧ cat b = .infinite then oneF
  else if cat a = .zero then
    (if signOf b then (if isOdd b then infF (signOf a) else infF false)
     else (if isOdd b then zeroF (signOf a) else zeroF false))
  else if cat b = .infinite then
    let big : Bool := cat a == .infinite || !magAtMostOne a
    (if big = !signOf b then infF false else zeroF false)
  else if cat a = .infinite then
    (if signOf a then
      (if signOf b then (if isOdd b then zeroF true else zeroF false)
       else (if isOdd b then infF true else infF false))
     else (if signOf b then zeroF false else infF false))
  else if signOf a && !isInt b then canonNaN
  else engine.pow a b

/-- SINH of a pattern (rule R205). -/
def sinhF (a : F64) : F64 :=
  if cat a = .nan then canonNaN
  else if cat a = .zero then a
  else if cat a = .infinite then a
  else engine.sinh a

/-- COSH of a pattern (rule R206). -/
def coshF (a : F64) : F64 :=
  if cat a = .nan then canonNaN
  else if cat a = .zero then oneF
  else if cat a = .infinite then infF false
  else engine.cosh a

/-- TANH of a pattern (rule R207). -/
def tanhF (a : F64) : F64 :=
  if cat a = .nan then canonNaN
  else if cat a = .zero then a
  else if cat a = .infinite then withSign (signOf a) oneF
  else engine.tanh a

/-- SIN (rule R190). -/
def execSin (s : State) : Host.Outcome State Fault Refusal := .next (s.respond (Resp.ofR (sinF s.req.a)))

/-- COS (rule R191). -/
def execCos (s : State) : Host.Outcome State Fault Refusal := .next (s.respond (Resp.ofR (cosF s.req.a)))

/-- TAN (rule R192). -/
def execTan (s : State) : Host.Outcome State Fault Refusal := .next (s.respond (Resp.ofR (tanF s.req.a)))

/-- ASIN (rule R194). -/
def execAsin (s : State) : Host.Outcome State Fault Refusal := .next (s.respond (Resp.ofR (asinF s.req.a)))

/-- ACOS (rule R195). -/
def execAcos (s : State) : Host.Outcome State Fault Refusal := .next (s.respond (Resp.ofR (acosF s.req.a)))

/-- ATAN (rule R196). -/
def execAtan (s : State) : Host.Outcome State Fault Refusal := .next (s.respond (Resp.ofR (atanF s.req.a)))

/-- ATAN2 (rule R197). -/
def execAtan2 (s : State) : Host.Outcome State Fault Refusal := .next (s.respond (Resp.ofR (atan2F s.req.a s.req.b)))

/-- EXP (rule R199). -/
def execExp (s : State) : Host.Outcome State Fault Refusal := .next (s.respond (Resp.ofR (expF s.req.a)))

/-- LOG (rule R200). -/
def execLog (s : State) : Host.Outcome State Fault Refusal := .next (s.respond (Resp.ofR (logF s.req.a)))

/-- POW (rule R202). -/
def execPow (s : State) : Host.Outcome State Fault Refusal := .next (s.respond (Resp.ofR (powF s.req.a s.req.b)))

/-- SINH (rule R205). -/
def execSinh (s : State) : Host.Outcome State Fault Refusal := .next (s.respond (Resp.ofR (sinhF s.req.a)))

/-- COSH (rule R206). -/
def execCosh (s : State) : Host.Outcome State Fault Refusal := .next (s.respond (Resp.ofR (coshF s.req.a)))

/-- TANH (rule R207). -/
def execTanh (s : State) : Host.Outcome State Fault Refusal := .next (s.respond (Resp.ofR (tanhF s.req.a)))

end Sys2Proof.Machine
end

