-- ==== Sys2Proof/Syntax.lean ====
section
/-! DEFINITION. The operations of the block, one constructor per row of the opcode map of rule R63. The
operands `a`, `b`, `c`, `len` and `txt` are fields of the request (rule R26), not of the command word, so the only
operation with arguments of its own is TODEC, whose two parameters `p0` and `p1` stand in the command word (rule
R60). Every other operation ignores `p0` and `p1` (rule R70), so they are no part of its syntax (rule R73). -/

namespace Sys2Proof

/-- An operation of the block (rule R63), with the parameters its command word carries (rule R60). -/
inductive Instr where
  /-- DECODE, op 0x00, format UC (rule R95). -/
  | decode
  /-- CLASSIFY, op 0x01, format UC (rule R96). -/
  | classify
  /-- NEG, op 0x02, format U (rule R150). -/
  | neg
  /-- ABS, op 0x03, format U (rule R151). -/
  | abs
  /-- CMP, op 0x04, format BC (rule R171). -/
  | cmp
  /-- ADD, op 0x10, format B (rule R132). -/
  | add
  /-- SUB, op 0x11, format B (rule R134). -/
  | sub
  /-- MUL, op 0x12, format B (rule R136). -/
  | mul
  /-- DIV, op 0x13, format B (rule R139). -/
  | div
  /-- SQRT, op 0x14, format U (rule R142). -/
  | sqrt
  /-- FMA, op 0x15, format T (rule R145). -/
  | fma
  /-- I2F.S8, op 0x20, format U (rule R232). -/
  | i2fS8
  /-- I2F.U8, op 0x21, format U (rule R233). -/
  | i2fU8
  /-- I2F.S16, op 0x22, format U (rule R234). -/
  | i2fS16
  /-- I2F.U16, op 0x23, format U (rule R235). -/
  | i2fU16
  /-- I2F.S32, op 0x24, format U (rule R236). -/
  | i2fS32
  /-- I2F.U32, op 0x25, format U (rule R237). -/
  | i2fU32
  /-- I2F.S64, op 0x26, format U (rule R238). -/
  | i2fS64
  /-- I2F.U64, op 0x27, format U (rule R239). -/
  | i2fU64
  /-- F2I.S8, op 0x28, format U (rule R242). -/
  | f2iS8
  /-- F2I.U8, op 0x29, format U (rule R243). -/
  | f2iU8
  /-- F2I.S16, op 0x2A, format U (rule R244). -/
  | f2iS16
  /-- F2I.U16, op 0x2B, format U (rule R245). -/
  | f2iU16
  /-- F2I.S32, op 0x2C, format U (rule R246). -/
  | f2iS32
  /-- F2I.U32, op 0x2D, format U (rule R247). -/
  | f2iU32
  /-- F2I.S64, op 0x2E, format U (rule R248). -/
  | f2iS64
  /-- F2I.U64, op 0x2F, format U (rule R249). -/
  | f2iU64
  /-- F32TOF64, op 0x30, format U (rule R262). -/
  | f32ToF64
  /-- F64TOF32, op 0x31, format U (rule R263). -/
  | f64ToF32
  /-- SIN, op 0x40, format U (rule R190). -/
  | sin
  /-- COS, op 0x41, format U (rule R191). -/
  | cos
  /-- TAN, op 0x42, format U (rule R192). -/
  | tan
  /-- ASIN, op 0x43, format U (rule R194). -/
  | asin
  /-- ACOS, op 0x44, format U (rule R195). -/
  | acos
  /-- ATAN, op 0x45, format U (rule R196). -/
  | atan
  /-- ATAN2, op 0x46, format B (rule R197). -/
  | atan2
  /-- EXP, op 0x47, format U (rule R199). -/
  | exp
  /-- LOG, op 0x48, format U (rule R200). -/
  | log
  /-- POW, op 0x49, format B (rule R202). -/
  | pow
  /-- SINH, op 0x4A, format U (rule R205). -/
  | sinh
  /-- COSH, op 0x4B, format U (rule R206). -/
  | cosh
  /-- TANH, op 0x4C, format U (rule R207). -/
  | tanh
  /-- TODEC, op 0x50, format D (rule R271): `p0` is `maxDigits`, `p1` is `maxLeadingZeros`; reads `a`. -/
  | todec (p0 p1 : BitVec 8)
  /-- PARSE, op 0x51, format P (rule R292). -/
  | parse
deriving DecidableEq, Repr

end Sys2Proof
end

