-- ==== Sys2Proof/Machine/Dispatch.lean ====
section
/-! DEFINITION. The function `exec` of rule R29: each operation's response to the request in `REQ`, one arm per
operation. -/

namespace Sys2Proof.Machine

def exec (i : Instr) (s : State) : Host.Outcome State Fault Refusal :=
  match i with
  | .decode => Sys2Proof.Machine.execDecode s
  | .classify => Sys2Proof.Machine.execClassify s
  | .neg => Sys2Proof.Machine.execNeg s
  | .abs => Sys2Proof.Machine.execAbs s
  | .cmp => Sys2Proof.Machine.execCmp s
  | .add => Sys2Proof.Machine.execAdd s
  | .sub => Sys2Proof.Machine.execSub s
  | .mul => Sys2Proof.Machine.execMul s
  | .div => Sys2Proof.Machine.execDiv s
  | .sqrt => Sys2Proof.Machine.execSqrt s
  | .fma => Sys2Proof.Machine.execFma s
  | .i2fS8 => Sys2Proof.Machine.execI2fS8 s
  | .i2fU8 => Sys2Proof.Machine.execI2fU8 s
  | .i2fS16 => Sys2Proof.Machine.execI2fS16 s
  | .i2fU16 => Sys2Proof.Machine.execI2fU16 s
  | .i2fS32 => Sys2Proof.Machine.execI2fS32 s
  | .i2fU32 => Sys2Proof.Machine.execI2fU32 s
  | .i2fS64 => Sys2Proof.Machine.execI2fS64 s
  | .i2fU64 => Sys2Proof.Machine.execI2fU64 s
  | .f2iS8 => Sys2Proof.Machine.execF2iS8 s
  | .f2iU8 => Sys2Proof.Machine.execF2iU8 s
  | .f2iS16 => Sys2Proof.Machine.execF2iS16 s
  | .f2iU16 => Sys2Proof.Machine.execF2iU16 s
  | .f2iS32 => Sys2Proof.Machine.execF2iS32 s
  | .f2iU32 => Sys2Proof.Machine.execF2iU32 s
  | .f2iS64 => Sys2Proof.Machine.execF2iS64 s
  | .f2iU64 => Sys2Proof.Machine.execF2iU64 s
  | .f32ToF64 => Sys2Proof.Machine.execF32ToF64 s
  | .f64ToF32 => Sys2Proof.Machine.execF64ToF32 s
  | .sin => Sys2Proof.Machine.execSin s
  | .cos => Sys2Proof.Machine.execCos s
  | .tan => Sys2Proof.Machine.execTan s
  | .asin => Sys2Proof.Machine.execAsin s
  | .acos => Sys2Proof.Machine.execAcos s
  | .atan => Sys2Proof.Machine.execAtan s
  | .atan2 => Sys2Proof.Machine.execAtan2 s
  | .exp => Sys2Proof.Machine.execExp s
  | .log => Sys2Proof.Machine.execLog s
  | .pow => Sys2Proof.Machine.execPow s
  | .sinh => Sys2Proof.Machine.execSinh s
  | .cosh => Sys2Proof.Machine.execCosh s
  | .tanh => Sys2Proof.Machine.execTanh s
  | .todec p0 p1 => Sys2Proof.Machine.execTodec p0 p1 s
  | .parse => Sys2Proof.Machine.execParse s

end Sys2Proof.Machine
end

