-- ==== Sys2Proof/Decode.lean ====
section
/-! DEFINITION. The decoder of a command word and, after it, the encoder (rules R60, R63, R70). The command word is
one 32-bit field of a request, not a sequence of bytes in a memory (rule R60), so there is one instruction length and
no byte order. Decoding is total: a word is an operation or is rejected by name. -/

namespace Sys2Proof

/-- Why a command word is no operation (rule R70). -/
inductive DecodeError where
  /-- `cmd[31:24]` is not zero. -/
  | reservedField (rsv : BitVec 8)
  /-- `cmd[7:0]` is none of the 44 op codes. -/
  | reservedOp (op : BitVec 8)
deriving DecidableEq, Repr

/-- `cmd[7:0]`, the operation code (rule R60). -/
def cmdOp (w : Command) : BitVec 8 := w.extractLsb' 0 8

/-- `cmd[15:8]`, the parameter `p0` (rule R60). -/
def cmdP0 (w : Command) : BitVec 8 := w.extractLsb' 8 8

/-- `cmd[23:16]`, the parameter `p1` (rule R60). -/
def cmdP1 (w : Command) : BitVec 8 := w.extractLsb' 16 8

/-- `cmd[31:24]`, the reserved field (rule R60). -/
def cmdRsv (w : Command) : BitVec 8 := w.extractLsb' 24 8

/-- The operation an op code selects (the table of rule R63); only TODEC keeps the two parameters. -/
def decodeOp (op p0 p1 : BitVec 8) : Option Instr :=
  match op with
  | 0x00#8 => some .decode
  | 0x01#8 => some .classify
  | 0x02#8 => some .neg
  | 0x03#8 => some .abs
  | 0x04#8 => some .cmp
  | 0x10#8 => some .add
  | 0x11#8 => some .sub
  | 0x12#8 => some .mul
  | 0x13#8 => some .div
  | 0x14#8 => some .sqrt
  | 0x15#8 => some .fma
  | 0x20#8 => some .i2fS8
  | 0x21#8 => some .i2fU8
  | 0x22#8 => some .i2fS16
  | 0x23#8 => some .i2fU16
  | 0x24#8 => some .i2fS32
  | 0x25#8 => some .i2fU32
  | 0x26#8 => some .i2fS64
  | 0x27#8 => some .i2fU64
  | 0x28#8 => some .f2iS8
  | 0x29#8 => some .f2iU8
  | 0x2A#8 => some .f2iS16
  | 0x2B#8 => some .f2iU16
  | 0x2C#8 => some .f2iS32
  | 0x2D#8 => some .f2iU32
  | 0x2E#8 => some .f2iS64
  | 0x2F#8 => some .f2iU64
  | 0x30#8 => some .f32ToF64
  | 0x31#8 => some .f64ToF32
  | 0x40#8 => some .sin
  | 0x41#8 => some .cos
  | 0x42#8 => some .tan
  | 0x43#8 => some .asin
  | 0x44#8 => some .acos
  | 0x45#8 => some .atan
  | 0x46#8 => some .atan2
  | 0x47#8 => some .exp
  | 0x48#8 => some .log
  | 0x49#8 => some .pow
  | 0x4A#8 => some .sinh
  | 0x4B#8 => some .cosh
  | 0x4C#8 => some .tanh
  | 0x50#8 => some (.todec p0 p1)
  | 0x51#8 => some .parse
  | _ => none

/-- The decoder (rules R63, R70): the reserved field is checked first, then `cmd[7:0]` selects the operation. -/
def decode (w : Command) : Except DecodeError Instr :=
  if cmdRsv w = 0#8 then
    match decodeOp (cmdOp w) (cmdP0 w) (cmdP1 w) with
    | some i => .ok i
    | none => .error (.reservedOp (cmdOp w))
  else .error (.reservedField (cmdRsv w))

/-- The op code of an operation (the `op` column of rule R63). -/
def opcode : Instr → BitVec 8
  | .decode => 0x00#8
  | .classify => 0x01#8
  | .neg => 0x02#8
  | .abs => 0x03#8
  | .cmp => 0x04#8
  | .add => 0x10#8
  | .sub => 0x11#8
  | .mul => 0x12#8
  | .div => 0x13#8
  | .sqrt => 0x14#8
  | .fma => 0x15#8
  | .i2fS8 => 0x20#8
  | .i2fU8 => 0x21#8
  | .i2fS16 => 0x22#8
  | .i2fU16 => 0x23#8
  | .i2fS32 => 0x24#8
  | .i2fU32 => 0x25#8
  | .i2fS64 => 0x26#8
  | .i2fU64 => 0x27#8
  | .f2iS8 => 0x28#8
  | .f2iU8 => 0x29#8
  | .f2iS16 => 0x2A#8
  | .f2iU16 => 0x2B#8
  | .f2iS32 => 0x2C#8
  | .f2iU32 => 0x2D#8
  | .f2iS64 => 0x2E#8
  | .f2iU64 => 0x2F#8
  | .f32ToF64 => 0x30#8
  | .f64ToF32 => 0x31#8
  | .sin => 0x40#8
  | .cos => 0x41#8
  | .tan => 0x42#8
  | .asin => 0x43#8
  | .acos => 0x44#8
  | .atan => 0x45#8
  | .atan2 => 0x46#8
  | .exp => 0x47#8
  | .log => 0x48#8
  | .pow => 0x49#8
  | .sinh => 0x4A#8
  | .cosh => 0x4B#8
  | .tanh => 0x4C#8
  | .todec _ _ => 0x50#8
  | .parse => 0x51#8

/-- The parameter fields `(p0, p1)` the encoder writes: those of TODEC, and zero for every operation that ignores
them (rules R60, R70). -/
def cmdParams : Instr → BitVec 8 × BitVec 8
  | .decode => (0#8, 0#8)
  | .classify => (0#8, 0#8)
  | .neg => (0#8, 0#8)
  | .abs => (0#8, 0#8)
  | .cmp => (0#8, 0#8)
  | .add => (0#8, 0#8)
  | .sub => (0#8, 0#8)
  | .mul => (0#8, 0#8)
  | .div => (0#8, 0#8)
  | .sqrt => (0#8, 0#8)
  | .fma => (0#8, 0#8)
  | .i2fS8 => (0#8, 0#8)
  | .i2fU8 => (0#8, 0#8)
  | .i2fS16 => (0#8, 0#8)
  | .i2fU16 => (0#8, 0#8)
  | .i2fS32 => (0#8, 0#8)
  | .i2fU32 => (0#8, 0#8)
  | .i2fS64 => (0#8, 0#8)
  | .i2fU64 => (0#8, 0#8)
  | .f2iS8 => (0#8, 0#8)
  | .f2iU8 => (0#8, 0#8)
  | .f2iS16 => (0#8, 0#8)
  | .f2iU16 => (0#8, 0#8)
  | .f2iS32 => (0#8, 0#8)
  | .f2iU32 => (0#8, 0#8)
  | .f2iS64 => (0#8, 0#8)
  | .f2iU64 => (0#8, 0#8)
  | .f32ToF64 => (0#8, 0#8)
  | .f64ToF32 => (0#8, 0#8)
  | .sin => (0#8, 0#8)
  | .cos => (0#8, 0#8)
  | .tan => (0#8, 0#8)
  | .asin => (0#8, 0#8)
  | .acos => (0#8, 0#8)
  | .atan => (0#8, 0#8)
  | .atan2 => (0#8, 0#8)
  | .exp => (0#8, 0#8)
  | .log => (0#8, 0#8)
  | .pow => (0#8, 0#8)
  | .sinh => (0#8, 0#8)
  | .cosh => (0#8, 0#8)
  | .tanh => (0#8, 0#8)
  | .todec p0 p1 => (p0, p1)
  | .parse => (0#8, 0#8)

/-- The command word of an operation (rule R60): `rsv` zero, then `p1`, `p0` and `op` downwards. -/
def encode (i : Instr) : Command :=
  0#8 ++ (cmdParams i).2 ++ (cmdParams i).1 ++ opcode i

/-- The operation the decoder reads from an instruction of `nbits` bits `w`, bit 0 the least significant. A command
word has one length, 32 bits (rule R60); every bit above `nbits` is zero, and a number of more than 32 bits is no
command word. -/
def decodeTableWord (nbits w : Nat) : Option Instr :=
  if w % 2 ^ nbits < 2 ^ 32 then
    match decode (BitVec.ofNat 32 (w % 2 ^ nbits)) with
    | .ok i => some i
    | .error _ => none
  else none

end Sys2Proof
end

