-- ==== Sys2Proof/Machine/Ports.lean ====
section
/-! DEFINITION. The ports of the block and the effects of a clock edge other than an operation's own: the outputs (rule
R31), step "accept" (rule R28), step "take" (rule R30), reset (rules R34, R342), the requester's offer (rule R346) and
the latency (rule R350). -/

namespace Sys2Proof.Machine

/-- Every input port low: no reset, no request, no response taken. -/
def Inputs.low : Inputs := { rst := false, reqValid := false, req := Req.zero, respReady := false }

/-- The levels of the input ports at the coming clock edge (rule R31). -/
def State.pins (s : State) : Inputs := s.inputs.headD Inputs.low

/-- `req_ready` (rules R28, R31): `phase = IDLE`, which holds while `rst` is asserted (rule R34). -/
def State.reqReady (s : State) : Bool := s.pins.rst || s.phase == .idle

/-- `resp_valid` (rules R30, R31): `phase = DONE`, and 0 "from the assertion of `rst`" (rule R342). -/
def State.respValid (s : State) : Bool := !s.pins.rst && s.phase == .done

/-- The `resp_*` ports: the response latch while `resp_valid = 1`, and nothing that means something otherwise (rules
R30, R340). -/
def State.respPorts (s : State) : Option Resp := if s.respValid then some s.resp else none

/-- A byte string of `size` bytes with unspecified contents. -/
def unspecifiedText (size k part : Nat) : Memory := Memory.ofBytes ((Config.unspecifiedBytes k part).take size)

/-- Unspecified contents of the request latch (rules R30, R34, U8). -/
def unspecifiedReq (k : Nat) : Req :=
  { cmd := (Config.unspecifiedBits k 0).setWidth 32
    a := Config.unspecifiedBits k 1
    b := Config.unspecifiedBits k 2
    c := Config.unspecifiedBits k 3
    len := (Config.unspecifiedBits k 4).setWidth 8
    txt := unspecifiedText txtInMax k 0 }

/-- Unspecified contents of the response latch (rules R30, R34, U8). -/
def unspecifiedResp (k : Nat) : Resp :=
  { r := Config.unspecifiedBits k 5
    x := (Config.unspecifiedBits k 6).setWidth 16
    cc := (Config.unspecifiedBits k 7).setWidth 3
    sgn := (Config.unspecifiedBits k 8).setWidth 1
    dlen := (Config.unspecifiedBits k 9).setWidth 5
    dig := unspecifiedText digMax k 1
    tlen := (Config.unspecifiedBits k 10).setWidth 9
    txt := unspecifiedText txtOutMax k 2 }

/-- The phase is IDLE and both latches hold unspecified contents: what reset (rule R34) and step "take" (rule R30)
leave. -/
def State.toIdle (s : State) : State :=
  { s with phase := .idle, req := unspecifiedReq s.drawn, resp := unspecifiedResp s.drawn, busyFor := 0,
           drawn := s.drawn + 1 }

/-- What the requester has presented and not had accepted, after this clock edge (rules R28, R346). While the block is
not IDLE a presented request waits, and is remembered as held or as changed; one no longer presented is forgotten,
since it "has no effect" (rule R28). In IDLE, and under reset, `req_ready = 1` and nothing goes on waiting. -/
def State.nextOffer (s : State) : Offer :=
  if s.reqReady then .none
  else if s.pins.reqValid then
    match s.offer with
    | .none => .held s.pins.req
    | .held r => if s.pins.req = r then .held r else .changed
    | .changed => .changed
  else .none

/-- The input ports after a clock edge: the next edge's levels come to the front, and the offer is brought up to
date. -/
def State.passEdge (s : State) : State := { s with inputs := s.inputs.tail, offer := s.nextOffer }

/-- The request presented now is the one that has waited, if one has (rules R28, R346(c)). -/
def State.offerKept (s : State) : Bool :=
  match s.offer with
  | .none => true
  | .held r => s.pins.req == r
  | .changed => false

/-- The refusal of a reserved command word (rule R70). -/
def reservedCommand : DecodeError → Refusal
  | .reservedField rsv => .reservedField rsv
  | .reservedOp op => .reservedOp op

/-- `REQ <- req`, all fields in the same instant, and `phase <- BUSY` (rule R28). The response is complete `LATENCY`
edges after this one (rule R350). -/
def State.accept (s : State) (r : Req) : State := { s with req := r, phase := .busy, busyFor := Config.extraCycles r }

/-- Step "accept" of the presented request (rule R28): a request that was changed while it waited (rule R346(c)) and a
request with a reserved command word (rule R70) have no next state. -/
def acceptStep (s : State) : Host.Outcome State Fault Refusal :=
  if s.offerKept then
    match decode s.pins.req.cmd with
    | .ok _ => .next (s.passEdge.accept s.pins.req)
    | .error e => .refused (reservedCommand e)
  else .refused .requestChanged

/-- Step "take" (rule R30): the requester receives `RESP` and the phase becomes IDLE. -/
def State.take (s : State) : State := { s.toIdle with received := s.resp :: s.received }

end Sys2Proof.Machine
end

