-- ==== Sys2Proof/Machine/Step.lean ====
section
/-! DEFINITION. One active clock edge: reset, or the one step of rules R28 to R30 that is enabled, or none. -/

namespace Sys2Proof.Machine

/-- One active clock edge of the block and its requester (rules R28 to R30, R34, R327). Reset goes before everything
(rules R34, R342). IDLE: a presented request is accepted. BUSY: the latency runs out, and at its end step "complete"
carries out the operation in `REQ`. DONE: the response waits until the requester takes it. -/
def step (s : State) : Host.Outcome State Fault Refusal :=
  if s.pins.rst then .next s.passEdge.toIdle
  else
    match s.phase with
    | .idle => if s.pins.reqValid then acceptStep s else .next s.passEdge
    | .busy =>
      match s.busyFor with
      | n + 1 => .next { s.passEdge with busyFor := n }
      | 0 =>
        match decode s.req.cmd with
        | .ok i => exec i s.passEdge
        | .error e => .refused (reservedCommand e)
    | .done => if s.pins.respReady then .next s.passEdge.take else .next s.passEdge

/-- The input ports with `rst` released at the coming edge. -/
def releaseReset : List Inputs → List Inputs
  | [] => []
  | p :: ps => { p with rst := false } :: ps

/-- The state in which an accepted request with the command word `w` (of `nbits` bits, the bits above them zero) is
about to be completed, so that the very next step runs the operation: BUSY, the command word in `REQ`, no latency left,
`rst` released. The operands in `REQ` stay as they are. -/
def State.withFetchWord (s : State) (nbits w : Nat) : State :=
  { s with phase := .busy, busyFor := 0, req := { s.req with cmd := BitVec.ofNat 32 (w % 2 ^ nbits) },
           inputs := releaseReset s.inputs }

end Sys2Proof.Machine
end

