-- ==== Sys2Proof/Machine/Datapaths.lean ====
section
/-! DEFINITION. The datapaths the rules describe beside the results they fix: the adder with guard, round and sticky
bits (R133), the multiplier (R137), the divider (R140), the integer converters (R231, R241) and the float32 widener
(R262). `exec` follows the rules of the results; that each datapath gives the same pattern is a statement about them. -/

namespace Sys2Proof.Machine

/-- `n >> d` with the bits shifted out ORed into bit 0 (rule R133). -/
def shiftSticky (n d : Nat) : Nat :=
  let y := n >>> d
  if y <<< d = n then y else y ||| 1

/-- The adder's datapath on two unpacked finite operands, the one of larger magnitude first (rule R133); `zs` is the
sign an exact zero takes. -/
def addOrdered (big small : Unpacked) (zs : Bool) : F64 :=
  let X := big.m <<< 3
  let Y := shiftSticky (small.m <<< 3) (big.e - small.e).toNat
  let T := if big.s = small.s then X + Y else X - Y
  if T = 0 then zeroF zs else roundPack big.s T (big.e - 55) false

/-- The adder's datapath on two finite patterns (rule R133). -/
def addDatapath (a b : F64) : F64 :=
  let ua := unpack a
  let ub := unpack b
  let zs := signOf a && signOf b
  if ub.e < ua.e ∨ (ub.e = ua.e ∧ ub.m ≤ ua.m) then addOrdered ua ub zs else addOrdered ub ua zs

/-- The multiplier's datapath on two finite non-zero patterns (rule R137). -/
def mulDatapath (a b : F64) : F64 :=
  roundPack (signOf a ^^ signOf b) ((norm a).1 * (norm b).1) ((norm a).2 + (norm b).2) false

/-- The divider's datapath on two finite non-zero patterns (rule R140). -/
def divDatapath (a b : F64) : F64 :=
  let N := (norm a).1 <<< 55
  let D := (norm b).1
  roundPack (signOf a ^^ signOf b) (N / D) ((norm a).2 - (norm b).2 - 55) (decide (N % D ≠ 0))

/-- The integer to float64 datapath on a non-zero integer (rule R231). -/
def i2fDatapath (v : Int) : F64 :=
  let n := v.natAbs
  let L := Nat.log2 n
  if L ≤ 52 then
    BitVec.ofBool (decide (v < 0)) ++ BitVec.ofNat 11 (1023 + L) ++ BitVec.ofNat 52 ((n <<< (52 - L)) - 2 ^ 52)
  else roundPack (decide (v < 0)) n 0 false

/-- The float64 to integer datapath on a finite pattern: the integer part (rule R241). -/
def truncDatapath (a : F64) : Int :=
  let u := unpack a
  let t : Nat := if u.e < 0 then 0 else if u.e ≤ 52 then u.m >>> (52 - u.e).toNat else u.m <<< (u.e - 52).toNat
  if u.s then -(t : Int) else (t : Int)

/-- The float32 widener's datapath on a finite non-zero float32 pattern (rule R262). -/
def widenDatapath (w : F32) : F64 :=
  if cat32 w = .subnormal then
    let z := 23 - Nat.log2 (fracOf32 w)
    BitVec.ofBool (signOf32 w) ++ BitVec.ofNat 11 (897 - z) ++ BitVec.ofNat 23 ((fracOf32 w <<< z) - 2 ^ 23) ++ 0#29
  else BitVec.ofBool (signOf32 w) ++ BitVec.ofNat 11 (expOf32 w + 896) ++ BitVec.ofNat 23 (fracOf32 w) ++ 0#29

end Sys2Proof.Machine
end

