-- ==== Sys2Proof/Machine/Formats.lean ====
section
/-! DEFINITION. The formats of the operations (rules R62, R63): which request fields an operation reads and which
response fields it writes. `exec` follows each operation's own rule; these tables are what statements hold it against. -/

namespace Sys2Proof.Machine

/-- The seven formats (rule R62): unary, unary classify, binary, binary compare, ternary, decimal encode, parse. -/
inductive OpFormat where
  | u
  | uc
  | b
  | bc
  | t
  | d
  | p
deriving DecidableEq, Repr

/-- The format of an operation (the `format` column of rule R63). -/
def formatOf : Instr → OpFormat
  | .decode => .uc
  | .classify => .uc
  | .neg => .u
  | .abs => .u
  | .cmp => .bc
  | .add => .b
  | .sub => .b
  | .mul => .b
  | .div => .b
  | .sqrt => .u
  | .fma => .t
  | .i2fS8 => .u
  | .i2fU8 => .u
  | .i2fS16 => .u
  | .i2fU16 => .u
  | .i2fS32 => .u
  | .i2fU32 => .u
  | .i2fS64 => .u
  | .i2fU64 => .u
  | .f2iS8 => .u
  | .f2iU8 => .u
  | .f2iS16 => .u
  | .f2iU16 => .u
  | .f2iS32 => .u
  | .f2iU32 => .u
  | .f2iS64 => .u
  | .f2iU64 => .u
  | .f32ToF64 => .u
  | .f64ToF32 => .u
  | .sin => .u
  | .cos => .u
  | .tan => .u
  | .asin => .u
  | .acos => .u
  | .atan => .u
  | .atan2 => .b
  | .exp => .u
  | .log => .u
  | .pow => .b
  | .sinh => .u
  | .cosh => .u
  | .tanh => .u
  | .todec _ _ => .d
  | .parse => .p

/-- How many low bits of `req.a` an operation reads (rule R66). -/
def operandBits : Instr → Nat
  | .i2fS8 => 8
  | .i2fU8 => 8
  | .i2fS16 => 16
  | .i2fU16 => 16
  | .i2fS32 => 32
  | .i2fU32 => 32
  | .f32ToF64 => 32
  | .decode => 64
  | .classify => 64
  | .neg => 64
  | .abs => 64
  | .cmp => 64
  | .add => 64
  | .sub => 64
  | .mul => 64
  | .div => 64
  | .sqrt => 64
  | .fma => 64
  | .i2fS64 => 64
  | .i2fU64 => 64
  | .f2iS8 => 64
  | .f2iU8 => 64
  | .f2iS16 => 64
  | .f2iU16 => 64
  | .f2iS32 => 64
  | .f2iU32 => 64
  | .f2iS64 => 64
  | .f2iU64 => 64
  | .f64ToF32 => 64
  | .sin => 64
  | .cos => 64
  | .tan => 64
  | .asin => 64
  | .acos => 64
  | .atan => 64
  | .atan2 => 64
  | .exp => 64
  | .log => 64
  | .pow => 64
  | .sinh => 64
  | .cosh => 64
  | .tanh => 64
  | .todec _ _ => 64
  | .parse => 64

/-- Two requests agree in every field the operation reads (the "reads" column of rule R62; rules R41, R66). -/
def readsSame (i : Instr) (q q' : Req) : Prop :=
  match formatOf i with
  | .u => q.a.toNat % 2 ^ operandBits i = q'.a.toNat % 2 ^ operandBits i
  | .uc => q.a = q'.a
  | .b => q.a = q'.a ∧ q.b = q'.b
  | .bc => q.a = q'.a ∧ q.b = q'.b
  | .t => q.a = q'.a ∧ q.b = q'.b ∧ q.c = q'.c
  | .d => q.a = q'.a
  | .p => q.text = q'.text

/-- Every field of the response that the operation does not write is zero (the "writes" column of rule R62; rule
R27). -/
def writesOnly (i : Instr) (r : Resp) : Prop :=
  match formatOf i with
  | .u => r = Resp.ofR r.r
  | .uc => if i = .classify then r = Resp.ofCC r.cc else r = { Resp.zero with r := r.r, x := r.x, sgn := r.sgn, cc := r.cc }
  | .b => r = Resp.ofR r.r
  | .bc => r = Resp.ofCC r.cc
  | .t => r = Resp.ofR r.r
  | .d => r.r = 0#64
  | .p => r = { Resp.zero with r := r.r, x := r.x }

end Sys2Proof.Machine
end

