-- ==== Sys2Proof/Machine/Grammar.lean ====
section
/-! DEFINITION. The grammar of decimal text (rule R291), written as the texts it derives and the numbers they denote,
apart from the scan of rule R293 that `exec` follows: what statements hold the scan against. -/

namespace Sys2Proof.Machine

/-- The parts of a text the grammar derives: the sign, the integer digits, the fraction digits when there is a point,
and the exponent's marker, sign and digits when there is an exponent. -/
structure Numeral where
  sign : Option Byte
  ints : List Byte
  frac : Option (List Byte)
  expo : Option (Byte × Option Byte × List Byte)
deriving DecidableEq, Repr

/-- `sign ::= '+' | '-'`, or no sign. -/
def isSign : Option Byte → Bool
  | none => true
  | some c => c == chPlus || c == chMinus

/-- `mantissa ::= digit+ [ '.' digit* ] | '.' digit+` (rule R291). -/
def Numeral.mantissaValid (m : Numeral) : Bool :=
  m.ints.all isDigitByte &&
    match m.frac with
    | none => !m.ints.isEmpty
    | some fs => fs.all isDigitByte && !(m.ints.isEmpty && fs.isEmpty)

/-- `exponent ::= ('e' | 'E') [sign] digit+`, or no exponent (rule R291). -/
def Numeral.exponentValid (m : Numeral) : Bool :=
  match m.expo with
  | none => true
  | some (c, sg, ds) => (c == chLowerE || c == chE) && isSign sg && ds.all isDigitByte && !ds.isEmpty

/-- The parts are those of a text the grammar derives (rule R291). -/
def Numeral.valid (m : Numeral) : Bool := isSign m.sign && m.mantissaValid && m.exponentValid

/-- The text of a fraction. -/
def Numeral.fracText (m : Numeral) : List Byte :=
  match m.frac with
  | none => []
  | some fs => chPoint :: fs

/-- The text of an exponent. -/
def Numeral.expoText (m : Numeral) : List Byte :=
  match m.expo with
  | none => []
  | some (c, sg, ds) => c :: (sg.toList ++ ds)

/-- The text itself. -/
def Numeral.text (m : Numeral) : List Byte := m.sign.toList ++ m.ints ++ m.fracText ++ m.expoText

/-- The text has a minus sign (rule R293). -/
def Numeral.negative (m : Numeral) : Bool := m.sign == some chMinus

/-- The fraction digits. -/
def Numeral.fracDigits (m : Numeral) : List Byte := m.frac.getD []

/-- The exponent (rule R293). -/
def Numeral.exponent (m : Numeral) : ℤ :=
  match m.expo with
  | none => 0
  | some (_, sg, ds) => if sg = some chMinus then -(decimalValue ds : ℤ) else (decimalValue ds : ℤ)

/-- The exact magnitude a text denotes: the digits before and after the point as one integer, times ten to the exponent
less the number of fraction digits (rule R292). -/
def Numeral.magnitude (m : Numeral) : ℚ :=
  decimalValue (m.ints ++ m.fracDigits) * 10 ^ (m.exponent - (m.fracDigits.length : ℤ))

end Sys2Proof.Machine
end

