-- ==== Sys2Proof/Machine/Methods.lean ====
section
/-! DEFINITION. The methods section 2 of 44_transcendental.md describes for the sub-blocks `range_reduction`, `cordic`
and `series_approx` (rules R186 to R189), and the integer path of POW (rule R203). They are informative, "no model rule
depends on this section": `exec` uses none of them, and an implementation may compute its results otherwise. They are
written over any ordered field, the constants (pi, the arctangents, ln 2) as arguments. -/

namespace Sys2Proof.Machine

section Field

variable {K : Type} [Field K] [LinearOrder K] [FloorRing K]

/-- `k`, the integer nearest to `x * (2/pi)` (rule R186). -/
def quadrantCount (pi x : K) : ℤ := round (x * (2 / pi))

/-- `rho = x - k * (pi/2)` (rule R186). -/
def reducedArgument (pi x : K) : K := x - (quadrantCount pi x : K) * (pi / 2)

/-- The sine row of the quadrant table (rule R187), from `k mod 4`, the sine and the cosine of the reduced argument. -/
def quadrantSin (quad : ℤ) (sinRho cosRho : K) : K :=
  if quad = 0 then sinRho else if quad = 1 then cosRho else if quad = 2 then -sinRho else -cosRho

/-- The cosine row of the quadrant table (rule R187). -/
def quadrantCos (quad : ℤ) (sinRho cosRho : K) : K :=
  if quad = 0 then cosRho else if quad = 1 then -sinRho else if quad = 2 then -cosRho else sinRho

/-- The tangent row of the quadrant table (rule R187). -/
def quadrantTan (quad : ℤ) (tanRho : K) : K :=
  if quad = 0 then tanRho else if quad = 1 then -1 / tanRho else if quad = 2 then tanRho else -1 / tanRho

/-- One rotation of the CORDIC iteration in rotation mode, on `(x, y, z)` (rule R188). -/
def cordicStep (atanTable : ℕ → K) (i : ℕ) (p : K × K × K) : K × K × K :=
  let d : K := if 0 ≤ p.2.2 then 1 else -1
  (p.1 - d * p.2.1 / 2 ^ i, p.2.1 + d * p.1 / 2 ^ i, p.2.2 - d * atanTable i)

/-- `n` rotations from `(K, 0, rho)` (rule R188). -/
def cordic (atanTable : ℕ → K) (gain rho : K) : ℕ → K × K × K
  | 0 => (gain, 0, rho)
  | n + 1 => cordicStep atanTable n (cordic atanTable gain rho n)

/-- The argument transformation of the arctangent for a magnitude above 1 (rule R189): `sign(x) * pi/2 - atan(1/x)`,
where `atanInv` is the arctangent of `1/x`. -/
def atanLarge (pi x atanInv : K) : K := (if x < 0 then -1 else 1) * (pi / 2) - atanInv

/-- The integer multiple of ln 2 that EXP extracts, the nearest one (rule R189). -/
def expMultiple (ln2 x : K) : ℤ := round (x / ln2)

/-- The rescaling of EXP by an exact power of two (rule R189). -/
def expRebuild (n : ℤ) (expRho : K) : K := 2 ^ n * expRho

/-- The recombination of LOG with the exponent times ln 2 (rule R189). -/
def logRebuild (ln2 : K) (n : ℤ) (logM : K) : K := n * ln2 + logM

end Field

/-- The squaring loop of POW's integer path (rule R203), for an exponent below `2^bits`: `p` is the product so far and
`sq` the current square. -/
def powLoop : Nat → F64 → F64 → Nat → F64
  | 0, p, _, _ => p
  | bits + 1, p, sq, n =>
    if n = 0 then p else powLoop bits (if n % 2 = 1 then mulF p sq else p) (mulF sq sq) (n / 2)

/-- POW's integer path (rule R203): repeated squaring of the magnitude of the base with the arithmetic core's MUL, the
reciprocal by DIV for a negative exponent, then the sign of rule R202 case 9. -/
def powIntegerPath (a b : F64) : F64 :=
  let n := magUnits b / unitsPerOne
  let p := powLoop (Nat.log2 n + 1) oneF (absF a) n
  withSign (signOf a && isOdd b) (if signOf b then divF oneF p else p)

end Sys2Proof.Machine
end

