-- ==== Sys2Proof/WellFormed.lean ====
section
/-! DEFINITION. Which command words are well formed. Legality of a command word is written here from the ranges of
rule R70, apart from the decoder's table of rule R63, so that the two can be held against each other. An operation of
the syntax has no check of its own: an `Instr` carries two 8-bit parameters at most, and "For any legal command word
`p0` and `p1` may hold any value" (rule R70), so no term of `Instr` is ill formed. -/

namespace Sys2Proof

/-- An op code outside the reserved ranges 0x05 to 0x0F, 0x16 to 0x1F, 0x32 to 0x3F, 0x4D to 0x4F and 0x52 to 0xFF
of rule R70. -/
def legalOp (op : Nat) : Bool :=
  !((0x05 ≤ op && op ≤ 0x0F) || (0x16 ≤ op && op ≤ 0x1F) || (0x32 ≤ op && op ≤ 0x3F) ||
    (0x4D ≤ op && op ≤ 0x4F) || (0x52 ≤ op && op ≤ 0xFF))

/-- The reserved field of a command word is zero (rule R70). -/
def legalRsv (w : Command) : Bool := w.toNat / 2 ^ 24 == 0

/-- A command word is legal exactly when its reserved field is zero and its op code is not reserved (rule R70). -/
def legalCommand (w : Command) : Bool := legalRsv w && legalOp (w.toNat % 2 ^ 8)

end Sys2Proof
end

