-- ==== Sys2Proof/Safety.lean ====
section
/-! DEFINITION. What holds of every state the machine can be in (`State.Inv`), what the requester owes (rule R327), what
a safe run is, and what of a state can be observed (rules R30, R34). -/

namespace Sys2Proof.Machine

/-- The request's text is a byte string of 255 bytes in canonical form (rule R40). -/
def Req.wf (q : Req) : Bool := q.txt.wf txtInMax

/-- The response's strings are byte strings of 17 and 275 bytes in canonical form (rule R40). -/
def Resp.wf (r : Resp) : Bool := r.dig.wf digMax && r.txt.wf txtOutMax

/-- What a response is like (rules R27, R67): its lengths are at most 17 and 275, its strings hold nothing but zero at
their length and above, and `cc` is no code that is "never produced". -/
def Resp.shaped (r : Resp) : Bool :=
  decide (r.dlen.toNat ≤ digMax) && decide (r.tlen.toNat ≤ txtOutMax) &&
    r.dig.wf r.dlen.toNat && r.txt.wf r.tlen.toNat && decide (r.cc.toNat ≤ 4)

/-- The request an offer holds is well formed. -/
def Offer.wf : Offer → Bool
  | .none => true
  | .held r => r.wf
  | .changed => true

/-- The invariant of the machine: every byte string is in canonical form, the request carried out is a legal one (rule
R28), a response that is offered or was taken is one (rules R27, R30), and there is latency left only while BUSY. -/
structure State.Inv (s : State) : Prop where
  req_wf : s.req.wf = true
  resp_wf : s.resp.wf = true
  inputs_wf : ∀ p ∈ s.inputs, p.req.wf = true
  offer_wf : s.offer.wf = true
  received_shaped : ∀ r ∈ s.received, r.shaped = true
  busy_legal : s.phase = .busy → legalCommand s.req.cmd = true
  done_shaped : s.phase = .done → s.resp.shaped = true
  busy_latency : s.phase ≠ .busy → s.busyFor = 0

/-- The requester's duties at this clock edge (rule R327): where a request is about to be accepted, its command word is
legal (rule R70) and it was not changed while it waited (rules R28, R346(c)). -/
def State.dutiful (s : State) : Bool :=
  !(s.reqReady && !s.pins.rst && s.pins.reqValid) || (legalCommand s.pins.req.cmd && s.offerKept)

/-- A clock edge is safe when the machine has a next state. -/
def Safe (s : State) : Prop := ∃ t, step s = .next t

/-- `n` clock edges are safe. -/
def SafeRun (n : Nat) (s : State) : Prop := ∃ t, Host.Core.run Sys2Proof.core n s = .next t

/-- What can be observed of a state, at once or later: the phase, `REQ` and the latency while BUSY, `RESP` while DONE,
the ports and the responses taken. `REQ` outside BUSY and `RESP` outside DONE are "unspecified, unobservable" (rules
R25, R30, R34). -/
structure Observable where
  phase    : Phase
  req      : Option Req
  resp     : Option Resp
  busyFor  : Option Nat
  inputs   : List Inputs
  offer    : Offer
  received : List Resp
deriving DecidableEq, Repr

/-- The observable part of a state (rules R25, R30, R34). -/
def State.observable (s : State) : Observable :=
  { phase := s.phase
    req := if s.phase = .busy then some s.req else none
    resp := if s.phase = .done then some s.resp else none
    busyFor := if s.phase = .busy then some s.busyFor else none
    inputs := s.inputs
    offer := s.offer
    received := s.received }

/-- The observable part of an outcome. -/
def observableOutcome : Host.Outcome State Fault Refusal → Host.Outcome Observable Fault Refusal
  | .next s => .next s.observable
  | .fault f => .fault f
  | .refused r => .refused r

end Sys2Proof.Machine
end

