-- ==== Sys2Proof/Certificates/Slice0/Obligations.lean ====
section
/-! DEFINITION. The statements for the provers. Results are stated over the rationals or the reals with `val`,
`rneSigned` and `rneOn` (rules R93, R111), apart from the integer computations `exec` makes; a response is stated
whole, so that `s.respond (Resp.ofR r)` also says that every other response field is zero (rule R27) and that nothing
else of the state changes (rule R29). -/

section Statements

open Sys2Proof Sys2Proof.Machine

/-! Encoding. -/

/-- Rules R60, R63: for every operation, TODEC at every value of its parameters, the decoder reads back what the
encoder writes, and the word written is a legal one (rule R70). -/
def Obligations.DecodeEncode : Prop :=
  ∀ i : Instr, decode (encode i) = .ok i ∧ legalCommand (encode i) = true

/-- Rule R63: a word that decodes to an operation agrees with the encoder's word in every bit under the mask
`0xFF0000FF` of the opcode table, and a TODEC word in every bit (rule R60). -/
def Obligations.EncodeDecode : Prop :=
  ∀ (w : Command) (i : Instr), decode w = .ok i →
    w &&& 0xFF0000FF#32 = encode i &&& 0xFF0000FF#32 ∧ ((∃ p0 p1, i = .todec p0 p1) → w = encode i)

/-- Rule R70: a command word is legal exactly when `cmd[31:24] = 0` and `cmd[7:0]` is an op code of rule R63; exactly
the legal words, outside the reserved ranges, decode; a request with a reserved word has no next state; `p0` and `p1`
may hold any value and every operation but TODEC ignores them. -/
def Obligations.ReservedWords : Prop :=
  (∀ w : Command, (legalCommand w = true ↔ w.extractLsb' 24 8 = 0#8 ∧ ∃ i, w.extractLsb' 0 8 = opcode i) ∧
    (legalCommand w = true ↔ ∃ i, decode w = .ok i)) ∧
  (∀ s : State, s.pins.rst = false → s.phase = .idle → s.pins.reqValid = true →
    legalCommand s.pins.req.cmd = false → ∃ e, step s = .refused e) ∧
  (∀ w w' : Command, w &&& 0xFF0000FF#32 = w' &&& 0xFF0000FF#32 →
    legalCommand w = legalCommand w' ∧ (w.extractLsb' 0 8 ≠ 0x50#8 → decode w = decode w'))

/-- Rule R63: command words written out from the table, one of each family, and reserved words. -/
def Obligations.DecodedWords : Prop :=
  decode 0x00000001#32 = .ok .classify ∧ decode 0x00000004#32 = .ok .cmp ∧ decode 0x00000010#32 = .ok .add ∧
  decode 0x00000015#32 = .ok .fma ∧ decode 0x00000025#32 = .ok .i2fU32 ∧ decode 0x0000002A#32 = .ok .f2iS16 ∧
  decode 0x00000031#32 = .ok .f64ToF32 ∧ decode 0x00000046#32 = .ok .atan2 ∧
  decode 0x000F1150#32 = .ok (.todec 17#8 15#8) ∧ decode 0x00FFFF51#32 = .ok .parse ∧
  decode 0x00000005#32 = .error (.reservedOp 0x05#8) ∧ decode 0x01000010#32 = .error (.reservedField 0x01#8)

/-! The request and response interface. -/

/-- Rules R29, R350: at the clock edge of step "complete", `step` is `exec` of the decoded operation, with the input
ports moved on and the requester's offer brought up to date; in particular after `withFetchWord`. The list of input
levels, the offer and the latency counter are the model's (notes/assumptions/4.md, 8.md, 10.md). -/
def Obligations.StepRunsDecoded : Prop :=
  (∀ (s : State) (i : Instr), s.pins.rst = false → s.phase = .busy → s.busyFor = 0 → decode s.req.cmd = .ok i →
    step s = exec i { s with inputs := s.inputs.tail, offer := s.nextOffer }) ∧
  (∀ (s : State) (nbits w : Nat) (i : Instr), decodeTableWord nbits w = some i →
    step (s.withFetchWord nbits w) = exec i (s.withFetchWord nbits w).passEdge)

/-- Rules R28, R346(a): `req_ready` is high exactly in IDLE; in IDLE a presented legal request is latched whole, one
that has waited at the port unchanged as well as one presented at this edge; with nothing presented nothing is accepted;
and where the block is not IDLE no request is accepted. `offerKept` says that the request now presented is the one that
waits, if one does. The list of input levels, the offer, the latency counter and the edge at which nothing happens are
the model's (notes/assumptions/4.md, 8.md, 10.md, 23.md). -/
def Obligations.AcceptStep : Prop :=
  (∀ s : State, s.pins.rst = false → (s.reqReady = true ↔ s.phase = .idle)) ∧
  (∀ s : State, s.offerKept = true ↔ s.offer = .none ∨ s.offer = .held s.pins.req) ∧
  (∀ (s : State) (i : Instr), s.pins.rst = false → s.phase = .idle → s.pins.reqValid = true → s.offerKept = true →
    decode s.pins.req.cmd = .ok i →
    step s = .next { s with phase := .busy, req := s.pins.req, busyFor := Config.extraCycles s.pins.req,
                            inputs := s.inputs.tail, offer := .none }) ∧
  (∀ s : State, s.pins.rst = false → s.phase = .idle → s.pins.reqValid = false →
    step s = .next { s with inputs := s.inputs.tail, offer := .none }) ∧
  (∀ s t : State, s.phase ≠ .idle → step s = .next t →
    (t.phase = .busy → s.phase = .busy ∧ t.req = s.req) ∧ (t.phase = .done → t.req = s.req))

/-- Rules R28, R346(a): what is presented at the request port while the block is not IDLE has no effect on the block;
only the model's record of what waits at the port differs (notes/assumptions/8.md). -/
def Obligations.WaitingRequestHasNoEffect : Prop :=
  ∀ (s t : State) (v : Bool) (q : Req), s.phase ≠ .idle → s.pins.rst = false → step s = .next t →
    ∃ o, step { s with inputs := { s.pins with reqValid := v, req := q } :: s.inputs.tail } = .next { t with offer := o }

/-- Rule R30: `resp_valid` is high exactly in DONE and shows `RESP`; it does not change until the requester takes it;
at that edge the requester receives it and the phase becomes IDLE; responses are received at no other edge. -/
def Obligations.TakeStep : Prop :=
  (∀ s : State, s.pins.rst = false →
    (s.respValid = true ↔ s.phase = .done) ∧ (s.phase = .done → s.respPorts = some s.resp)) ∧
  (∀ s : State, s.pins.rst = false → s.phase = .done → s.pins.respReady = true →
    ∃ t, step s = .next t ∧ t.phase = .idle ∧ t.received = s.resp :: s.received ∧ t.inputs = s.inputs.tail) ∧
  (∀ s : State, s.pins.rst = false → s.phase = .done → s.pins.respReady = false →
    step s = .next { s with inputs := s.inputs.tail, offer := s.nextOffer }) ∧
  (∀ s t : State, step s = .next t → t.received = s.received ∨
    (t.received = s.resp :: s.received ∧ s.phase = .done ∧ s.pins.respReady = true ∧ t.phase = .idle))

/-- Rules R34, R342: while `rst` is asserted the block is ready and offers nothing, in every phase; the request in
flight is dropped and no response for it is received; nothing is accepted, which is the model's reading
(notes/assumptions/6.md). -/
def Obligations.ResetStep : Prop :=
  ∀ s : State, s.pins.rst = true → s.reqReady = true ∧ s.respValid = false ∧ s.respPorts = none ∧
    ∃ t, step s = .next t ∧ t.phase = .idle ∧ t.received = s.received ∧ t.inputs = s.inputs.tail ∧ t.offer = .none

/-- Rules R28, R346(c): a request that waits is remembered; when another is presented in its place it is marked changed,
and it stays so marked for as long as a request goes on waiting, whatever that request is; the acceptance of a changed
request has no next state, the treatment U7 gives. The record and the refusal are the model's
(notes/assumptions/8.md). -/
def Obligations.ChangedRequestRefused : Prop :=
  (∀ s t : State, s.pins.rst = false → s.phase ≠ .idle → s.pins.reqValid = true → s.offer = .none →
    step s = .next t → t.offer = .held s.pins.req) ∧
  (∀ (s t : State) (q : Req), s.pins.rst = false → s.phase ≠ .idle → s.pins.reqValid = true → s.offer = .held q →
    step s = .next t → t.offer = if s.pins.req = q then .held q else .changed) ∧
  (∀ s t : State, s.pins.rst = false → s.phase ≠ .idle → s.pins.reqValid = true → s.offer = .changed →
    step s = .next t → t.offer = .changed) ∧
  (∀ (s : State) (q : Req), s.pins.rst = false → s.phase = .idle → s.pins.reqValid = true →
    (s.offer = .changed ∨ (s.offer = .held q ∧ s.pins.req ≠ q)) → step s = .refused .requestChanged)

/-- Rules R29, R350: while no reset is asserted, a legal request in `REQ` is completed after a finite number of clock
edges, with the response its operation gives. `busyFor` is the model's counter (notes/assumptions/10.md). -/
def Obligations.BoundedCompletion : Prop :=
  ∀ (s : State) (i : Instr), s.phase = .busy → (∀ p ∈ s.inputs, p.rst = false) → decode s.req.cmd = .ok i →
    ∃ r t, exec i s = .next (s.respond r) ∧ Host.Core.run Sys2Proof.core (s.busyFor + 1) s = .next t ∧
      t.phase = .done ∧ t.resp = r ∧ t.received = s.received

/-- Rules R28 to R30, R327, R346(a), R350, the whole transaction: a legal request presented to the idle block, with no
reset, whether it is presented at this edge or has waited at the port unchanged, is answered after a finite number of
clock edges with the response of its operation; `resp_valid` is low until then; the requester that then takes it
receives exactly that response. The list of input levels, the offer, the latency and the list of receipts are the
model's (notes/assumptions/4.md, 8.md, 10.md, 12.md). -/
def Obligations.RequestIsAnswered : Prop :=
  ∀ (s : State) (q : Req) (ready : Bool) (later : List Inputs) (i : Instr), s.phase = .idle → s.offerKept = true →
    s.inputs = { rst := false, reqValid := true, req := q, respReady := ready } :: later →
    (∀ p ∈ later, p.rst = false) → decode q.cmd = .ok i →
    ∃ n r t, exec i (s.accept q) = .next ((s.accept q).respond r) ∧
      (∀ k, k < n → ∃ u : State, Host.Core.run Sys2Proof.core k s = .next u ∧ u.respValid = false) ∧
      Host.Core.run Sys2Proof.core n s = .next t ∧ t.respPorts = some r ∧ t.received = s.received ∧
      (t.pins.respReady = true → ∃ u, step t = .next u ∧ u.phase = .idle ∧ u.received = r :: s.received)

/-- The invariant holds right after reset. The zeros in the latches and the empty list of inputs are the model's
choice (notes/assumptions/1.md and 4.md); the phase is rule R34's. -/
def Obligations.InvReset : Prop := State.reset.Inv ∧ State.reset.phase = .idle

/-- Every clock edge keeps the invariant: byte strings stay in canonical form within their 255, 17 and 275 bytes (rule
R40), only a legal request is carried out (rule R28), and what is offered or was taken is a response of the shape of
rule R27: lengths in bounds, zero past the lengths, no `cc` that is never produced (rule R67). -/
def Obligations.InvStep : Prop := ∀ s t : State, s.Inv → step s = .next t → t.Inv

/-- Rules R28, R70, R310, R327, R346(c): where the invariant holds, a clock edge has a next state exactly when the
requester does its duty, and nothing else stops the machine: nothing in the block faults (R310), a reserved command word
has no next state (R70, U1; notes/assumptions/9.md), and the refusal of a request that was changed while it waited is
the model's choice, after U7 (R346(c); notes/assumptions/8.md). -/
def Obligations.SafeIffDutiful : Prop := ∀ s : State, s.Inv → (Safe s ↔ s.dutiful = true)

/-- Rules R30, R34, U8: the latches hold unspecified values "that nothing can observe": two states that differ only
there have the same next observation, refusals included. -/
def Obligations.UnspecifiedIsUnobservable : Prop :=
  ∀ s s' : State, s.observable = s'.observable → observableOutcome (step s) = observableOutcome (step s')

/-- Rules R46, R62, R66, U14: every operation answers, and its response depends on the request fields its format reads
and on nothing else of the state. -/
def Obligations.ResponseOfRequestAlone : Prop :=
  ∀ (i : Instr) (s s' : State), readsSame i s.req s'.req →
    ∃ r, exec i s = .next (s.respond r) ∧ exec i s' = .next (s'.respond r)

/-- Rules R27, R29, R62, the frame of all 44 operations: the request with every byte of its text, the ports, the offer,
the responses taken and the model's counters are as before; the phase is DONE; every response field the format does
not write is zero, and so is every byte at a length and above. -/
def Obligations.ExecFrame : Prop :=
  ∀ (i : Instr) (s t : State), exec i s = .next t →
    t.phase = .done ∧ t.req = s.req ∧ (∀ j, t.req.txt.read j = s.req.txt.read j) ∧ t.inputs = s.inputs ∧
    t.offer = s.offer ∧ t.received = s.received ∧ t.busyFor = s.busyFor ∧ t.drawn = s.drawn ∧
    writesOnly i t.resp ∧ (∀ j, t.resp.dlen.toNat ≤ j → t.resp.dig.read j = 0#8) ∧
    (∀ j, t.resp.tlen.toNat ≤ j → t.resp.txt.read j = 0#8)

/-! The decoder and classifier. -/

/-- Rule R95 with the unpacked form of rule R94: DECODE's response, whole, and for a finite operand the value its
fields reconstruct. -/
def Obligations.DecodeResult : Prop :=
  ∀ s : State, ∃ R : Resp, exec .decode s = .next (s.respond R) ∧
    R = { Resp.zero with
      sgn := s.req.a.extractLsb' 63 1
      x := BitVec.ofInt 16 (if cat s.req.a = .zero ∨ cat s.req.a = .subnormal then -1022
             else if cat s.req.a = .normal then (expOf s.req.a : ℤ) - 1023 else 1024)
      r := BitVec.ofNat 64 (if cat s.req.a = .zero ∨ cat s.req.a = .infinite then 0
             else if cat s.req.a = .normal then 2 ^ 52 + fracOf s.req.a else fracOf s.req.a)
      cc := (cat s.req.a).code } ∧
    (isFinite s.req.a = true →
      val ℚ s.req.a = (-1) ^ R.sgn.toNat * (R.r.toNat : ℚ) * 2 ^ (R.x.toInt - 52))

/-- Rules R91, R92, R96: CLASSIFY's response, whole, from the exponent and mantissa fields; the sign never matters. -/
def Obligations.ClassifyResult : Prop :=
  (∀ s : State, exec .classify s = .next (s.respond (Resp.ofCC
    (if (s.req.a.extractLsb' 52 11).toNat = 0 then (if (s.req.a.extractLsb' 0 52).toNat = 0 then 0#3 else 1#3)
     else if (s.req.a.extractLsb' 52 11).toNat < 2047 then 2#3
     else if (s.req.a.extractLsb' 0 52).toNat = 0 then 3#3 else 4#3)))) ∧
  (∀ s s' : State, s'.req.a = s.req.a ^^^ 0x8000000000000000#64 →
    ∃ r, exec .classify s = .next (s.respond r) ∧ exec .classify s' = .next (s'.respond r))

/-- The counts of rule R92. -/
def Obligations.CategoryCounts : Prop :=
  Nat.card { b : F64 // cat b = .zero } = 2 ∧
  Nat.card { b : F64 // cat b = .subnormal } = 2 * (2 ^ 52 - 1) ∧
  Nat.card { b : F64 // cat b = .normal } = 2 * 2046 * 2 ^ 52 ∧
  Nat.card { b : F64 // cat b = .infinite } = 2 ∧
  Nat.card { b : F64 // cat b = .nan } = 2 * (2 ^ 52 - 1)

/-- Rule R98: the normalised form of a non-zero finite pattern, its formulas, and that it is the only such pair. -/
def Obligations.NormalisedForm : Prop :=
  ∀ b : F64, isFiniteNonzero b = true →
    2 ^ 52 ≤ (norm b).1 ∧ (norm b).1 < 2 ^ 53 ∧ |val ℚ b| = ((norm b).1 : ℚ) * 2 ^ (norm b).2 ∧
    (∀ (M : ℕ) (p : ℤ), 2 ^ 52 ≤ M → M < 2 ^ 53 → |val ℚ b| = (M : ℚ) * 2 ^ p → (M, p) = norm b) ∧
    (cat b = .normal → norm b = (2 ^ 52 + fracOf b, (expOf b : ℤ) - 1075)) ∧
    (cat b = .subnormal → norm b = (fracOf b * 2 ^ (52 - Nat.log 2 (fracOf b)),
      -1074 - ((52 - Nat.log 2 (fracOf b) : ℕ) : ℤ)))

/-- Rules R150, R151 with their consequences: NEG flips the sign bit and ABS clears it, of every pattern. -/
def Obligations.NegAbsResult : Prop :=
  (∀ s : State, exec .neg s = .next (s.respond (Resp.ofR (s.req.a ^^^ 0x8000000000000000#64))) ∧
    exec .abs s = .next (s.respond (Resp.ofR (s.req.a &&& 0x7FFFFFFFFFFFFFFF#64)))) ∧
  (∀ b : F64, negF (negF b) = b ∧ cat (negF b) = cat b ∧ (isFinite b = true → val ℚ (negF b) = -val ℚ b) ∧
    absF (absF b) = absF b ∧ cat (absF b) = cat b ∧ signOf (absF b) = false ∧
    (isFinite b = true → val ℚ (absF b) = |val ℚ b|))

/-! The rounder. -/

/-- Rules R110, R111: `rne` is round to nearest, ties to even. Below the overflow threshold the result is a finite
pattern of the given sign, no finite pattern is nearer to the exact magnitude, and where one of another magnitude is as
near, the result's last significand bit is 0. -/
def Obligations.RoundsToNearestEven : Prop :=
  ∀ (s : Bool) (q : ℝ), 0 ≤ q → q < 2 ^ 1024 - 2 ^ 970 →
    isFinite (rneOn s q) = true ∧ signOf (rneOn s q) = s ∧
    (∀ b : F64, isFinite b = true → abs (q - |val ℝ (rneOn s q)|) ≤ abs (q - |val ℝ b|)) ∧
    (∀ b : F64, isFinite b = true → abs (q - |val ℝ b|) = abs (q - |val ℝ (rneOn s q)|) →
      |val ℝ b| ≠ |val ℝ (rneOn s q)| → fracOf (rneOn s q) % 2 = 0)

/-- Rules R112 (gradual underflow) and R113 (overflow): below `2^-1022` the exact magnitude is rounded once, to a whole
number of units of `2^-1074`; then the thresholds of both rules. -/
def Obligations.RoundingThresholds : Prop :=
  ∀ (s : Bool) (q : ℝ), 0 ≤ q →
    (q < 2 ^ (-1022 : ℤ) → rneOn s q = BitVec.ofBool s ++ BitVec.ofNat 63 (rheOn (q / 2 ^ (-1074 : ℤ)))) ∧
    (rneOn s q = zeroF s ↔ q ≤ 2 ^ (-1075 : ℤ)) ∧
    (2 ^ (-1075 : ℤ) < q → q < 3 * 2 ^ (-1075 : ℤ) → rneOn s q = BitVec.ofBool s ++ 1#63) ∧
    (q = 3 * 2 ^ (-1075 : ℤ) → rneOn s q = BitVec.ofBool s ++ 2#63) ∧
    (rneOn s q = infF s ↔ 2 ^ 1024 - 2 ^ 970 ≤ q) ∧
    ((2 ^ 53 - 1) * 2 ^ 971 ≤ q → q < 2 ^ 1024 - 2 ^ 970 → rneOn s q = BitVec.ofBool s ++ 0x7FEFFFFFFFFFFFFF#63)

/-- Rules R114, R115: with the sticky flag and at least 54 significant bits, `round_pack` gives the rounding of every
exact magnitude strictly between `N * 2^k` and `(N + 1) * 2^k`; without it, of `N * 2^k` itself. -/
def Obligations.StickyRounding : Prop :=
  (∀ (s : Bool) (N : ℕ) (k : ℤ) (q : ℝ), 2 ^ 53 ≤ N → N * 2 ^ k < q → q < (N + 1) * 2 ^ k →
    roundPack s N k true = rneOn s q) ∧
  (∀ (s : Bool) (N : ℕ) (k : ℤ), roundPack s N k false = rneOn s ((N : ℝ) * 2 ^ k))

/-- Rule R116 (a) to (e): exactness, monotonicity, sign symmetry, never a NaN, and the error bound of `rne`. -/
def Obligations.RoundingProperties : Prop :=
  (∀ b : F64, isFinite b = true → rneOn (signOf b) |val ℝ b| = b) ∧
  (∀ q1 q2 : ℝ, 0 ≤ q1 → q1 ≤ q2 → (rneOn false q1).toNat ≤ (rneOn false q2).toNat) ∧
  (∀ q : ℝ, 0 ≤ q → rneOn true q = rneOn false q ^^^ 0x8000000000000000#64) ∧
  (∀ (s : Bool) (q : ℝ), 0 ≤ q → cat (rneOn s q) ≠ .nan) ∧
  (∀ (s : Bool) (q : ℝ), 2 ^ (-1022 : ℤ) ≤ q → q < 2 ^ 1024 - 2 ^ 970 →
    abs (|val ℝ (rneOn s q)| - q) ≤ 2 ^ (Int.log 2 q - 53))

/-! The arithmetic core. -/

/-- Rule R132: ADD's response for every pair of patterns; case 5 is the exact sum rounded once, an exact zero taking
the sign of rule R131. -/
def Obligations.AddResult : Prop :=
  ∀ s : State, exec .add s = .next (s.respond (Resp.ofR (
    if cat s.req.a = .nan ∨ cat s.req.b = .nan then 0x7FF8000000000000#64
    else if cat s.req.a = .infinite ∧ cat s.req.b = .infinite then
      (if signOf s.req.a = signOf s.req.b then s.req.a else 0x7FF8000000000000#64)
    else if cat s.req.a = .infinite then s.req.a
    else if cat s.req.b = .infinite then s.req.b
    else if val ℚ s.req.a + val ℚ s.req.b = 0 then zeroF (signOf s.req.a && signOf s.req.b)
    else rneSigned (val ℚ s.req.a + val ℚ s.req.b))))

/-- Rule R134: SUB of `a` and `b` is ADD of `a` and `b` with its sign bit flipped; on finite operands, the exact
difference rounded once. -/
def Obligations.SubResult : Prop :=
  (∀ s s' : State, s'.req.a = s.req.a → s'.req.b = s.req.b ^^^ 0x8000000000000000#64 →
    ∃ r, exec .sub s = .next (s.respond (Resp.ofR r)) ∧ exec .add s' = .next (s'.respond (Resp.ofR r))) ∧
  (∀ s : State, isFinite s.req.a = true → isFinite s.req.b = true →
    exec .sub s = .next (s.respond (Resp.ofR (
      if val ℚ s.req.a = val ℚ s.req.b then zeroF (signOf s.req.a && !signOf s.req.b)
      else rneSigned (val ℚ s.req.a - val ℚ s.req.b)))))

/-- Rule R136: MUL's response for every pair of patterns; case 4 is the exact product rounded once, its sign the
exclusive or of the signs, for a zero product too. -/
def Obligations.MulResult : Prop :=
  ∀ s : State, exec .mul s = .next (s.respond (Resp.ofR (
    if cat s.req.a = .nan ∨ cat s.req.b = .nan then 0x7FF8000000000000#64
    else if (cat s.req.a = .infinite ∧ cat s.req.b = .zero) ∨ (cat s.req.a = .zero ∧ cat s.req.b = .infinite) then
      0x7FF8000000000000#64
    else if cat s.req.a = .infinite ∨ cat s.req.b = .infinite then infF (signOf s.req.a ^^ signOf s.req.b)
    else rneOn (signOf s.req.a ^^ signOf s.req.b) |val ℚ s.req.a * val ℚ s.req.b|)))

/-- Rule R139: DIV's response for every pair of patterns; case 7 is the exact quotient rounded once. -/
def Obligations.DivResult : Prop :=
  ∀ s : State, exec .div s = .next (s.respond (Resp.ofR (
    if cat s.req.a = .nan ∨ cat s.req.b = .nan then 0x7FF8000000000000#64
    else if cat s.req.a = .infinite ∧ cat s.req.b = .infinite then 0x7FF8000000000000#64
    else if cat s.req.a = .zero ∧ cat s.req.b = .zero then 0x7FF8000000000000#64
    else if cat s.req.a = .infinite then infF (signOf s.req.a ^^ signOf s.req.b)
    else if cat s.req.b = .infinite then zeroF (signOf s.req.a ^^ signOf s.req.b)
    else if cat s.req.b = .zero then infF (signOf s.req.a ^^ signOf s.req.b)
    else rneOn (signOf s.req.a ^^ signOf s.req.b) |val ℚ s.req.a / val ℚ s.req.b|)))

/-- Rule R142: SQRT's response for every pattern; case 5 is the real square root correctly rounded, and is always a
normal number. -/
def Obligations.SqrtResult : Prop :=
  (∀ s : State, exec .sqrt s = .next (s.respond (Resp.ofR (
    if cat s.req.a = .nan then 0x7FF8000000000000#64
    else if cat s.req.a = .zero then s.req.a
    else if signOf s.req.a then 0x7FF8000000000000#64
    else if cat s.req.a = .infinite then s.req.a
    else rneOn false (Real.sqrt (val ℝ s.req.a))))) ∧
  (∀ a : F64, isFiniteNonzero a = true → signOf a = false → cat (rneOn false (Real.sqrt (val ℝ a))) = .normal))

/-- Rule R145: FMA's response for every triple of patterns; case 5 is the exact `a * b + c` rounded once, an exact
zero taking the sign of rule R131. -/
def Obligations.FmaResult : Prop :=
  ∀ s : State, exec .fma s = .next (s.respond (Resp.ofR (
    if cat s.req.a = .nan ∨ cat s.req.b = .nan ∨ cat s.req.c = .nan then 0x7FF8000000000000#64
    else if (cat s.req.a = .infinite ∧ cat s.req.b = .zero) ∨ (cat s.req.a = .zero ∧ cat s.req.b = .infinite) then
      0x7FF8000000000000#64
    else if cat s.req.a = .infinite ∨ cat s.req.b = .infinite then
      (if cat s.req.c = .infinite ∧ signOf s.req.c ≠ (signOf s.req.a ^^ signOf s.req.b) then 0x7FF8000000000000#64
       else infF (signOf s.req.a ^^ signOf s.req.b))
    else if cat s.req.c = .infinite then s.req.c
    else if val ℚ s.req.a * val ℚ s.req.b + val ℚ s.req.c ≠ 0 then
      rneSigned (val ℚ s.req.a * val ℚ s.req.b + val ℚ s.req.c)
    else if (cat s.req.a = .zero ∨ cat s.req.b = .zero) ∧ cat s.req.c = .zero then
      zeroF ((signOf s.req.a ^^ signOf s.req.b) && signOf s.req.c)
    else zeroF false)))

/-- Rules R132, R135, R136: ADD and MUL are commutative bit for bit, on every pair of patterns; `x + (-x)` is `+0` for
every finite `x`; `(-0) + (-0)` is `-0`. -/
def Obligations.SumsAndCommutation : Prop :=
  (∀ s s' : State, s'.req.a = s.req.b → s'.req.b = s.req.a →
    (∃ r, exec .add s = .next (s.respond r) ∧ exec .add s' = .next (s'.respond r)) ∧
    (∃ r, exec .mul s = .next (s.respond r) ∧ exec .mul s' = .next (s'.respond r))) ∧
  (∀ s : State, isFinite s.req.a = true → s.req.b = negF s.req.a →
    exec .add s = .next (s.respond (Resp.ofR (zeroF false)))) ∧
  (∀ s : State, s.req.a = zeroF true → s.req.b = zeroF true →
    exec .add s = .next (s.respond (Resp.ofR (zeroF true))))

/-- Rule R133: the adder's datapath with guard, round and sticky bits gives the pattern of ADD for every pair of finite
operands. The rule marks this equality "from general knowledge, not in source"; `exec` follows rule R132 and uses no
datapath (notes/assumptions/20.md). -/
def Obligations.AdderDatapath : Prop :=
  ∀ s : State, isFinite s.req.a = true → isFinite s.req.b = true →
    exec .add s = .next (s.respond (Resp.ofR (addDatapath s.req.a s.req.b)))

/-- Rules R137, R140: the multiplier's and the divider's datapaths give the patterns of MUL and DIV for every pair of
non-zero finite operands, the product and the quotient lying in the ranges the rules give. -/
def Obligations.MulDivDatapaths : Prop :=
  ∀ s : State, isFiniteNonzero s.req.a = true → isFiniteNonzero s.req.b = true →
    exec .mul s = .next (s.respond (Resp.ofR (mulDatapath s.req.a s.req.b))) ∧
    exec .div s = .next (s.respond (Resp.ofR (divDatapath s.req.a s.req.b))) ∧
    2 ^ 104 ≤ (norm s.req.a).1 * (norm s.req.b).1 ∧ (norm s.req.a).1 * (norm s.req.b).1 < 2 ^ 106 ∧
    2 ^ 54 < (norm s.req.a).1 * 2 ^ 55 / (norm s.req.b).1 ∧ (norm s.req.a).1 * 2 ^ 55 / (norm s.req.b).1 < 2 ^ 56

/-- Rule R144: SQRT of MUL `x, x` lies within one ordinal step of `abs(x)` where the product neither underflows nor
overflows; it is `+0` for a subnormal `x` and `+Inf` for a finite `x` of magnitude `2^512` and above. -/
def Obligations.SqrtOfSquare : Prop :=
  ∀ (s s' : State) (m : F64), s.req.b = s.req.a → exec .mul s = .next (s.respond (Resp.ofR m)) → s'.req.a = m →
    ∃ r, exec .sqrt s' = .next (s'.respond (Resp.ofR r)) ∧
      (isFinite s.req.a = true → 2 ^ (-511 : ℤ) ≤ |val ℚ s.req.a| → |val ℚ s.req.a| < 2 ^ 512 →
        |key r - key (absF s.req.a)| ≤ 1) ∧
      (cat s.req.a = .subnormal → r = zeroF false) ∧
      (isFinite s.req.a = true → 2 ^ 512 ≤ |val ℚ s.req.a| → r = infF false)

/-! The comparator. -/

/-- Rules R170 to R172: CMP's response for every pair of patterns; the key orders the patterns that are no NaN as the
extended real line with the two zeros identified; exchanging the operands exchanges less and greater. -/
def Obligations.CompareResult : Prop :=
  (∀ s : State, exec .cmp s = .next (s.respond (Resp.ofCC (
    if cat s.req.a = .nan ∨ cat s.req.b = .nan then 3#3
    else if key s.req.a < key s.req.b then 1#3
    else if key s.req.b < key s.req.a then 2#3
    else 0#3)))) ∧
  (∀ a b : F64, isFinite a = true → isFinite b = true →
    (key a < key b ↔ val ℚ a < val ℚ b) ∧ (key a = key b ↔ val ℚ a = val ℚ b) ∧
    key a < key (infF false) ∧ key (infF true) < key a) ∧
  key (infF false) = 0x7FF0000000000000 ∧
  (∀ s s' : State, s'.req.a = s.req.b → s'.req.b = s.req.a →
    ∃ c c', exec .cmp s = .next (s.respond (Resp.ofCC c)) ∧ exec .cmp s' = .next (s'.respond (Resp.ofCC c')) ∧
      (c = 3#3 ↔ c' = 3#3) ∧ (c = 1#3 ↔ c' = 2#3) ∧ (c = 0#3 ↔ c' = 0#3))

/-! The integer converters. -/

/-- Rules R230, R232 to R239: the eight I2F operations: zero gives `+0`, any other integer is rounded once, and up to
`2^53` in magnitude (every 8-, 16- and 32-bit integer) exactly; the bits above the operand are ignored. -/
def Obligations.IntToFloatResult : Prop :=
  ∃ conv : ℤ → F64, (∀ v : ℤ, conv v = if v = 0 then zeroF false else rneSigned (v : ℚ)) ∧
    (∀ v : ℤ, |v| ≤ 2 ^ 53 → val ℚ (conv v) = v) ∧ ∀ s : State,
    exec .i2fS8 s = .next (s.respond (Resp.ofR (conv (s.req.a.setWidth 8).toInt))) ∧
    exec .i2fU8 s = .next (s.respond (Resp.ofR (conv (s.req.a.setWidth 8).toNat))) ∧
    exec .i2fS16 s = .next (s.respond (Resp.ofR (conv (s.req.a.setWidth 16).toInt))) ∧
    exec .i2fU16 s = .next (s.respond (Resp.ofR (conv (s.req.a.setWidth 16).toNat))) ∧
    exec .i2fS32 s = .next (s.respond (Resp.ofR (conv (s.req.a.setWidth 32).toInt))) ∧
    exec .i2fU32 s = .next (s.respond (Resp.ofR (conv (s.req.a.setWidth 32).toNat))) ∧
    exec .i2fS64 s = .next (s.respond (Resp.ofR (conv s.req.a.toInt))) ∧
    exec .i2fU64 s = .next (s.respond (Resp.ofR (conv s.req.a.toNat)))

/-- Rule R230: the conversion of an integer of up to 64 bits is `+0` or the integer rounded once, never a NaN, an
infinity, a subnormal or `-0`, and exact up to `2^53` in magnitude; rule R231(a), (b): it is monotone and odd. -/
def Obligations.IntToFloatExact : Prop :=
  (∀ v : ℤ, i2f v = if v = 0 then zeroF false else rneSigned (v : ℚ)) ∧
  (∀ v : ℤ, |v| ≤ 2 ^ 53 → val ℚ (i2f v) = v) ∧
  (∀ v : ℤ, |v| ≤ 2 ^ 64 → (cat (i2f v) = .zero ∨ cat (i2f v) = .normal) ∧ i2f v ≠ zeroF true) ∧
  (∀ v w : ℤ, |v| ≤ 2 ^ 64 → |w| ≤ 2 ^ 64 → v ≤ w → key (i2f v) ≤ key (i2f w)) ∧
  (∀ v : ℤ, v ≠ 0 → i2f (-v) = negF (i2f v))

/-- Rules R240, R242 to R249: the eight F2I operations: NaN gives 0, an infinity the nearer end of the range, and a
finite value its integer part, toward zero, saturated at the ends; signed results are sign-extended, unsigned ones
zero-extended (rule R68). -/
def Obligations.FloatToIntResult : Prop :=
  ∃ conv : F64 → ℤ → ℤ → ℤ,
    (∀ (a : F64) (lo hi : ℤ), conv a lo hi =
      if cat a = .nan then 0
      else if cat a = .infinite then (if signOf a then lo else hi)
      else max lo (min hi (if 0 ≤ val ℚ a then ⌊val ℚ a⌋ else ⌈val ℚ a⌉))) ∧ ∀ s : State,
    exec .f2iS8 s = .next (s.respond (Resp.ofR ((BitVec.ofInt 8 (conv s.req.a (-128) 127)).signExtend 64))) ∧
    exec .f2iU8 s = .next (s.respond (Resp.ofR ((BitVec.ofInt 8 (conv s.req.a 0 255)).zeroExtend 64))) ∧
    exec .f2iS16 s = .next (s.respond (Resp.ofR ((BitVec.ofInt 16 (conv s.req.a (-32768) 32767)).signExtend 64))) ∧
    exec .f2iU16 s = .next (s.respond (Resp.ofR ((BitVec.ofInt 16 (conv s.req.a 0 65535)).zeroExtend 64))) ∧
    exec .f2iS32 s = .next (s.respond (Resp.ofR ((BitVec.ofInt 32 (conv s.req.a (-2147483648) 2147483647)).signExtend 64))) ∧
    exec .f2iU32 s = .next (s.respond (Resp.ofR ((BitVec.ofInt 32 (conv s.req.a 0 4294967295)).zeroExtend 64))) ∧
    exec .f2iS64 s = .next (s.respond (Resp.ofR (BitVec.ofInt 64
      (conv s.req.a (-9223372036854775808) 9223372036854775807)))) ∧
    exec .f2iU64 s = .next (s.respond (Resp.ofR (BitVec.ofInt 64 (conv s.req.a 0 18446744073709551615))))

/-- Rule R231(c): for the 8-, 16- and 32-bit types, F2I of I2F gives back every integer, extended as rule R68 places
it. -/
def Obligations.IntegerRoundTrip : Prop :=
  ∀ (i j : Instr) (n : ℕ) (signed : Bool),
    (i, j, n, signed) ∈ [(Instr.i2fS8, Instr.f2iS8, 8, true), (.i2fU8, .f2iU8, 8, false),
      (.i2fS16, .f2iS16, 16, true), (.i2fU16, .f2iU16, 16, false), (.i2fS32, .f2iS32, 32, true),
      (.i2fU32, .f2iU32, 32, false)] →
    ∀ (s s' : State) (r : F64), exec i s = .next (s.respond (Resp.ofR r)) → s'.req.a = r →
      exec j s' = .next (s'.respond (Resp.ofR
        (if signed then (s.req.a.setWidth n).signExtend 64 else (s.req.a.setWidth n).setWidth 64)))

/-- The datapaths of rules R231 (integers up to `2^64` in magnitude) and R241 (the integer part, and which operands give
0), each the same as the function of its rule. -/
def Obligations.ConversionDatapaths : Prop :=
  (∀ v : ℤ, v ≠ 0 → |v| ≤ 2 ^ 64 → i2fDatapath v = i2f v) ∧
  (∀ a : F64, isFinite a = true →
    truncDatapath a = (if 0 ≤ val ℚ a then ⌊val ℚ a⌋ else ⌈val ℚ a⌉) ∧ (|val ℚ a| < 1 → truncDatapath a = 0))

/-! The float32 converters. -/

/-- Rule R262: F32TOF64's response for every float32 pattern; widening is exact, a float32 subnormal becomes a float64
normal, and the rule's datapath gives the same pattern. -/
def Obligations.WidenResult : Prop :=
  ∀ (s : State) (w : F32), w = s.req.a.setWidth 32 → ∃ r, exec .f32ToF64 s = .next (s.respond (Resp.ofR r)) ∧
    (cat32 w = .nan → r = 0x7FF8000000000000#64) ∧ (cat32 w = .infinite → r = infF (signOf32 w)) ∧
    (cat32 w = .zero → r = zeroF (signOf32 w)) ∧
    (cat32 w = .subnormal ∨ cat32 w = .normal →
      r = rneOn (signOf32 w) |val32 ℚ w| ∧ val ℚ r = val32 ℚ w ∧ cat r = .normal ∧ r = widenDatapath w)

/-- Rule R263: F64TOF32's response for every pattern; a finite value is rounded once to float32, with the thresholds of
overflow and underflow the rule gives. -/
def Obligations.NarrowResult : Prop :=
  ∀ s : State, ∃ w : F32, exec .f64ToF32 s = .next (s.respond (Resp.ofR (w.setWidth 64))) ∧
    (cat s.req.a = .nan → w = 0x7FC00000#32) ∧ (cat s.req.a = .infinite → w = infF32 (signOf s.req.a)) ∧
    (cat s.req.a = .zero → w = zeroF32 (signOf s.req.a)) ∧
    (isFiniteNonzero s.req.a = true → w = rne32On (signOf s.req.a) |val ℚ s.req.a| ∧
      (w = infF32 (signOf s.req.a) ↔ 2 ^ 128 - 2 ^ 103 ≤ |val ℚ s.req.a|) ∧
      (w = zeroF32 (signOf s.req.a) ↔ |val ℚ s.req.a| ≤ 2 ^ (-150 : ℤ)))

/-- Rule R264 (a) to (d): narrowing undoes widening; widening undoes narrowing exactly on the infinities and the
float32 values; both keep the sign; narrowing is monotone. (For `CANON_NAN`, of which clause (b) does not speak,
widening also undoes narrowing: the clause is stated of the patterns that are no NaN; notes/assumptions/22.md.) -/
def Obligations.Float32RoundTrip : Prop :=
  (∀ w : F32, narrowF (widenF w) = if cat32 w = .nan then 0x7FC00000#32 else w) ∧
  (∀ a : F64, cat a ≠ .nan → (widenF (narrowF a) = a ↔
    cat a = .infinite ∨ (isFinite a = true ∧
      ∃ w : F32, cat32 w ≠ .nan ∧ cat32 w ≠ .infinite ∧ val32 ℚ w = val ℚ a))) ∧
  (∀ w : F32, cat32 w ≠ .nan → signOf (widenF w) = signOf32 w) ∧
  (∀ a : F64, cat a ≠ .nan → signOf32 (narrowF a) = signOf a) ∧
  (∀ a b : F64, cat a ≠ .nan → cat b ≠ .nan → key a ≤ key b → key (widenF (narrowF a)) ≤ key (widenF (narrowF b)))

/-! The transcendental engine. `engine.transUlp` and `engine.powUlp` are the open parameters `TRANS_ULP` and `POW_ULP`
of rule R6; a function of the operand patterns is rule R184(d). -/

/-- Rules R190 to R192: SIN, COS and TAN are functions of the operand pattern; the exact cases, and the accuracy
contract of rule R184 in the last case, where the sine is never 0. -/
def Obligations.TrigResult : Prop :=
  ∃ sinR cosR tanR : F64 → F64,
    (∀ s : State, exec .sin s = .next (s.respond (Resp.ofR (sinR s.req.a))) ∧
      exec .cos s = .next (s.respond (Resp.ofR (cosR s.req.a))) ∧
      exec .tan s = .next (s.respond (Resp.ofR (tanR s.req.a)))) ∧
    (∀ a : F64, cat a = .nan ∨ cat a = .infinite →
      sinR a = 0x7FF8000000000000#64 ∧ cosR a = 0x7FF8000000000000#64 ∧ tanR a = 0x7FF8000000000000#64) ∧
    (∀ a : F64, cat a = .zero → sinR a = a ∧ cosR a = 0x3FF0000000000000#64 ∧ tanR a = a) ∧
    (∀ a : F64, isFiniteNonzero a = true →
      Accurate engine.transUlp (Real.sin (val ℝ a)) (sinR a) ∧ Real.sin (val ℝ a) ≠ 0 ∧
      Accurate engine.transUlp (Real.cos (val ℝ a)) (cosR a) ∧
      Accurate engine.transUlp (Real.tan (val ℝ a)) (tanR a) ∧ Real.cos (val ℝ a) ≠ 0)

/-- Rules R194 to R196: ASIN, ACOS and ATAN are functions of the operand pattern; the exact cases, the domain errors,
and the accuracy contract of rule R184 in the last case. -/
def Obligations.InverseTrigResult : Prop :=
  ∃ asinR acosR atanR : F64 → F64,
    (∀ s : State, exec .asin s = .next (s.respond (Resp.ofR (asinR s.req.a))) ∧
      exec .acos s = .next (s.respond (Resp.ofR (acosR s.req.a))) ∧
      exec .atan s = .next (s.respond (Resp.ofR (atanR s.req.a)))) ∧
    (∀ a : F64, cat a = .nan ∨ cat a = .infinite ∨ (isFinite a = true ∧ 1 < |val ℚ a|) →
      asinR a = 0x7FF8000000000000#64 ∧ acosR a = 0x7FF8000000000000#64) ∧
    (∀ a : F64, cat a = .zero → asinR a = a ∧ atanR a = a) ∧
    (∀ a : F64, isFinite a = true → val ℚ a = 1 → acosR a = zeroF false) ∧
    (∀ a : F64, isFiniteNonzero a = true → |val ℚ a| ≤ 1 →
      Accurate engine.transUlp (Real.arcsin (val ℝ a)) (asinR a)) ∧
    (∀ a : F64, isFinite a = true → |val ℚ a| ≤ 1 → val ℚ a ≠ 1 →
      Accurate engine.transUlp (Real.arccos (val ℝ a)) (acosR a)) ∧
    (∀ a : F64, cat a = .nan → atanR a = 0x7FF8000000000000#64) ∧
    (∀ a : F64, cat a = .infinite → atanR a = if signOf a then 0xBFF921FB54442D18#64 else 0x3FF921FB54442D18#64) ∧
    (∀ a : F64, isFiniteNonzero a = true → Accurate engine.transUlp (Real.arctan (val ℝ a)) (atanR a))

/-- Rule R197: ATAN2 of y (`req.a`) and x (`req.b`) is a function of the two patterns; the exact cases in order, and
the accuracy contract of rule R184 for the angle of the point (x, y) in the last case. -/
def Obligations.Atan2Result : Prop :=
  ∃ f : F64 → F64 → F64,
    (∀ s : State, exec .atan2 s = .next (s.respond (Resp.ofR (f s.req.a s.req.b)))) ∧
    ∀ a b : F64,
      (cat a = .nan ∨ cat b = .nan → f a b = 0x7FF8000000000000#64) ∧
      (cat a ≠ .nan → cat b ≠ .nan →
        (cat a = .zero → f a b = if signOf b then withSign (signOf a) 0x400921FB54442D18#64 else zeroF (signOf a)) ∧
        (cat a ≠ .zero → cat b = .zero → f a b = withSign (signOf a) 0x3FF921FB54442D18#64) ∧
        (cat a = .infinite → cat b = .infinite →
          f a b = if signOf b then withSign (signOf a) 0x4002D97C7F3321D2#64
                  else withSign (signOf a) 0x3FE921FB54442D18#64) ∧
        (cat a = .infinite → isFiniteNonzero b = true → f a b = withSign (signOf a) 0x3FF921FB54442D18#64) ∧
        (isFiniteNonzero a = true → cat b = .infinite →
          f a b = if signOf b then withSign (signOf a) 0x400921FB54442D18#64 else zeroF (signOf a)) ∧
        (isFiniteNonzero a = true → isFiniteNonzero b = true →
          Accurate engine.transUlp (Complex.arg ⟨val ℝ b, val ℝ a⟩) (f a b)))

/-- Rules R199, R200: EXP and LOG are functions of the operand pattern; the exact cases, the pole and the domain
error, and the accuracy contract of rule R184 in the last case. -/
def Obligations.ExpLogResult : Prop :=
  ∃ expR logR : F64 → F64,
    (∀ s : State, exec .exp s = .next (s.respond (Resp.ofR (expR s.req.a))) ∧
      exec .log s = .next (s.respond (Resp.ofR (logR s.req.a)))) ∧
    ∀ a : F64,
      (cat a = .nan → expR a = 0x7FF8000000000000#64 ∧ logR a = 0x7FF8000000000000#64) ∧
      (cat a = .zero → expR a = 0x3FF0000000000000#64 ∧ logR a = infF true) ∧
      (cat a = .infinite → expR a = if signOf a then zeroF false else infF false) ∧
      (isFiniteNonzero a = true → Accurate engine.transUlp (Real.exp (val ℝ a)) (expR a)) ∧
      (cat a ≠ .nan → cat a ≠ .zero → signOf a = true → logR a = 0x7FF8000000000000#64) ∧
      (cat a = .infinite → signOf a = false → logR a = infF false) ∧
      (isFinite a = true → val ℚ a = 1 → logR a = zeroF false) ∧
      (isFinite a = true → 0 < val ℚ a → val ℚ a ≠ 1 → Accurate engine.transUlp (Real.log (val ℝ a)) (logR a))

/-- Rule R201: `isint` and `isodd` say of a finite pattern that its value is an integer, an odd integer; an infinite or
NaN pattern satisfies neither; a finite pattern of magnitude `2^53` and above is an even integer. -/
def Obligations.IntegerTests : Prop :=
  ∀ b : F64,
    (isFinite b = true → ((isInt b = true ↔ ∃ n : ℤ, val ℚ b = n) ∧ (isOdd b = true ↔ ∃ n : ℤ, val ℚ b = 2 * n + 1))) ∧
    (isFinite b = false → isInt b = false ∧ isOdd b = false) ∧
    (isFinite b = true → 2 ^ 53 ≤ |val ℚ b| → isInt b = true ∧ isOdd b = false)

/-- Rule R202: POW is a function of the two patterns; its cases in order, and the accuracy contract of rule R184 with
`POW_ULP` in the last one. -/
def Obligations.PowResult : Prop :=
  ∃ f : F64 → F64 → F64,
    (∀ s : State, exec .pow s = .next (s.respond (Resp.ofR (f s.req.a s.req.b)))) ∧
    ∀ a b : F64,
      if cat b = .zero then f a b = 0x3FF0000000000000#64
      else if cat a = .nan ∨ cat b = .nan then f a b = 0x7FF8000000000000#64
      else if a = 0x3FF0000000000000#64 then f a b = 0x3FF0000000000000#64
      else if a = 0xBFF0000000000000#64 ∧ cat b = .infinite then f a b = 0x3FF0000000000000#64
      else if cat a = .zero then
        f a b = (if signOf b then (if isOdd b then infF (signOf a) else infF false)
                 else (if isOdd b then zeroF (signOf a) else zeroF false))
      else if cat b = .infinite then
        f a b = (if (cat a = .infinite ∨ 1 < |val ℚ a|) ↔ signOf b = false then infF false else zeroF false)
      else if cat a = .infinite then
        f a b = (if signOf a then (if signOf b then (if isOdd b then zeroF true else zeroF false)
                                   else (if isOdd b then infF true else infF false))
                 else (if signOf b then zeroF false else infF false))
      else if signOf a = true ∧ isInt b = false then f a b = 0x7FF8000000000000#64
      else Accurate engine.powUlp
        ((if signOf a = true ∧ isOdd b = true then -1 else 1) * |val ℝ a| ^ (val ℝ b)) (f a b)

/-- Rules R205 to R207: SINH, COSH and TANH are functions of the operand pattern; the exact cases, and the accuracy
contract of rule R184 in the last case for the functions the rules define by exponentials. -/
def Obligations.HyperbolicResult : Prop :=
  ∃ sinhR coshR tanhR : F64 → F64,
    (∀ s : State, exec .sinh s = .next (s.respond (Resp.ofR (sinhR s.req.a))) ∧
      exec .cosh s = .next (s.respond (Resp.ofR (coshR s.req.a))) ∧
      exec .tanh s = .next (s.respond (Resp.ofR (tanhR s.req.a)))) ∧
    ∀ a : F64,
      (cat a = .nan → sinhR a = 0x7FF8000000000000#64 ∧ coshR a = 0x7FF8000000000000#64 ∧
        tanhR a = 0x7FF8000000000000#64) ∧
      (cat a = .zero → sinhR a = a ∧ coshR a = 0x3FF0000000000000#64 ∧ tanhR a = a) ∧
      (cat a = .infinite → sinhR a = a ∧ coshR a = infF false ∧
        tanhR a = if signOf a then 0xBFF0000000000000#64 else 0x3FF0000000000000#64) ∧
      (isFiniteNonzero a = true →
        Accurate engine.transUlp ((Real.exp (val ℝ a) - Real.exp (-val ℝ a)) / 2) (sinhR a) ∧
        Accurate engine.transUlp ((Real.exp (val ℝ a) + Real.exp (-val ℝ a)) / 2) (coshR a) ∧
        Accurate engine.transUlp ((Real.exp (val ℝ a) - Real.exp (-val ℝ a)) /
          (Real.exp (val ℝ a) + Real.exp (-val ℝ a))) (tanhR a))

/-- Rules R186 to R189, informative methods no operation's result depends on: the quadrant table rebuilds the sine, the
cosine and the tangent from an argument reduced to at most pi/4; `n` CORDIC rotations turn the start vector by exactly
the angle already subtracted and stretch it by the product of the gains; the reductions of ATAN, EXP and LOG are exact
identities (notes/assumptions/20.md). -/
def Obligations.MethodIdentities : Prop :=
  (∀ (x rho : ℝ) (k : ℤ), k = quadrantCount Real.pi x → rho = reducedArgument Real.pi x →
    |rho| ≤ Real.pi / 4 ∧ Real.sin x = quadrantSin (k % 4) (Real.sin rho) (Real.cos rho) ∧
    Real.cos x = quadrantCos (k % 4) (Real.sin rho) (Real.cos rho) ∧
    Real.tan x = quadrantTan (k % 4) (Real.tan rho)) ∧
  (∀ (gain rho : ℝ) (n : ℕ), ∃ z : ℝ,
    cordic (fun i => Real.arctan (1 / 2 ^ i)) gain rho n =
      (gain * (∏ i ∈ Finset.range n, Real.sqrt (1 + (1 / 2 ^ i) ^ 2)) * Real.cos (rho - z),
       gain * (∏ i ∈ Finset.range n, Real.sqrt (1 + (1 / 2 ^ i) ^ 2)) * Real.sin (rho - z), z)) ∧
  (∀ x : ℝ, 1 < |x| → Real.arctan x = atanLarge Real.pi x (Real.arctan (1 / x))) ∧
  (∀ x : ℝ, |x - expMultiple (Real.log 2) x * Real.log 2| ≤ Real.log 2 / 2 ∧
    Real.exp x = expRebuild (expMultiple (Real.log 2) x) (Real.exp (x - expMultiple (Real.log 2) x * Real.log 2))) ∧
  (∀ (n : ℤ) (m : ℝ), 0 < m → Real.log (2 ^ n * m) = logRebuild (Real.log 2) n (Real.log m))

/-! The decimal codec. -/

/-- Rules R271, R272, R274 to R278: TODEC's response for every operand and every value of the parameters: the sign, the
category, the digits (the magnitude rounded half to even to `n` significant digits, trailing zeros removed), the
decimal exponent and the text in fixed or exponential notation. -/
def Obligations.TodecResult : Prop :=
  ∀ (p0 p1 : BitVec 8) (s : State) (a : F64), a = s.req.a → ∃ R : Resp,
    exec (.todec p0 p1) s = .next (s.respond R) ∧ R.r = 0#64 ∧ R.cc = (cat a).code ∧
    (cat a = .nan → R.sgn = 0#1 ∧ R.dlen = 0#5 ∧ R.x = 0#16 ∧ R.txt.bytes R.tlen.toNat = [0x6E#8, 0x61#8, 0x6E#8]) ∧
    (cat a ≠ .nan → R.sgn = a.extractLsb' 63 1) ∧
    ∀ sg : List Byte, sg = (if signOf a then [0x2D#8] else []) →
      (cat a = .infinite → R.dlen = 0#5 ∧ R.x = 0#16 ∧
        R.txt.bytes R.tlen.toNat = sg ++ [0x69#8, 0x6E#8, 0x66#8]) ∧
      (cat a = .zero → R.dig.bytes R.dlen.toNat = [0x30#8] ∧ R.x = 0#16 ∧
        R.txt.bytes R.tlen.toNat = sg ++ [0x30#8]) ∧
      (isFiniteNonzero a = true → ∀ (q : ℚ) (n : ℕ) (k e0 : ℤ) (D D' : ℕ) (dig : List Byte),
        q = |val ℚ a| → n = min (max p0.toNat 1) 17 → k = Int.log 10 q → D = rheOn (q / 10 ^ (k - n + 1)) →
        D' = (if D = 10 ^ n then 10 ^ (n - 1) else D) → e0 = (if D = 10 ^ n then k + 1 else k) →
        dig = (((Nat.digits 10 D').dropWhile (fun d => d == 0)).reverse.map (fun d => BitVec.ofNat 8 (0x30 + d))) →
        R.dig.bytes R.dlen.toNat = dig ∧ R.x = BitVec.ofInt 16 e0 ∧ -324 ≤ e0 ∧ e0 ≤ 308 ∧
        R.txt.bytes R.tlen.toNat =
          if 0 ≤ e0 ∧ e0 < n then
            sg ++ (dig.take (e0.toNat + 1) ++ List.replicate (e0.toNat + 1 - dig.length) 0x30#8) ++
              (if dig.length ≤ e0.toNat + 1 then [] else 0x2E#8 :: dig.drop (e0.toNat + 1))
          else if e0 < 0 ∧ -e0 - 1 ≤ p1.toNat then
            sg ++ [0x30#8, 0x2E#8] ++ List.replicate (-e0 - 1).toNat 0x30#8 ++ dig
          else
            sg ++ dig.take 1 ++ (if 1 < dig.length then 0x2E#8 :: dig.drop 1 else []) ++
              [0x45#8, if e0 < 0 then 0x2D#8 else 0x2B#8] ++
              (Nat.digits 10 e0.natAbs).reverse.map (fun d => BitVec.ofNat 8 (0x30 + d)))

/-- Rules R281(a), R284: the bounds on what TODEC writes: at most 17 digits and 275 bytes of text, zero past them; for
a finite non-zero operand 1 to `n` digits, the first not '0', the last not '0', all of them ASCII digits, and the
decimal exponent between -324 and 308 (rule R271). -/
def Obligations.TodecShape : Prop :=
  ∀ (p0 p1 : BitVec 8) (s : State), ∃ R : Resp, exec (.todec p0 p1) s = .next (s.respond R) ∧ R.shaped = true ∧
    R.dlen.toNat ≤ 17 ∧ R.tlen.toNat ≤ 275 ∧
    (isFiniteNonzero s.req.a = true →
      1 ≤ R.dlen.toNat ∧ R.dlen.toNat ≤ min (max p0.toNat 1) 17 ∧
      R.dig.read 0 ≠ 0x30#8 ∧ R.dig.read (R.dlen.toNat - 1) ≠ 0x30#8 ∧
      (∀ j, j < R.dlen.toNat → isDigitByte (R.dig.read j) = true) ∧ -324 ≤ R.x.toInt ∧ R.x.toInt ≤ 308)

/-- Rule R280, the round trip: for every finite pattern, zeros of both signs included, every `p0 >= 17` and every `p1`,
where the text fits a PARSE request (always for `p1 <= 235`), PARSE of TODEC's text gives back the same 64 bits and
consumes the whole text; the digits and the exponent denote a number that correctly rounded is the operand. -/
def Obligations.DecimalRoundTrip : Prop :=
  ∀ (p0 p1 : BitVec 8) (s : State), isFinite s.req.a = true → 17 ≤ p0.toNat → ∃ R : Resp,
    exec (.todec p0 p1) s = .next (s.respond R) ∧ (p1.toNat ≤ 235 → R.tlen.toNat ≤ txtInMax) ∧
    (∀ s' : State, R.tlen.toNat ≤ txtInMax → s'.req.len.toNat = R.tlen.toNat →
      (∀ j, j < R.tlen.toNat → s'.req.txt.read j = R.txt.read j) →
      exec .parse s' = .next (s'.respond { Resp.zero with r := s.req.a, x := R.tlen.setWidth 16 })) ∧
    rneOn (decide (R.sgn = 1#1))
      ((decimalValue (R.dig.bytes R.dlen.toNat) : ℚ) * 10 ^ (R.x.toInt - ((R.dlen.toNat : ℤ) - 1))) = s.req.a

/-- Rules R291 to R293: PARSE matches the longest prefix of the text that the grammar derives and returns its exact
decimal value rounded once, with the number of bytes matched; where the grammar derives no prefix, the value `+0` and
the count 0. -/
def Obligations.ParseResult : Prop :=
  (∀ (s : State) (m : Numeral), m.valid = true → m.text <+: s.req.text →
    (∀ m' : Numeral, m'.valid = true → m'.text <+: s.req.text → m'.text.length ≤ m.text.length) →
    exec .parse s = .next (s.respond
      { Resp.zero with r := rneOn m.negative m.magnitude, x := BitVec.ofNat 16 m.text.length })) ∧
  (∀ s : State, (∀ m : Numeral, m.valid = true → ¬ m.text <+: s.req.text) →
    exec .parse s = .next (s.respond Resp.zero))

/-- Rule R296 (a) to (e): PARSE answers every text, consumes at most `req.len` bytes, never returns a NaN, returns `+0`
where it consumes nothing, and gives the same response to the consumed bytes alone. -/
def Obligations.ParseProperties : Prop :=
  ∀ s : State, ∃ R : Resp, exec .parse s = .next (s.respond R) ∧ R.x.toNat ≤ s.req.len.toNat ∧ cat R.r ≠ .nan ∧
    (R.x = 0#16 → R.r = 0#64) ∧
    (∀ s' : State, R.x ≠ 0#16 → s'.req.len.toNat = R.x.toNat →
      (∀ j, j < R.x.toNat → s'.req.txt.read j = s.req.txt.read j) → exec .parse s' = .next (s'.respond R))

end Statements
end

