-- ==== Sys2Proof/Laws/Rounder.lean ====
section
/-! SUPPORT. The rounder's integer functions are the functions of rules R111 and R117 over an ordered field: what a
proof about a result cites instead of unfolding `rne`. -/

namespace Sys2Proof.Machine

section Field

variable {K : Type} [Field K] [LinearOrder K] [IsStrictOrderedRing K] [FloorRing K]

/-- The integer `rhe` is `rhe` of the quotient (rule R111). -/
theorem rhe_eq_rheOn (num den : Nat) (hd : 0 < den) : rhe num den = rheOn ((num : K) / den) := by
  have hd' : (0 : K) < den := Nat.cast_pos.mpr hd
  have hf : ⌊(num : K) / den⌋₊ = num / den := Nat.floor_div_eq_div num den
  have hx : (num : K) / den - (num / den : ℕ) = ((num % den : ℕ) : K) / den := by
    rw [sub_eq_iff_eq_add, div_eq_iff hd'.ne', add_mul, div_mul_cancel₀ _ hd'.ne']
    have := Nat.div_add_mod num den
    calc (num : K) = ((den * (num / den) + num % den : ℕ) : K) := by rw [this]
      _ = _ := by push_cast; ring
  have h1 : (1 / 2 : K) < ((num % den : ℕ) : K) / den ↔ den < 2 * (num % den) := by
    rw [div_lt_div_iff₀ two_pos hd', one_mul]
    constructor
    · intro h; have : ((den : ℕ) : K) < ((num % den * 2 : ℕ) : K) := by push_cast; exact h
      have := Nat.cast_lt.mp this; omega
    · intro h; have : ((den : ℕ) : K) < ((num % den * 2 : ℕ) : K) := Nat.cast_lt.mpr (by omega)
      push_cast at this; exact this
  have h2 : ((num % den : ℕ) : K) / den = 1 / 2 ↔ 2 * (num % den) = den := by
    rw [div_eq_div_iff hd'.ne' two_ne_zero, one_mul]
    constructor
    · intro h; have : ((num % den * 2 : ℕ) : K) = ((den : ℕ) : K) := by push_cast; exact h
      have := Nat.cast_injective this; omega
    · intro h; have : ((num % den * 2 : ℕ) : K) = ((den : ℕ) : K) := by rw [mul_comm, h]
      push_cast at this; exact this
  simp only [rhe, rheOn, hf, hx, h1, h2]

theorem pow2Le_iff (k : Int) (num den : Nat) (hd : 0 < den) :
    pow2Le k num den = true ↔ (2 : K) ^ k ≤ (num : K) / den := by
  have hd' : (0 : K) < den := Nat.cast_pos.mpr hd
  rw [pow2Le, decide_eq_true_iff, le_div_iff₀ hd', ← Nat.cast_le (α := K)]
  push_cast
  rcases Int.eq_nat_or_neg k with ⟨n, rfl | rfl⟩
  · simp [mul_comm]
  · simp only [Int.toNat_neg_natCast, pow_zero, mul_one, neg_neg, Int.toNat_natCast, zpow_neg, zpow_natCast]
    rw [inv_mul_le_iff₀ (by positivity), mul_comm]

/-- The integer `floor(log2 q)` is the exponent of the leading bit (rule R111). -/
theorem floorLog2_eq_log (num den : Nat) (hn : 0 < num) (hd : 0 < den) :
    floorLog2 num den = Int.log 2 ((num : K) / den) := by
  have hn' : (0 : K) < num := Nat.cast_pos.mpr hn
  have hd' : (0 : K) < den := Nat.cast_pos.mpr hd
  have hq : (0 : K) < (num : K) / den := div_pos hn' hd'
  have key : ∀ k : ℤ, (2 : K) ^ k ≤ (num : K) / den → (num : K) / den < (2 : K) ^ (k + 1) →
      Int.log 2 ((num : K) / den) = k := by
    intro k h1 h2
    apply le_antisymm
    · have := (Int.lt_zpow_iff_log_lt (b := 2) one_lt_two hq (x := k + 1)).mp (by exact_mod_cast h2)
      omega
    · exact (Int.zpow_le_iff_le_log (b := 2) one_lt_two hq).mp (by exact_mod_cast h1)
  have bound : ∀ n : ℕ, 0 < n → (2 : K) ^ Nat.log2 n ≤ n ∧ (n : K) < 2 ^ (Nat.log2 n + 1) := by
    intro n hn
    constructor
    · have := Nat.log2_self_le hn.ne'
      exact_mod_cast this
    · have := Nat.lt_log2_self (n := n)
      exact_mod_cast this
  obtain ⟨n1, n2⟩ := bound num hn
  obtain ⟨d1, d2⟩ := bound den hd
  simp only [floorLog2]
  split
  · rename_i h
    refine (key _ ((pow2Le_iff _ _ _ hd).mp h) ?_).symm
    rw [div_lt_iff₀ hd']
    refine n2.trans_le ?_
    have : (2 : K) ^ ((Nat.log2 num : ℤ) - Nat.log2 den + 1) * 2 ^ Nat.log2 den = 2 ^ (Nat.log2 num + 1) := by
      rw [← zpow_natCast, ← zpow_natCast, ← zpow_add₀ two_ne_zero]; congr 1; push_cast; ring
    rw [← this]
    exact mul_le_mul_of_nonneg_left d1 (by positivity)
  · rename_i h
    refine (key _ ?_ ?_).symm
    · rw [le_div_iff₀ hd']
      refine le_trans ?_ n1
      have : (2 : K) ^ ((Nat.log2 num : ℤ) - Nat.log2 den - 1) * 2 ^ (Nat.log2 den + 1) = 2 ^ Nat.log2 num := by
        rw [← zpow_natCast, ← zpow_natCast, ← zpow_add₀ two_ne_zero]; congr 1; push_cast; ring
      rw [← this]
      exact mul_le_mul_of_nonneg_left d2.le (by positivity)
    · rw [sub_add_cancel]
      exact not_le.mp (fun h' => h ((pow2Le_iff _ _ _ hd).mpr h'))

omit [LinearOrder K] [IsStrictOrderedRing K] [FloorRing K] in
/-- `q / 2^k` as numerator and denominator. -/
theorem div_zpow_eq [CharZero K] (num den : Nat) (k : Int) :
    (num : K) / den / 2 ^ k = ((num * 2 ^ (-k).toNat : ℕ) : K) / ((den * 2 ^ k.toNat : ℕ) : K) := by
  rcases Int.eq_nat_or_neg k with ⟨n, rfl | rfl⟩
  · simp [div_div]
  · simp [div_mul_eq_mul_div]

/-- The integer `rne_fmt` is the one of rule R117. -/
theorem roundMag_eq_roundOn (f : Format) (num den : Nat) (hd : 0 < den) :
    roundMag f num den = roundOn f ((num : K) / den) := by
  rcases Nat.eq_zero_or_pos num with rfl | hn
  · simp [roundMag, roundOn]
  · have hq : (num : K) / den ≠ 0 := div_ne_zero (Nat.cast_ne_zero.mpr hn.ne') (Nat.cast_ne_zero.mpr hd.ne')
    simp only [roundMag, roundOn, if_neg hn.ne', if_neg hq, floorLog2_eq_log (K := K) num den hn hd]
    rw [div_zpow_eq, ← rhe_eq_rheOn _ _ (by positivity)]

/-- The rounder is `rne` of rule R111. -/
theorem rne_eq_rneOn (s : Bool) (num den : Nat) (hd : 0 < den) : rne s num den = rneOn s ((num : K) / den) := by
  rw [rne, rneOn, ← roundMag_eq_roundOn _ _ _ hd]

/-- The rounder to float32 is `rne32` of rule R117. -/
theorem rne32_eq_rne32On (s : Bool) (num den : Nat) (hd : 0 < den) : rne32 s num den = rne32On s ((num : K) / den) := by
  rw [rne32, rne32On, ← roundMag_eq_roundOn _ _ _ hd]

omit [LinearOrder K] [IsStrictOrderedRing K] [FloorRing K] in
/-- `N * 2^k` as numerator and denominator. -/
theorem scaledFrac_eq [CharZero K] (N : Nat) (k : Int) :
    ((scaledFrac N k).1 : K) / (scaledFrac N k).2 = N * 2 ^ k ∧ 0 < (scaledFrac N k).2 := by
  rcases Int.eq_nat_or_neg k with ⟨n, rfl | rfl⟩ <;> simp [scaledFrac, div_eq_mul_inv]

/-- `round_pack` is `rne` of `N * 2^k`, or of `(N + 1/2) * 2^k` with the sticky flag (rule R114). -/
theorem roundPack_eq_rneOn (s : Bool) (N : Nat) (k : Int) (sticky : Bool) :
    roundPack s N k sticky = rneOn s (if sticky then ((N : K) + 1 / 2) * 2 ^ k else N * 2 ^ k) := by
  cases sticky
  · rw [roundPack, if_neg (by simp), if_neg (by simp), rne_eq_rneOn (K := K) _ _ _ (scaledFrac_eq (K := K) N k).2,
      (scaledFrac_eq N k).1]
  · rw [roundPack, if_pos rfl, if_pos rfl, rne_eq_rneOn (K := K) _ _ _ (scaledFrac_eq (K := K) _ _).2,
      (scaledFrac_eq _ _).1, zpow_sub_one₀ two_ne_zero]
    congr 1; push_cast; ring

end Field

/-- Rounding a rational is rounding it as a real. -/
theorem rneOn_cast (s : Bool) (q : ℚ) (hq : 0 ≤ q) : rneOn s (q : ℝ) = rneOn s q := by
  have hn : ((q.num.toNat : ℕ) : ℤ) = q.num := Int.toNat_of_nonneg (Rat.num_nonneg.mpr hq)
  have h1 : q = (q.num.toNat : ℚ) / (q.den : ℚ) := by
    conv_lhs => rw [← Rat.num_div_den q, ← hn]
    rw [Int.cast_natCast]
  have h2 : (q : ℝ) = (q.num.toNat : ℝ) / (q.den : ℝ) := by
    conv_lhs => rw [h1]
    rw [Rat.cast_div, Rat.cast_natCast, Rat.cast_natCast]
  rw [h2, ← rne_eq_rneOn s _ _ q.den_pos, rne_eq_rneOn (K := ℚ) s _ _ q.den_pos, ← h1]

end Sys2Proof.Machine
end

