-- ==== Sys2Proof/Laws/Search.lean ====
section
/-! SUPPORT. What the bitwise search `largest` finds, and with it the integer square root (rules R142, R250) and the
decimal exponent (rule R272). -/

namespace Sys2Proof.Machine

/-- The search finds a place where a predicate that holds at `acc` and fails at `acc + 2^bits` turns from true to
false; where it never turns back, that is the largest place at which it holds. -/
theorem largest_spec (p : Nat → Bool) :
    ∀ (bits acc : Nat), p acc = true → p (acc + 2 ^ bits) = false →
      p (largest p bits acc) = true ∧ p (largest p bits acc + 1) = false := by
  intro bits
  induction bits with
  | zero => intro acc h0 h1; exact ⟨h0, h1⟩
  | succ n ih =>
    intro acc h0 h1
    rw [largest]
    split
    · rename_i h
      refine ih _ h ?_
      rwa [Nat.add_assoc, ← two_mul, ← pow_succ']
    · rename_i h; exact ih _ h0 (Bool.eq_false_iff.mpr h)

/-- `isqrt(x)` is "the largest integer whose square is at most" `x` (rule R250). -/
theorem isqrt_eq_sqrt (x : Nat) : isqrt x = Nat.sqrt x := by
  have h := largest_spec (fun k => decide (k * k ≤ x))
    (Nat.log2 x / 2 + 1) 0 (by simp) (by
      simp only [decide_eq_false_iff_not, not_le, Nat.zero_add, ← pow_add]
      refine (Nat.lt_log2_self (n := x)).trans_le (Nat.pow_le_pow_right two_pos ?_)
      omega)
  simp only [decide_eq_true_eq, decide_eq_false_iff_not, not_le] at h
  exact (Nat.eq_sqrt.mpr ⟨h.1, h.2⟩)

theorem ilog10_spec {n : Nat} (hn : n ≠ 0) : 10 ^ ilog10 n ≤ n ∧ n < 10 ^ (ilog10 n + 1) := by
  have h := largest_spec (fun k => decide (10 ^ k ≤ n))
    (Nat.log2 (Nat.log2 n) + 1) 0 (by simpa using Nat.one_le_iff_ne_zero.mpr hn) (by
      simp only [decide_eq_false_iff_not, not_le, Nat.zero_add]
      refine (Nat.lt_log2_self (n := n)).trans_le ?_
      refine (Nat.pow_le_pow_left (by norm_num : 2 ≤ 10) _).trans (Nat.pow_le_pow_right (by norm_num) ?_)
      exact Nat.lt_log2_self (n := Nat.log2 n))
  simpa [ilog10] using h

/-- `ilog10 n` is the position of the leading decimal digit of `n` (rules R271, R272). -/
theorem ilog10_eq_log (n : Nat) (hn : n ≠ 0) : ilog10 n = Nat.log 10 n :=
  (Nat.log_eq_of_pow_le_of_lt_pow (ilog10_spec hn).1 (ilog10_spec hn).2).symm

theorem stepsToOne_spec {num den : Nat} (hn : num ≠ 0) (h : num < den) :
    num * 10 ^ (stepsToOne num den - 1) < den ∧ den ≤ num * 10 ^ stepsToOne num den := by
  have h := largest_spec (fun k => decide (num * 10 ^ k < den))
    (Nat.log2 (Nat.log2 den) + 1) 0 (by simpa using h) (by
      simp only [decide_eq_false_iff_not, not_lt, Nat.zero_add]
      refine (Nat.lt_log2_self (n := den)).le.trans ?_
      refine ((Nat.pow_le_pow_left (by norm_num : 2 ≤ 10) _).trans (Nat.pow_le_pow_right (by norm_num) ?_)).trans
        (Nat.le_mul_of_pos_left _ (Nat.pos_of_ne_zero hn))
      exact Nat.lt_log2_self (n := Nat.log2 den))
  simpa [stepsToOne] using h

end Sys2Proof.Machine
end

