-- ==== Sys2Proof/Laws/Decimal.lean ====
section
/-! SUPPORT. The decimal exponent and the numerals of the decimal encoder (rules R271, R272). -/

namespace Sys2Proof.Machine

/-- `floorLog10` is `floor(log10 q)`: the integer `e` with `10^e <= q < 10^(e + 1)` (rule R272). -/
theorem floorLog10_eq_log (num den : Nat) (hn : 0 < num) (hd : 0 < den) :
    floorLog10 num den = Int.log 10 ((num : ℚ) / den) := by
  have hn' : (0 : ℚ) < num := Nat.cast_pos.mpr hn
  have hd' : (0 : ℚ) < den := Nat.cast_pos.mpr hd
  have hq : (0 : ℚ) < (num : ℚ) / den := div_pos hn' hd'
  have key : ∀ k : ℤ, (10 : ℚ) ^ k ≤ (num : ℚ) / den → (num : ℚ) / den < (10 : ℚ) ^ (k + 1) →
      k = Int.log 10 ((num : ℚ) / den) := by
    intro k h1 h2
    apply le_antisymm
    · exact (Int.zpow_le_iff_le_log (b := 10) (by norm_num) hq).mp (by exact_mod_cast h1)
    · have := (Int.lt_zpow_iff_log_lt (b := 10) (by norm_num) hq (x := k + 1)).mp (by exact_mod_cast h2)
      omega
  rw [floorLog10]
  split
  · rename_i h
    have h0 : num / den ≠ 0 := (Nat.div_pos h hd).ne'
    obtain ⟨h1, h2⟩ := ilog10_spec h0
    refine key _ ?_ ?_
    · rw [zpow_natCast, le_div_iff₀ hd']
      have := (Nat.le_div_iff_mul_le hd).mp h1
      exact_mod_cast this
    · rw [div_lt_iff₀ hd']
      have := (Nat.div_lt_iff_lt_mul hd).mp h2
      have h3 : ((num : ℕ) : ℚ) < ((10 ^ (ilog10 (num / den) + 1) * den : ℕ) : ℚ) := Nat.cast_lt.mpr this
      push_cast at h3
      exact_mod_cast h3
  · rename_i h
    obtain ⟨h1, h2⟩ := stepsToOne_spec hn.ne' (not_le.mp h)
    have hpos : 0 < stepsToOne num den := Nat.succ_pos _
    refine key _ ?_ ?_
    · rw [zpow_neg, zpow_natCast, le_div_iff₀ hd', inv_mul_le_iff₀ (by positivity)]
      rw [mul_comm]; exact_mod_cast h2
    · have : (-(stepsToOne num den : ℤ) + 1) = -((stepsToOne num den - 1 : ℕ) : ℤ) := by omega
      rw [this, zpow_neg, zpow_natCast, div_lt_iff₀ hd', lt_inv_mul_iff₀ (by positivity)]
      rw [mul_comm]; exact_mod_cast h1

/-- An `n`-digit numeral has `n` digits. -/
theorem decDigits_length (n D : Nat) : (decDigits n D).length = n := by
  induction n generalizing D with
  | zero => rfl
  | succ n ih => simp [decDigits, ih]

/-- Every digit of a numeral is below 10. -/
theorem decDigits_lt (n D : Nat) : ∀ d ∈ decDigits n D, d < 10 := by
  induction n generalizing D with
  | zero => simp [decDigits]
  | succ n ih =>
    intro d hd
    rw [decDigits, List.mem_append, List.mem_singleton] at hd
    rcases hd with hd | rfl
    · exact ih _ d hd
    · exact Nat.mod_lt _ (by norm_num)

/-- The digits of a numeral denote its number modulo `10^n`. -/
theorem decDigits_value (n D : Nat) : (decDigits n D).foldl (fun v d => 10 * v + d) 0 = D % 10 ^ n := by
  induction n generalizing D with
  | zero => simp [decDigits, Nat.mod_one]
  | succ n ih =>
    rw [decDigits, List.foldl_append, ih]
    simp only [List.foldl_cons, List.foldl_nil]
    rw [pow_succ', Nat.mod_mul, add_comm]

/-- Stripping trailing zeros keeps the rest: the digits are the stripped ones followed by zeros. -/
theorem stripZeros_append (ds : List Nat) : ∃ k, ds = stripZeros ds ++ List.replicate k 0 := by
  refine ⟨(ds.reverse.takeWhile (fun d => d == 0)).length, ?_⟩
  have h := List.takeWhile_append_dropWhile (p := fun d => d == 0) (l := ds.reverse)
  have hz : ds.reverse.takeWhile (fun d => d == 0) =
      List.replicate (ds.reverse.takeWhile (fun d => d == 0)).length 0 := by
    rw [List.eq_replicate_iff]
    exact ⟨rfl, fun d hd => by simpa using List.mem_takeWhile_imp hd⟩
  have := congrArg List.reverse h
  rw [List.reverse_append, List.reverse_reverse] at this
  conv_lhs => rw [← this]
  rw [stripZeros]
  congr 1
  rw [hz, List.reverse_replicate]; simp

/-- Digit generation over the rationals (rule R272). -/
theorem digits_eq (num den n : Nat) (hn : 0 < num) (hd : 0 < den) :
    digits num den n =
      if rheOn ((num : ℚ) / den / 10 ^ (Int.log 10 ((num : ℚ) / den) - n + 1)) = 10 ^ n then
        (stripZeros (decDigits n (10 ^ (n - 1))), Int.log 10 ((num : ℚ) / den) + 1)
      else (stripZeros (decDigits n (rheOn ((num : ℚ) / den / 10 ^ (Int.log 10 ((num : ℚ) / den) - n + 1)))),
        Int.log 10 ((num : ℚ) / den)) := by
  have scale : ∀ k : Int, (num : ℚ) / den / 10 ^ k =
      ((num * 10 ^ (-k).toNat : ℕ) : ℚ) / ((den * 10 ^ k.toNat : ℕ) : ℚ) := by
    intro k
    rcases Int.eq_nat_or_neg k with ⟨m, rfl | rfl⟩
    · simp [div_div]
    · simp [div_mul_eq_mul_div]
  rw [scale, ← rhe_eq_rheOn _ _ (by positivity), ← floorLog10_eq_log num den hn hd]
  rfl

end Sys2Proof.Machine
end

