-- ==== Sys2Proof/Laws/Memory.lean ====
section
/-! SUPPORT. The laws of byte strings: what a read sees after a write, that every operation keeps the canonical form,
and that the canonical form determines the string. -/

namespace Sys2Proof.Machine

@[simp] theorem Memory.read_nil (i : Nat) : Memory.read [] i = Memory.unlisted := rfl

theorem Memory.read_cons (j : Nat) (v : Byte) (m : Memory) (i : Nat) :
    Memory.read ((j, v) :: m) i = if i = j then v else Memory.read m i := rfl

/-- The canonical form from `lo` on holds from any lower index on. -/
theorem Memory.wfFrom_mono {size lo lo' : Nat} {m : Memory} (h : lo' ≤ lo) (hm : Memory.wfFrom size lo m = true) :
    Memory.wfFrom size lo' m = true := by
  cases m with
  | nil => rfl
  | cons c m =>
    obtain ⟨i, v⟩ := c
    simp only [Memory.wfFrom, Bool.and_eq_true, decide_eq_true_eq] at hm ⊢
    exact ⟨⟨⟨by omega, hm.1.1.2⟩, hm.1.2⟩, hm.2⟩

/-- A byte string of `size` bytes is one of any greater size. -/
theorem Memory.wfFrom_size {size size' lo : Nat} {m : Memory} (h : size ≤ size')
    (hm : Memory.wfFrom size lo m = true) : Memory.wfFrom size' lo m = true := by
  induction m generalizing lo with
  | nil => rfl
  | cons c m ih =>
    obtain ⟨i, v⟩ := c
    simp only [Memory.wfFrom, Bool.and_eq_true, decide_eq_true_eq] at hm ⊢
    exact ⟨⟨⟨hm.1.1.1, by omega⟩, hm.1.2⟩, ih hm.2⟩

theorem Memory.wf_size {size size' : Nat} {m : Memory} (h : size ≤ size') (hm : m.wf size = true) :
    m.wf size' = true := Memory.wfFrom_size h hm

/-- Below its first index a byte string reads as unlisted. -/
theorem Memory.read_of_lt {size lo i : Nat} {m : Memory} (h : i < lo) (hm : Memory.wfFrom size lo m = true) :
    m.read i = Memory.unlisted := by
  induction m generalizing lo with
  | nil => rfl
  | cons c m ih =>
    obtain ⟨j, v⟩ := c
    simp only [Memory.wfFrom, Bool.and_eq_true, decide_eq_true_eq] at hm
    rw [Memory.read_cons, if_neg (by omega)]
    exact ih (by omega) hm.2

/-- At its size and above a byte string reads as unlisted. -/
theorem Memory.read_of_size_le {size lo i : Nat} {m : Memory} (h : size ≤ i) (hm : Memory.wfFrom size lo m = true) :
    m.read i = Memory.unlisted := by
  induction m generalizing lo with
  | nil => rfl
  | cons c m ih =>
    obtain ⟨j, v⟩ := c
    simp only [Memory.wfFrom, Bool.and_eq_true, decide_eq_true_eq] at hm
    rw [Memory.read_cons, if_neg (by omega)]
    exact ih hm.2

/-- A read after a write in canonical form: the written index gives the value written, every other index what it gave
before. -/
theorem Memory.read_write {size lo : Nat} {m : Memory} (hm : Memory.wfFrom size lo m = true) (i j : Nat) (v : Byte) :
    (m.write i v).read j = if j = i then v else m.read j := by
  induction m generalizing lo with
  | nil =>
    rw [Memory.write]
    by_cases hv : v = Memory.unlisted
    · rw [if_pos hv, hv]; split <;> rfl
    · rw [if_neg hv]; rfl
  | cons c m ih =>
    obtain ⟨k, w⟩ := c
    have hm' := hm
    simp only [Memory.wfFrom, Bool.and_eq_true, decide_eq_true_eq] at hm
    have low : ∀ i, i ≤ k → Memory.read m i = Memory.unlisted := fun i hi =>
      Memory.read_of_lt (Nat.lt_succ_of_le hi) hm.2
    rw [Memory.write]
    by_cases h1 : i < k
    · rw [if_pos h1]
      by_cases hv : v = Memory.unlisted
      · rw [if_pos hv]
        by_cases hj : j = i
        · rw [if_pos hj, hj, Memory.read_cons, if_neg (by omega), low i h1.le, hv]
        · rw [if_neg hj]
      · rw [if_neg hv, Memory.read_cons]
    · rw [if_neg h1]
      by_cases h2 : i = k
      · subst h2
        rw [if_pos rfl, Memory.read_cons]
        by_cases hv : v = Memory.unlisted
        · rw [if_pos hv]
          by_cases hj : j = i
          · rw [if_pos hj, hj, low i le_rfl, hv]
          · rw [if_neg hj, if_neg hj]
        · rw [if_neg hv, Memory.read_cons]
          by_cases hj : j = i
          · rw [if_pos hj, if_pos hj]
          · rw [if_neg hj, if_neg hj, if_neg hj]
      · rw [if_neg h2, Memory.read_cons, Memory.read_cons, ih hm.2]
        by_cases hj : j = k
        · rw [if_pos hj, if_pos hj, if_neg (by omega)]
        · rw [if_neg hj, if_neg hj]

/-- A write inside the size keeps the canonical form. -/
theorem Memory.write_wfFrom {size lo i : Nat} {m : Memory} (v : Byte) (hlo : lo ≤ i) (hi : i < size)
    (hm : Memory.wfFrom size lo m = true) : Memory.wfFrom size lo (m.write i v) = true := by
  induction m generalizing lo with
  | nil =>
    rw [Memory.write]; split
    · rfl
    · rename_i hv
      simp [Memory.wfFrom, hlo, hi, hv]
  | cons c m ih =>
    obtain ⟨k, w⟩ := c
    have hm' := hm
    simp only [Memory.wfFrom, Bool.and_eq_true, decide_eq_true_eq] at hm
    rw [Memory.write]
    split
    · split
      · exact hm'
      · rename_i h1 hv
        simp only [Memory.wfFrom, Bool.and_eq_true, decide_eq_true_eq]
        exact ⟨⟨⟨hlo, hi⟩, hv⟩, ⟨⟨by omega, hm.1.1.2⟩, hm.1.2⟩, hm.2⟩
    · split
      · rename_i h1 h2
        subst h2
        split
        · exact Memory.wfFrom_mono (by omega) hm.2
        · rename_i hv
          simp only [Memory.wfFrom, Bool.and_eq_true, decide_eq_true_eq]
          exact ⟨⟨⟨hlo, hi⟩, hv⟩, hm.2⟩
      · simp only [Memory.wfFrom, Bool.and_eq_true, decide_eq_true_eq]
        exact ⟨⟨⟨hm.1.1.1, hm.1.1.2⟩, hm.1.2⟩, ih (by omega) hm.2⟩

theorem Memory.write_wf {size i : Nat} {m : Memory} (v : Byte) (hi : i < size) (hm : m.wf size = true) :
    (m.write i v).wf size = true := Memory.write_wfFrom v (Nat.zero_le _) hi hm

theorem Memory.writeFrom_wf {size : Nat} (bs : List Byte) {m : Memory} {i : Nat} (hi : i + bs.length ≤ size)
    (hm : m.wf size = true) : (m.writeFrom i bs).wf size = true := by
  induction bs generalizing m i with
  | nil => exact hm
  | cons b bs ih =>
    rw [List.length_cons] at hi
    exact ih (by omega) (Memory.write_wf b (by omega) hm)

/-- What writing bytes from an index on does to every read. -/
theorem Memory.read_writeFrom {size : Nat} (bs : List Byte) {m : Memory} {i : Nat} (hi : i + bs.length ≤ size)
    (hm : m.wf size = true) (j : Nat) :
    (m.writeFrom i bs).read j = if i ≤ j ∧ j < i + bs.length then bs.getD (j - i) Memory.unlisted else m.read j := by
  induction bs generalizing m i with
  | nil => rw [Memory.writeFrom, if_neg (by simp)]
  | cons b bs ih =>
    rw [List.length_cons] at hi ⊢
    rw [Memory.writeFrom, ih (by omega) (Memory.write_wf b (by omega) hm), Memory.read_write hm]
    by_cases h0 : j = i
    · subst h0; rw [if_neg (by omega), if_pos rfl, if_pos (by omega), Nat.sub_self]; rfl
    · rw [if_neg h0]
      by_cases h1 : i + 1 ≤ j ∧ j < i + 1 + bs.length
      · rw [if_pos h1, if_pos (by omega)]
        obtain ⟨d, rfl⟩ : ∃ d, j = i + 1 + d := ⟨j - (i + 1), by omega⟩
        rw [show i + 1 + d - i = d + 1 by omega, show i + 1 + d - (i + 1) = d by omega]; rfl
      · rw [if_neg h1, if_neg (by omega)]

/-- A byte string made from a list of bytes is in canonical form, at the list's length and at any greater size. -/
theorem Memory.ofBytes_wf {size : Nat} (bs : List Byte) (h : bs.length ≤ size) : (Memory.ofBytes bs).wf size = true :=
  Memory.writeFrom_wf bs (by omega) rfl

/-- A byte string made from a list of bytes reads as the list's bytes and, from its length on, as unlisted. -/
theorem Memory.read_ofBytes (bs : List Byte) (j : Nat) :
    (Memory.ofBytes bs).read j = if j < bs.length then bs.getD j Memory.unlisted else Memory.unlisted := by
  rw [Memory.ofBytes, Memory.read_writeFrom (size := bs.length) bs (by omega) rfl]
  by_cases h : j < bs.length
  · rw [if_pos (by omega), if_pos h, Nat.sub_zero]
  · rw [if_neg (by omega), if_neg h]; rfl

theorem Memory.bytes_ofBytes (bs : List Byte) : (Memory.ofBytes bs).bytes bs.length = bs := by
  refine List.ext_getElem (by simp [Memory.bytes]) fun i h1 h2 => ?_
  simp only [Memory.bytes, List.getElem_map, List.getElem_range, Memory.read_ofBytes, if_pos h2]
  simp [h2]

@[simp] theorem Memory.length_bytes (m : Memory) (n : Nat) : (m.bytes n).length = n := by simp [Memory.bytes]

/-- Two byte strings in canonical form that read alike everywhere are the same data. -/
theorem Memory.ext_read {size lo : Nat} {m m' : Memory} (hm : Memory.wfFrom size lo m = true)
    (hm' : Memory.wfFrom size lo m' = true) (h : ∀ i, m.read i = m'.read i) : m = m' := by
  induction m generalizing lo m' with
  | nil =>
    cases m' with
    | nil => rfl
    | cons c m' =>
      obtain ⟨i, v⟩ := c
      simp only [Memory.wfFrom, Bool.and_eq_true, decide_eq_true_eq] at hm'
      have := h i
      rw [Memory.read_cons, if_pos rfl] at this
      exact absurd this.symm hm'.1.2
  | cons c m ih =>
    obtain ⟨i, v⟩ := c
    have hm0 := hm
    simp only [Memory.wfFrom, Bool.and_eq_true, decide_eq_true_eq] at hm
    cases m' with
    | nil =>
      have := h i
      rw [Memory.read_cons, if_pos rfl] at this
      exact absurd this hm.1.2
    | cons c' m' =>
      obtain ⟨j, w⟩ := c'
      have hm0' := hm'
      simp only [Memory.wfFrom, Bool.and_eq_true, decide_eq_true_eq] at hm'
      have hij : i = j := by
        rcases Nat.lt_trichotomy i j with hlt | heq | hgt
        · have := h i
          rw [Memory.read_cons, if_pos rfl, Memory.read_cons, if_neg (by omega),
            Memory.read_of_lt (lo := j + 1) (by omega) hm'.2] at this
          exact absurd this hm.1.2
        · exact heq
        · have := h j
          rw [Memory.read_cons, if_neg (by omega), Memory.read_of_lt (lo := i + 1) (by omega) hm.2,
            Memory.read_cons, if_pos rfl] at this
          exact absurd this.symm hm'.1.2
      subst hij
      have hv : v = w := by
        have := h i
        rwa [Memory.read_cons, if_pos rfl, Memory.read_cons, if_pos rfl] at this
      subst hv
      rw [ih hm.2 hm'.2 fun k => ?_]
      by_cases hk : k = i
      · subst hk; rw [Memory.read_of_lt (Nat.lt_succ_self _) hm.2, Memory.read_of_lt (Nat.lt_succ_self _) hm'.2]
      · have := h k
        rwa [Memory.read_cons, if_neg hk, Memory.read_cons, if_neg hk] at this

/-- Unspecified contents of a byte string are in canonical form. -/
theorem unspecifiedText_wf (size k part : Nat) : (unspecifiedText size k part).wf size = true :=
  Memory.ofBytes_wf _ (List.length_take_le _ _)

theorem unspecifiedReq_wf (k : Nat) : (unspecifiedReq k).wf = true := unspecifiedText_wf _ _ _

theorem unspecifiedResp_wf (k : Nat) : (unspecifiedResp k).wf = true := by
  rw [Resp.wf, Bool.and_eq_true]; exact ⟨unspecifiedText_wf _ _ _, unspecifiedText_wf _ _ _⟩

end Sys2Proof.Machine
end

