-- ==== Sys2Proof/Laws/PerInstr.lean ====
section
/-! SUPPORT. Per-instruction family `EncodeLegal`: the command word the encoder writes for an operation is a legal one
(rule R70), by the ranges of reserved words and not by the decoder's own table. -/

namespace Sys2Proof.Laws.EncodeLegal

/-- The encoder writes a legal command word for the operation (rules R60, R63, R70). -/
def Statement (i : Instr) : Prop := legalCommand (encode i) = true

theorem decode : Statement .decode := by unfold Statement; decide
theorem classify : Statement .classify := by unfold Statement; decide
theorem neg : Statement .neg := by unfold Statement; decide
theorem abs : Statement .abs := by unfold Statement; decide
theorem cmp : Statement .cmp := by unfold Statement; decide
theorem add : Statement .add := by unfold Statement; decide
theorem sub : Statement .sub := by unfold Statement; decide
theorem mul : Statement .mul := by unfold Statement; decide
theorem div : Statement .div := by unfold Statement; decide
theorem sqrt : Statement .sqrt := by unfold Statement; decide
theorem fma : Statement .fma := by unfold Statement; decide
theorem i2fS8 : Statement .i2fS8 := by unfold Statement; decide
theorem i2fU8 : Statement .i2fU8 := by unfold Statement; decide
theorem i2fS16 : Statement .i2fS16 := by unfold Statement; decide
theorem i2fU16 : Statement .i2fU16 := by unfold Statement; decide
theorem i2fS32 : Statement .i2fS32 := by unfold Statement; decide
theorem i2fU32 : Statement .i2fU32 := by unfold Statement; decide
theorem i2fS64 : Statement .i2fS64 := by unfold Statement; decide
theorem i2fU64 : Statement .i2fU64 := by unfold Statement; decide
theorem f2iS8 : Statement .f2iS8 := by unfold Statement; decide
theorem f2iU8 : Statement .f2iU8 := by unfold Statement; decide
theorem f2iS16 : Statement .f2iS16 := by unfold Statement; decide
theorem f2iU16 : Statement .f2iU16 := by unfold Statement; decide
theorem f2iS32 : Statement .f2iS32 := by unfold Statement; decide
theorem f2iU32 : Statement .f2iU32 := by unfold Statement; decide
theorem f2iS64 : Statement .f2iS64 := by unfold Statement; decide
theorem f2iU64 : Statement .f2iU64 := by unfold Statement; decide
theorem f32ToF64 : Statement .f32ToF64 := by unfold Statement; decide
theorem f64ToF32 : Statement .f64ToF32 := by unfold Statement; decide
theorem sin : Statement .sin := by unfold Statement; decide
theorem cos : Statement .cos := by unfold Statement; decide
theorem tan : Statement .tan := by unfold Statement; decide
theorem asin : Statement .asin := by unfold Statement; decide
theorem acos : Statement .acos := by unfold Statement; decide
theorem atan : Statement .atan := by unfold Statement; decide
theorem atan2 : Statement .atan2 := by unfold Statement; decide
theorem exp : Statement .exp := by unfold Statement; decide
theorem log : Statement .log := by unfold Statement; decide
theorem pow : Statement .pow := by unfold Statement; decide
theorem sinh : Statement .sinh := by unfold Statement; decide
theorem cosh : Statement .cosh := by unfold Statement; decide
theorem tanh : Statement .tanh := by unfold Statement; decide
theorem todec (p0 p1 : BitVec 8) : Statement (.todec p0 p1) := by
  have hw : (encode (.todec p0 p1)).toNat = p1.toNat * 2 ^ 16 + p0.toNat * 2 ^ 8 + 0x50 := by
    simp only [encode, cmdParams, opcode, BitVec.toNat_append, BitVec.toNat_ofNat]
    rw [← Nat.shiftLeft_add_eq_or_of_lt (by omega), ← Nat.shiftLeft_add_eq_or_of_lt (by omega),
      ← Nat.shiftLeft_add_eq_or_of_lt (by omega)]
    simp only [Nat.shiftLeft_eq]; omega
  have h0 := p0.isLt; have h1 := p1.isLt
  rw [Statement, legalCommand, legalRsv, hw,
    show (p1.toNat * 2 ^ 16 + p0.toNat * 2 ^ 8 + 0x50) % 2 ^ 8 = 0x50 by omega,
    show (p1.toNat * 2 ^ 16 + p0.toNat * 2 ^ 8 + 0x50) / 2 ^ 24 = 0 by omega]
  rfl
theorem parse : Statement .parse := by unfold Statement; decide

end Sys2Proof.Laws.EncodeLegal
end

