-- ==== Sys2Proof/Laws/Response.lean ====
section
/-! SUPPORT. What a response with strings holds (rules R27, R42): the law of `decResp`. -/

namespace Sys2Proof.Machine

theorem Category.code_le (c : Category) : c.code.toNat ≤ 4 := by cases c <;> decide

/-- A response with strings within their bounds holds their lengths and bytes, and has the shape of rule R27. -/
theorem decResp_spec (sgn : Bool) (c : Category) (x : Int) {dig txt : List Byte} (hd : dig.length ≤ digMax)
    (ht : txt.length ≤ txtOutMax) :
    (decResp sgn c dig x txt).dlen.toNat = dig.length ∧ (decResp sgn c dig x txt).dig.bytes dig.length = dig ∧
    (decResp sgn c dig x txt).tlen.toNat = txt.length ∧ (decResp sgn c dig x txt).txt.bytes txt.length = txt ∧
    (decResp sgn c dig x txt).shaped = true := by
  have hd' : dig.length < 2 ^ 5 := lt_of_le_of_lt hd (by decide)
  have ht' : txt.length < 2 ^ 9 := lt_of_le_of_lt ht (by decide)
  have h1 : (decResp sgn c dig x txt).dlen.toNat = dig.length := by
    simp only [decResp, BitVec.toNat_ofNat]; exact Nat.mod_eq_of_lt hd'
  have h2 : (decResp sgn c dig x txt).tlen.toNat = txt.length := by
    simp only [decResp, BitVec.toNat_ofNat]; exact Nat.mod_eq_of_lt ht'
  refine ⟨h1, Memory.bytes_ofBytes dig, h2, Memory.bytes_ofBytes txt, ?_⟩
  simp only [Resp.shaped, h1, h2, Bool.and_eq_true, decide_eq_true_eq]
  exact ⟨⟨⟨⟨hd, ht⟩, Memory.ofBytes_wf _ le_rfl⟩, Memory.ofBytes_wf _ le_rfl⟩, c.code_le⟩

/-- A response whose one written field is `r` has the shape of rule R27. -/
theorem Resp.ofR_shaped (r : BitVec 64) : (Resp.ofR r).shaped = true := rfl

/-- A response whose one written field is a code of rule R67 has the shape of rule R27. -/
theorem Resp.ofCC_shaped (c : BitVec 3) (h : c.toNat ≤ 4) : (Resp.ofCC c).shaped = true := by
  have h0 : (Resp.ofCC c).shaped = decide (c.toNat ≤ 4) := Bool.true_and _
  rw [h0]; exact decide_eq_true h

end Sys2Proof.Machine
end

