-- ==== Sys2Proof/Laws/State.lean ====
section
/-! SUPPORT. One lemma per field per update of the state, all by definition: no later proof unfolds an update. -/

namespace Sys2Proof.Machine

@[simp] theorem State.respond_phase (s : State) (r : Resp) : (s.respond r).phase = .done := rfl
@[simp] theorem State.respond_req (s : State) (r : Resp) : (s.respond r).req = s.req := rfl
@[simp] theorem State.respond_resp (s : State) (r : Resp) : (s.respond r).resp = r := rfl
@[simp] theorem State.respond_inputs (s : State) (r : Resp) : (s.respond r).inputs = s.inputs := rfl
@[simp] theorem State.respond_offer (s : State) (r : Resp) : (s.respond r).offer = s.offer := rfl
@[simp] theorem State.respond_received (s : State) (r : Resp) : (s.respond r).received = s.received := rfl
@[simp] theorem State.respond_busyFor (s : State) (r : Resp) : (s.respond r).busyFor = s.busyFor := rfl
@[simp] theorem State.respond_drawn (s : State) (r : Resp) : (s.respond r).drawn = s.drawn := rfl

@[simp] theorem State.passEdge_phase (s : State) : (s.passEdge).phase = s.phase := rfl
@[simp] theorem State.passEdge_req (s : State) : (s.passEdge).req = s.req := rfl
@[simp] theorem State.passEdge_resp (s : State) : (s.passEdge).resp = s.resp := rfl
@[simp] theorem State.passEdge_inputs (s : State) : (s.passEdge).inputs = s.inputs.tail := rfl
@[simp] theorem State.passEdge_offer (s : State) : (s.passEdge).offer = s.nextOffer := rfl
@[simp] theorem State.passEdge_received (s : State) : (s.passEdge).received = s.received := rfl
@[simp] theorem State.passEdge_busyFor (s : State) : (s.passEdge).busyFor = s.busyFor := rfl
@[simp] theorem State.passEdge_drawn (s : State) : (s.passEdge).drawn = s.drawn := rfl

@[simp] theorem State.toIdle_phase (s : State) : (s.toIdle).phase = .idle := rfl
@[simp] theorem State.toIdle_req (s : State) : (s.toIdle).req = unspecifiedReq s.drawn := rfl
@[simp] theorem State.toIdle_resp (s : State) : (s.toIdle).resp = unspecifiedResp s.drawn := rfl
@[simp] theorem State.toIdle_inputs (s : State) : (s.toIdle).inputs = s.inputs := rfl
@[simp] theorem State.toIdle_offer (s : State) : (s.toIdle).offer = s.offer := rfl
@[simp] theorem State.toIdle_received (s : State) : (s.toIdle).received = s.received := rfl
@[simp] theorem State.toIdle_busyFor (s : State) : (s.toIdle).busyFor = 0 := rfl
@[simp] theorem State.toIdle_drawn (s : State) : (s.toIdle).drawn = s.drawn + 1 := rfl

@[simp] theorem State.accept_phase (s : State) (r : Req) : (s.accept r).phase = .busy := rfl
@[simp] theorem State.accept_req (s : State) (r : Req) : (s.accept r).req = r := rfl
@[simp] theorem State.accept_resp (s : State) (r : Req) : (s.accept r).resp = s.resp := rfl
@[simp] theorem State.accept_inputs (s : State) (r : Req) : (s.accept r).inputs = s.inputs := rfl
@[simp] theorem State.accept_offer (s : State) (r : Req) : (s.accept r).offer = s.offer := rfl
@[simp] theorem State.accept_received (s : State) (r : Req) : (s.accept r).received = s.received := rfl
@[simp] theorem State.accept_busyFor (s : State) (r : Req) : (s.accept r).busyFor = Config.extraCycles r := rfl
@[simp] theorem State.accept_drawn (s : State) (r : Req) : (s.accept r).drawn = s.drawn := rfl

@[simp] theorem State.take_phase (s : State) : (s.take).phase = .idle := rfl
@[simp] theorem State.take_req (s : State) : (s.take).req = unspecifiedReq s.drawn := rfl
@[simp] theorem State.take_resp (s : State) : (s.take).resp = unspecifiedResp s.drawn := rfl
@[simp] theorem State.take_inputs (s : State) : (s.take).inputs = s.inputs := rfl
@[simp] theorem State.take_offer (s : State) : (s.take).offer = s.offer := rfl
@[simp] theorem State.take_received (s : State) : (s.take).received = s.resp :: s.received := rfl
@[simp] theorem State.take_busyFor (s : State) : (s.take).busyFor = 0 := rfl
@[simp] theorem State.take_drawn (s : State) : (s.take).drawn = s.drawn + 1 := rfl

@[simp] theorem Resp.ofR_r (r : BitVec 64) : (Resp.ofR r).r = r := rfl
@[simp] theorem Resp.ofR_cc (r : BitVec 64) : (Resp.ofR r).cc = 0#3 := rfl
@[simp] theorem Resp.ofR_dlen (r : BitVec 64) : (Resp.ofR r).dlen = 0#5 := rfl
@[simp] theorem Resp.ofR_tlen (r : BitVec 64) : (Resp.ofR r).tlen = 0#9 := rfl
@[simp] theorem Resp.ofR_dig (r : BitVec 64) : (Resp.ofR r).dig = [] := rfl
@[simp] theorem Resp.ofR_txt (r : BitVec 64) : (Resp.ofR r).txt = [] := rfl
@[simp] theorem Resp.ofCC_cc (c : BitVec 3) : (Resp.ofCC c).cc = c := rfl
@[simp] theorem Resp.ofCC_r (c : BitVec 3) : (Resp.ofCC c).r = 0#64 := rfl
@[simp] theorem Resp.ofCC_dlen (c : BitVec 3) : (Resp.ofCC c).dlen = 0#5 := rfl
@[simp] theorem Resp.ofCC_tlen (c : BitVec 3) : (Resp.ofCC c).tlen = 0#9 := rfl
@[simp] theorem Resp.ofCC_dig (c : BitVec 3) : (Resp.ofCC c).dig = [] := rfl
@[simp] theorem Resp.ofCC_txt (c : BitVec 3) : (Resp.ofCC c).txt = [] := rfl

@[simp] theorem State.pins_respond (s : State) (r : Resp) : (s.respond r).pins = s.pins := rfl
@[simp] theorem State.withFetchWord_req (s : State) (nbits w : Nat) :
    (s.withFetchWord nbits w).req = { s.req with cmd := BitVec.ofNat 32 (w % 2 ^ nbits) } := rfl
@[simp] theorem State.withFetchWord_phase (s : State) (nbits w : Nat) : (s.withFetchWord nbits w).phase = .busy := rfl
@[simp] theorem State.withFetchWord_busyFor (s : State) (nbits w : Nat) : (s.withFetchWord nbits w).busyFor = 0 := rfl

theorem State.withFetchWord_rst (s : State) (nbits w : Nat) : (s.withFetchWord nbits w).pins.rst = false := by
  rw [State.pins, State.withFetchWord]
  cases s.inputs <;> rfl

end Sys2Proof.Machine
end

