-- ==== Sys2Proof/Laws/Step.lean ====
section
/-! SUPPORT. What a clock edge can do, said once (rules R28 to R30, R34): a proof about `step` takes these cases apart
instead of unfolding it. -/

namespace Sys2Proof.Machine

/-- Every operation answers with a response and changes nothing else (rule R29). -/
theorem exec_responds (i : Instr) (s : State) : ∃ r, exec i s = .next (s.respond r) := by
  cases i <;> exact ⟨_, rfl⟩

/-- Every way a clock edge has a next state. -/
theorem step_cases {s t : State} (h : step s = .next t) :
    (s.pins.rst = true ∧ t = s.passEdge.toIdle) ∨
    (s.pins.rst = false ∧ s.phase = .idle ∧ s.pins.reqValid = false ∧ t = s.passEdge) ∨
    (s.pins.rst = false ∧ s.phase = .idle ∧ s.pins.reqValid = true ∧ s.offerKept = true ∧
      (∃ i, decode s.pins.req.cmd = .ok i) ∧ t = s.passEdge.accept s.pins.req) ∨
    (s.pins.rst = false ∧ s.phase = .busy ∧ ∃ n, s.busyFor = n + 1 ∧ t = { s.passEdge with busyFor := n }) ∨
    (s.pins.rst = false ∧ s.phase = .busy ∧ s.busyFor = 0 ∧
      ∃ i r, decode s.req.cmd = .ok i ∧ exec i s.passEdge = .next (s.passEdge.respond r) ∧ t = s.passEdge.respond r) ∨
    (s.pins.rst = false ∧ s.phase = .done ∧ s.pins.respReady = true ∧ t = s.passEdge.take) ∨
    (s.pins.rst = false ∧ s.phase = .done ∧ s.pins.respReady = false ∧ t = s.passEdge) := by
  rw [step] at h
  cases hr : s.pins.rst
  · simp only [hr, Bool.false_eq_true, if_false] at h
    cases hp : s.phase <;> simp only [hp] at h
    · cases hv : s.pins.reqValid
      · simp only [hv, Bool.false_eq_true, if_false] at h
        cases h; simp
      · simp only [hv, if_true, acceptStep] at h
        split at h
        · rename_i hk
          split at h
          · rename_i i hd; cases h; simp [hk, hd]
          · cases h
        · cases h
    · split at h
      · rename_i n hn; cases h; simp [hn]
      · rename_i hn
        split at h
        · rename_i i hd
          obtain ⟨r, hx⟩ := exec_responds i s.passEdge
          rw [hx] at h; cases h
          simp only [hn, hd, true_and, reduceCtorEq, false_and, or_false, false_or]
          refine Or.inr ⟨i, r, rfl, hx, rfl⟩
        · cases h
    · cases hv : s.pins.respReady
      · simp only [hv, Bool.false_eq_true, if_false] at h
        cases h; simp
      · simp only [hv, if_true] at h
        cases h; simp
  · simp only [hr, if_true] at h
    cases h; simp

/-- No clock edge faults (rule R310). -/
theorem step_no_fault (s : State) (f : Fault) : step s ≠ .fault f := nomatch f

end Sys2Proof.Machine
end

