-- ==== Sys2Proof/Tests/Slice0.lean ====
section
/-! SUPPORT. Tests: expected values are from the spec's own examples and vectors (95_test_vectors.md and the rules named
beside them), never from the model. Then, for each statement with hypotheses, a witness that meets them. -/

namespace Sys2Proof.Tests

set_option Elab.async false

open Machine

/-- A state about to complete a request with these operands. -/
def st (a b c : F64) : State := { State.reset with phase := .busy, req := { Req.zero with a := a, b := b, c := c } }

/-- A state about to complete a request with this text. -/
def stText (t : List Byte) : State :=
  { State.reset with phase := .busy,
                     req := { Req.zero with len := BitVec.ofNat 8 t.length, txt := Memory.ofBytes t } }

/-- The response of an outcome that is a next state. -/
def respOf : Host.Outcome State Fault Refusal → Option Resp
  | .next t => some t.resp
  | _ => none

/-- The result field of an outcome that is a next state. -/
def rOf (o : Host.Outcome State Fault Refusal) : Option (BitVec 64) := (respOf o).map (·.r)

/-- The code of an outcome that is a next state. -/
def ccOf (o : Host.Outcome State Fault Refusal) : Option (BitVec 3) := (respOf o).map (·.cc)

/-- The sign, exponent, digits and text of an outcome that is a next state. -/
def decOf (o : Host.Outcome State Fault Refusal) : Option (BitVec 1 × BitVec 16 × List Byte × List Byte) :=
  (respOf o).map fun r => (r.sgn, r.x, r.dig.bytes r.dlen.toNat, r.txt.bytes r.tlen.toNat)

/-- The value and the count of an outcome that is a next state. -/
def parsedOf (o : Host.Outcome State Fault Refusal) : Option (BitVec 64 × BitVec 16) := (respOf o).map fun r => (r.r, r.x)

/-- The refusal of an outcome. -/
def refusalOf : Host.Outcome State Fault Refusal → Option Refusal
  | .refused e => some e
  | _ => none

/-- The phase of an outcome that is a next state. -/
def phaseOf : Host.Outcome State Fault Refusal → Option Phase
  | .next t => some t.phase
  | _ => none

/-! Well-formedness: each check refuses an ill-formed word (rule R70). -/

theorem test_rsv_refused : legalCommand 0x01000010#32 = false ∧ legalCommand 0xFF000000#32 = false := by decide
theorem test_op_05_0F_refused : legalCommand 0x05#32 = false ∧ legalCommand 0x0F#32 = false := by decide
theorem test_op_16_1F_refused : legalCommand 0x16#32 = false ∧ legalCommand 0x1F#32 = false := by decide
theorem test_op_32_3F_refused : legalCommand 0x32#32 = false ∧ legalCommand 0x3F#32 = false := by decide
theorem test_op_4D_4F_refused : legalCommand 0x4D#32 = false ∧ legalCommand 0x4F#32 = false := by decide
theorem test_op_52_FF_refused : legalCommand 0x52#32 = false ∧ legalCommand 0xFF#32 = false := by decide
theorem test_legal_words : legalCommand 0x00ABCD10#32 = true ∧ legalCommand 0x00FFFF50#32 = true := by decide

/-! Decoding: every row's word, bit by bit from rules R60 and R63 (`rsv`, `p1`, `p0`, `op`). -/

theorem test_decode_classifier :
    decode (0b00000000#8 ++ 0b00000000#8 ++ 0b00000000#8 ++ 0b00000000#8) = .ok .decode ∧
    decode (0b00000000#8 ++ 0b00000000#8 ++ 0b00000000#8 ++ 0b00000001#8) = .ok .classify := by decide

theorem test_decode_sign :
    decode (0b00000000#8 ++ 0b00000000#8 ++ 0b00000000#8 ++ 0b00000010#8) = .ok .neg ∧
    decode (0b00000000#8 ++ 0b00000000#8 ++ 0b00000000#8 ++ 0b00000011#8) = .ok .abs ∧
    decode (0b00000000#8 ++ 0b00000000#8 ++ 0b00000000#8 ++ 0b00000100#8) = .ok .cmp := by decide

theorem test_decode_arithmetic :
    decode (0b00000000#8 ++ 0b00000000#8 ++ 0b00000000#8 ++ 0b00010000#8) = .ok .add ∧
    decode (0b00000000#8 ++ 0b00000000#8 ++ 0b00000000#8 ++ 0b00010001#8) = .ok .sub ∧
    decode (0b00000000#8 ++ 0b00000000#8 ++ 0b00000000#8 ++ 0b00010010#8) = .ok .mul ∧
    decode (0b00000000#8 ++ 0b00000000#8 ++ 0b00000000#8 ++ 0b00010011#8) = .ok .div ∧
    decode (0b00000000#8 ++ 0b00000000#8 ++ 0b00000000#8 ++ 0b00010100#8) = .ok .sqrt ∧
    decode (0b00000000#8 ++ 0b00000000#8 ++ 0b00000000#8 ++ 0b00010101#8) = .ok .fma := by decide

theorem test_decode_i2f :
    decode (0b00000000#8 ++ 0b00000000#8 ++ 0b00000000#8 ++ 0b00100000#8) = .ok .i2fS8 ∧
    decode (0b00000000#8 ++ 0b00000000#8 ++ 0b00000000#8 ++ 0b00100001#8) = .ok .i2fU8 ∧
    decode (0b00000000#8 ++ 0b00000000#8 ++ 0b00000000#8 ++ 0b00100010#8) = .ok .i2fS16 ∧
    decode (0b00000000#8 ++ 0b00000000#8 ++ 0b00000000#8 ++ 0b00100011#8) = .ok .i2fU16 ∧
    decode (0b00000000#8 ++ 0b00000000#8 ++ 0b00000000#8 ++ 0b00100100#8) = .ok .i2fS32 ∧
    decode (0b00000000#8 ++ 0b00000000#8 ++ 0b00000000#8 ++ 0b00100101#8) = .ok .i2fU32 ∧
    decode (0b00000000#8 ++ 0b00000000#8 ++ 0b00000000#8 ++ 0b00100110#8) = .ok .i2fS64 ∧
    decode (0b00000000#8 ++ 0b00000000#8 ++ 0b00000000#8 ++ 0b00100111#8) = .ok .i2fU64 := by decide

theorem test_decode_f2i :
    decode (0b00000000#8 ++ 0b00000000#8 ++ 0b00000000#8 ++ 0b00101000#8) = .ok .f2iS8 ∧
    decode (0b00000000#8 ++ 0b00000000#8 ++ 0b00000000#8 ++ 0b00101001#8) = .ok .f2iU8 ∧
    decode (0b00000000#8 ++ 0b00000000#8 ++ 0b00000000#8 ++ 0b00101010#8) = .ok .f2iS16 ∧
    decode (0b00000000#8 ++ 0b00000000#8 ++ 0b00000000#8 ++ 0b00101011#8) = .ok .f2iU16 ∧
    decode (0b00000000#8 ++ 0b00000000#8 ++ 0b00000000#8 ++ 0b00101100#8) = .ok .f2iS32 ∧
    decode (0b00000000#8 ++ 0b00000000#8 ++ 0b00000000#8 ++ 0b00101101#8) = .ok .f2iU32 ∧
    decode (0b00000000#8 ++ 0b00000000#8 ++ 0b00000000#8 ++ 0b00101110#8) = .ok .f2iS64 ∧
    decode (0b00000000#8 ++ 0b00000000#8 ++ 0b00000000#8 ++ 0b00101111#8) = .ok .f2iU64 := by decide

theorem test_decode_float32 :
    decode (0b00000000#8 ++ 0b00000000#8 ++ 0b00000000#8 ++ 0b00110000#8) = .ok .f32ToF64 ∧
    decode (0b00000000#8 ++ 0b00000000#8 ++ 0b00000000#8 ++ 0b00110001#8) = .ok .f64ToF32 := by decide

theorem test_decode_trig :
    decode (0b00000000#8 ++ 0b00000000#8 ++ 0b00000000#8 ++ 0b01000000#8) = .ok .sin ∧
    decode (0b00000000#8 ++ 0b00000000#8 ++ 0b00000000#8 ++ 0b01000001#8) = .ok .cos ∧
    decode (0b00000000#8 ++ 0b00000000#8 ++ 0b00000000#8 ++ 0b01000010#8) = .ok .tan ∧
    decode (0b00000000#8 ++ 0b00000000#8 ++ 0b00000000#8 ++ 0b01000011#8) = .ok .asin ∧
    decode (0b00000000#8 ++ 0b00000000#8 ++ 0b00000000#8 ++ 0b01000100#8) = .ok .acos ∧
    decode (0b00000000#8 ++ 0b00000000#8 ++ 0b00000000#8 ++ 0b01000101#8) = .ok .atan ∧
    decode (0b00000000#8 ++ 0b00000000#8 ++ 0b00000000#8 ++ 0b01000110#8) = .ok .atan2 := by decide

theorem test_decode_explog :
    decode (0b00000000#8 ++ 0b00000000#8 ++ 0b00000000#8 ++ 0b01000111#8) = .ok .exp ∧
    decode (0b00000000#8 ++ 0b00000000#8 ++ 0b00000000#8 ++ 0b01001000#8) = .ok .log ∧
    decode (0b00000000#8 ++ 0b00000000#8 ++ 0b00000000#8 ++ 0b01001001#8) = .ok .pow ∧
    decode (0b00000000#8 ++ 0b00000000#8 ++ 0b00000000#8 ++ 0b01001010#8) = .ok .sinh ∧
    decode (0b00000000#8 ++ 0b00000000#8 ++ 0b00000000#8 ++ 0b01001011#8) = .ok .cosh ∧
    decode (0b00000000#8 ++ 0b00000000#8 ++ 0b00000000#8 ++ 0b01001100#8) = .ok .tanh := by decide

theorem test_decode_decimal :
    decode (0b00000000#8 ++ 0b00001111#8 ++ 0b00010001#8 ++ 0b01010000#8) = .ok (.todec 17#8 15#8) ∧
    decode (0b00000000#8 ++ 0b00000000#8 ++ 0b00000000#8 ++ 0b01010001#8) = .ok .parse := by decide

theorem test_decode_ignores_p0_p1 : decode 0x00ABCD10#32 = .ok .add := by decide
theorem test_decode_rsv : decode 0x01000010#32 = .error (.reservedField 0x01#8) := by decide
theorem test_decode_reserved_op : decode 0x0000004D#32 = .error (.reservedOp 0x4D#8) := by decide
theorem test_decodeTableWord : decodeTableWord 32 0x000F1150 = some (.todec 17#8 15#8) := by decide

/-! Operations: the examples and corner cases of the rules. -/

theorem test_decode_normal : respOf (exec .decode (st 0xC008000000000000#64 0#64 0#64)) =
    some { Resp.zero with sgn := 1#1, x := 0x0001#16, r := 0x0018000000000000#64, cc := 2#3 } := by decide +kernel
theorem test_decode_subnormal : respOf (exec .decode (st 0x8000000000000001#64 0#64 0#64)) =
    some { Resp.zero with sgn := 1#1, x := 0xFC02#16, r := 1#64, cc := 1#3 } := by decide +kernel
theorem test_classify_subnormal : ccOf (exec .classify (st 0x8000000000000001#64 0x0000000000000000#64 0x0000000000000000#64)) = some 1#3 := by decide +kernel
theorem test_classify_nan : ccOf (exec .classify (st 0x7FF0000000000001#64 0x0000000000000000#64 0x0000000000000000#64)) = some 4#3 := by decide +kernel
theorem test_neg_nan : rOf (exec .neg (st 0xFFF8000000000001#64 0x0000000000000000#64 0x0000000000000000#64)) = some 0x7FF8000000000001#64 := by decide +kernel
theorem test_abs_negative : rOf (exec .abs (st 0xC008000000000000#64 0x0000000000000000#64 0x0000000000000000#64)) = some 0x4008000000000000#64 := by decide +kernel
theorem test_cmp_zeros : ccOf (exec .cmp (st 0x0000000000000000#64 0x8000000000000000#64 0x0000000000000000#64)) = some 0#3 := by decide +kernel
theorem test_cmp_negatives : ccOf (exec .cmp (st 0xBFF0000000000000#64 0xC000000000000000#64 0x0000000000000000#64)) = some 2#3 := by decide +kernel
theorem test_add_rounds : rOf (exec .add (st 0x3FB999999999999A#64 0x3FC999999999999A#64 0x0000000000000000#64)) = some 0x3FD3333333333334#64 := by decide +kernel
theorem test_add_opposite_inf : rOf (exec .add (st 0x7FF0000000000000#64 0xFFF0000000000000#64 0x0000000000000000#64)) = some 0x7FF8000000000000#64 := by decide +kernel
theorem test_sub_negative : rOf (exec .sub (st 0x4008000000000000#64 0x4014000000000000#64 0x0000000000000000#64)) = some 0xC000000000000000#64 := by decide +kernel
theorem test_sub_minus_zeros : rOf (exec .sub (st 0x8000000000000000#64 0x8000000000000000#64 0x0000000000000000#64)) = some 0x0000000000000000#64 := by decide +kernel
theorem test_mul_rounds : rOf (exec .mul (st 0x3FB999999999999A#64 0x4024000000000000#64 0x0000000000000000#64)) = some 0x3FF0000000000000#64 := by decide +kernel
theorem test_mul_tie_even_up : rOf (exec .mul (st 0x0000000000000003#64 0x3FE0000000000000#64 0x0000000000000000#64)) = some 0x0000000000000002#64 := by decide +kernel
theorem test_div_third : rOf (exec .div (st 0x3FF0000000000000#64 0x4008000000000000#64 0x0000000000000000#64)) = some 0x3FD5555555555555#64 := by decide +kernel
theorem test_div_inf_by_zero : rOf (exec .div (st 0xFFF0000000000000#64 0x0000000000000000#64 0x0000000000000000#64)) = some 0xFFF0000000000000#64 := by decide +kernel
theorem test_sqrt_two : rOf (exec .sqrt (st 0x4000000000000000#64 0x0000000000000000#64 0x0000000000000000#64)) = some 0x3FF6A09E667F3BCD#64 := by decide +kernel
theorem test_sqrt_mins : rOf (exec .sqrt (st 0x0000000000000001#64 0x0000000000000000#64 0x0000000000000000#64)) = some 0x1E60000000000000#64 := by decide +kernel
theorem test_fma_residue : rOf (exec .fma (st 0x3FF0000000000001#64 0x3FF0000000000001#64 0xBFF0000000000002#64)) = some 0x3970000000000000#64 := by decide +kernel
theorem test_fma_no_overflow : rOf (exec .fma (st 0x7FEFFFFFFFFFFFFF#64 0x4000000000000000#64 0xFFEFFFFFFFFFFFFF#64)) = some 0x7FEFFFFFFFFFFFFF#64 := by decide +kernel
theorem test_i2f_s8_ignores_upper : rOf (exec .i2fS8 (st 0xFFFFFFFFFFFFFF01#64 0x0000000000000000#64 0x0000000000000000#64)) = some 0x3FF0000000000000#64 := by decide +kernel
theorem test_i2f_u8 : rOf (exec .i2fU8 (st 0x00000000000000FF#64 0x0000000000000000#64 0x0000000000000000#64)) = some 0x406FE00000000000#64 := by decide +kernel
theorem test_i2f_s16 : rOf (exec .i2fS16 (st 0x0000000000008000#64 0x0000000000000000#64 0x0000000000000000#64)) = some 0xC0E0000000000000#64 := by decide +kernel
theorem test_i2f_u16 : rOf (exec .i2fU16 (st 0x000000000000FFFF#64 0x0000000000000000#64 0x0000000000000000#64)) = some 0x40EFFFE000000000#64 := by decide +kernel
theorem test_i2f_s32 : rOf (exec .i2fS32 (st 0x00000000FFFFFFF9#64 0x0000000000000000#64 0x0000000000000000#64)) = some 0xC01C000000000000#64 := by decide +kernel
theorem test_i2f_u32 : rOf (exec .i2fU32 (st 0x00000000FFFFFFFF#64 0x0000000000000000#64 0x0000000000000000#64)) = some 0x41EFFFFFFFE00000#64 := by decide +kernel
theorem test_i2f_s64_tie : rOf (exec .i2fS64 (st 0x0020000000000001#64 0x0000000000000000#64 0x0000000000000000#64)) = some 0x4340000000000000#64 := by decide +kernel
theorem test_i2f_u64_up : rOf (exec .i2fU64 (st 0x0020000000000003#64 0x0000000000000000#64 0x0000000000000000#64)) = some 0x4340000000000002#64 := by decide +kernel
theorem test_f2i_s8 : rOf (exec .f2iS8 (st 0xC00C000000000000#64 0x0000000000000000#64 0x0000000000000000#64)) = some 0xFFFFFFFFFFFFFFFD#64 := by decide +kernel
theorem test_f2i_u8 : rOf (exec .f2iU8 (st 0x406FFCCCCCCCCCCD#64 0x0000000000000000#64 0x0000000000000000#64)) = some 0x00000000000000FF#64 := by decide +kernel
theorem test_f2i_s16_saturates : rOf (exec .f2iS16 (st 0x40E3880000000000#64 0x0000000000000000#64 0x0000000000000000#64)) = some 0x0000000000007FFF#64 := by decide +kernel
theorem test_f2i_u16_saturates : rOf (exec .f2iU16 (st 0x40F1170000000000#64 0x0000000000000000#64 0x0000000000000000#64)) = some 0x000000000000FFFF#64 := by decide +kernel
theorem test_f2i_s32 : rOf (exec .f2iS32 (st 0xC00C000000000000#64 0x0000000000000000#64 0x0000000000000000#64)) = some 0xFFFFFFFFFFFFFFFD#64 := by decide +kernel
theorem test_f2i_u32 : rOf (exec .f2iU32 (st 0x41EFFFFFFFE00000#64 0x0000000000000000#64 0x0000000000000000#64)) = some 0x00000000FFFFFFFF#64 := by decide +kernel
theorem test_f2i_s64 : rOf (exec .f2iS64 (st 0xC3E0000000000000#64 0x0000000000000000#64 0x0000000000000000#64)) = some 0x8000000000000000#64 := by decide +kernel
theorem test_f2i_u64 : rOf (exec .f2iU64 (st 0x43E0000000000000#64 0x0000000000000000#64 0x0000000000000000#64)) = some 0x8000000000000000#64 := by decide +kernel
theorem test_f32tof64_subnormal : rOf (exec .f32ToF64 (st 0x00000000007FFFFF#64 0x0000000000000000#64 0x0000000000000000#64)) = some 0x380FFFFFC0000000#64 := by decide +kernel
theorem test_f32tof64_nan : rOf (exec .f32ToF64 (st 0x00000000FF800001#64 0x0000000000000000#64 0x0000000000000000#64)) = some 0x7FF8000000000000#64 := by decide +kernel
theorem test_f64tof32 : rOf (exec .f64ToF32 (st 0x3FB999999999999A#64 0x0000000000000000#64 0x0000000000000000#64)) = some 0x000000003DCCCCCD#64 := by decide +kernel
theorem test_f64tof32_overflow_tie : rOf (exec .f64ToF32 (st 0x47EFFFFFF0000000#64 0x0000000000000000#64 0x0000000000000000#64)) = some 0x000000007F800000#64 := by decide +kernel
theorem test_sin_minus_zero : rOf (exec .sin (st 0x8000000000000000#64 0x0000000000000000#64 0x0000000000000000#64)) = some 0x8000000000000000#64 := by decide +kernel
theorem test_sin_inf : rOf (exec .sin (st 0x7FF0000000000000#64 0x0000000000000000#64 0x0000000000000000#64)) = some 0x7FF8000000000000#64 := by decide +kernel
theorem test_cos_zero : rOf (exec .cos (st 0x0000000000000000#64 0x0000000000000000#64 0x0000000000000000#64)) = some 0x3FF0000000000000#64 := by decide +kernel
theorem test_cos_inf : rOf (exec .cos (st 0x7FF0000000000000#64 0x0000000000000000#64 0x0000000000000000#64)) = some 0x7FF8000000000000#64 := by decide +kernel
theorem test_tan_minus_zero : rOf (exec .tan (st 0x8000000000000000#64 0x0000000000000000#64 0x0000000000000000#64)) = some 0x8000000000000000#64 := by decide +kernel
theorem test_tan_inf : rOf (exec .tan (st 0xFFF0000000000000#64 0x0000000000000000#64 0x0000000000000000#64)) = some 0x7FF8000000000000#64 := by decide +kernel
theorem test_asin_zero : rOf (exec .asin (st 0x8000000000000000#64 0x0000000000000000#64 0x0000000000000000#64)) = some 0x8000000000000000#64 := by decide +kernel
theorem test_asin_domain : rOf (exec .asin (st 0x3FF0000000000001#64 0x0000000000000000#64 0x0000000000000000#64)) = some 0x7FF8000000000000#64 := by decide +kernel
theorem test_acos_one : rOf (exec .acos (st 0x3FF0000000000000#64 0x0000000000000000#64 0x0000000000000000#64)) = some 0x0000000000000000#64 := by decide +kernel
theorem test_acos_domain : rOf (exec .acos (st 0x3FF0000000000001#64 0x0000000000000000#64 0x0000000000000000#64)) = some 0x7FF8000000000000#64 := by decide +kernel
theorem test_atan_minus_inf : rOf (exec .atan (st 0xFFF0000000000000#64 0x0000000000000000#64 0x0000000000000000#64)) = some 0xBFF921FB54442D18#64 := by decide +kernel
theorem test_atan_nan : rOf (exec .atan (st 0x7FF8000000000000#64 0x0000000000000000#64 0x0000000000000000#64)) = some 0x7FF8000000000000#64 := by decide +kernel
theorem test_atan2_zeros : rOf (exec .atan2 (st 0x8000000000000000#64 0x8000000000000000#64 0x0000000000000000#64)) = some 0xC00921FB54442D18#64 := by decide +kernel
theorem test_atan2_infs : rOf (exec .atan2 (st 0x7FF0000000000000#64 0xFFF0000000000000#64 0x0000000000000000#64)) = some 0x4002D97C7F3321D2#64 := by decide +kernel
theorem test_exp_minus_inf : rOf (exec .exp (st 0xFFF0000000000000#64 0x0000000000000000#64 0x0000000000000000#64)) = some 0x0000000000000000#64 := by decide +kernel
theorem test_exp_zero : rOf (exec .exp (st 0x8000000000000000#64 0x0000000000000000#64 0x0000000000000000#64)) = some 0x3FF0000000000000#64 := by decide +kernel
theorem test_log_pole : rOf (exec .log (st 0x8000000000000000#64 0x0000000000000000#64 0x0000000000000000#64)) = some 0xFFF0000000000000#64 := by decide +kernel
theorem test_log_one : rOf (exec .log (st 0x3FF0000000000000#64 0x0000000000000000#64 0x0000000000000000#64)) = some 0x0000000000000000#64 := by decide +kernel
theorem test_pow_nan_zero : rOf (exec .pow (st 0x7FF8000000000000#64 0x0000000000000000#64 0x0000000000000000#64)) = some 0x3FF0000000000000#64 := by decide +kernel
theorem test_pow_odd_pole : rOf (exec .pow (st 0x8000000000000000#64 0xC008000000000000#64 0x0000000000000000#64)) = some 0xFFF0000000000000#64 := by decide +kernel
theorem test_sinh_minus_inf : rOf (exec .sinh (st 0xFFF0000000000000#64 0x0000000000000000#64 0x0000000000000000#64)) = some 0xFFF0000000000000#64 := by decide +kernel
theorem test_cosh_minus_inf : rOf (exec .cosh (st 0xFFF0000000000000#64 0x0000000000000000#64 0x0000000000000000#64)) = some 0x7FF0000000000000#64 := by decide +kernel
theorem test_tanh_minus_inf : rOf (exec .tanh (st 0xFFF0000000000000#64 0x0000000000000000#64 0x0000000000000000#64)) = some 0xBFF0000000000000#64 := by decide +kernel
theorem test_tanh_zero : rOf (exec .tanh (st 0x8000000000000000#64 0x0000000000000000#64 0x0000000000000000#64)) = some 0x8000000000000000#64 := by decide +kernel
theorem test_todec_fixed : decOf (exec (.todec 17#8 15#8) (st 0xBF50624DD2F1A9FC#64 0#64 0#64)) =
    some (1#1, 0xFFFD#16, [0x31#8], [0x2D#8, 0x30#8, 0x2E#8, 0x30#8, 0x30#8, 0x31#8]) := by decide +kernel
theorem test_todec_exponential : decOf (exec (.todec 3#8 2#8) (st 0x3F201F31F46ED246#64 0#64 0#64)) =
    some (0#1, 0xFFFC#16, [0x31#8, 0x32#8, 0x33#8], [0x31#8, 0x2E#8, 0x32#8, 0x33#8, 0x45#8, 0x2D#8, 0x34#8]) := by decide +kernel
theorem test_parse_exponent : parsedOf (exec .parse (stText [0x31#8, 0x65#8, 0x35#8, 0x78#8])) =
    some (0x40F86A0000000000#64, 3#16) := by decide +kernel
theorem test_parse_subnormal : parsedOf (exec .parse (stText [0x32#8, 0x2E#8, 0x34#8, 0x37#8, 0x30#8, 0x33#8, 0x32#8, 0x38#8, 0x32#8, 0x32#8, 0x39#8, 0x32#8, 0x30#8, 0x36#8, 0x32#8, 0x33#8, 0x32#8, 0x38#8, 0x65#8, 0x2D#8, 0x33#8, 0x32#8, 0x34#8])) =
    some (1#64, 23#16) := by decide +kernel

/-! The interface: traces A to C of 95_test_vectors.md, one clock edge each. -/

/-- The input ports with a request presented. -/
def present (q : Req) : Inputs := { rst := false, reqValid := true, req := q, respReady := false }

/-- ADD 1.0, 2.0. -/
def addReq : Req := { Req.zero with cmd := 0x10#32, a := 0x3FF0000000000000#64, b := 0x4000000000000000#64 }

/-- MUL 2.0, 2.0. -/
def mulReq : Req := { Req.zero with cmd := 0x12#32, a := 0x4000000000000000#64, b := 0x4000000000000000#64 }

/-- ADD in flight, one latency edge to pass, MUL presented at the first edge. -/
def addBusy : State :=
  { State.reset with phase := .busy, req := addReq, busyFor := 1, inputs := [present mulReq, present mulReq] }

/-- ADD about to be completed, the ports low. -/
def addDue : State := { addBusy with busyFor := 0, inputs := [] }

/-- ADD's response waiting. -/
def addDone : State := { addDue with phase := .done, resp := Resp.ofR 0x4008000000000000#64 }

/-- The same with the requester ready to take it. -/
def addTaken : State := { addDone with inputs := [{ Inputs.low with respReady := true }] }

/-- ADD in flight under reset. -/
def addReset : State := { addBusy with inputs := [{ Inputs.low with rst := true }] }

/-- The idle block with ADD presented. -/
def addPresented : State := { State.reset with inputs := [present addReq] }

/-- MUL has waited at the port unchanged, and the block is idle (trace A, edge 6). -/
def heldKept : State := { State.reset with inputs := [present mulReq], offer := .held mulReq }

theorem test_accept : phaseOf (step addPresented) = some .busy := by decide +kernel
theorem test_accept_waited : phaseOf (step heldKept) = some .busy := by decide +kernel
theorem test_waits_not_accepted : (respOf (step addBusy)).isSome ∧ phaseOf (step addBusy) = some .busy := by
  decide +kernel
theorem test_complete : respOf (step addDue) = some (Resp.ofR 0x4008000000000000#64) := by decide +kernel
theorem test_take : phaseOf (step addTaken) = some .idle := by decide +kernel
theorem test_reset_drops : phaseOf (step addReset) = some .idle ∧ addReset.respValid = false := by decide +kernel
theorem test_reserved_refused :
    refusalOf (step { addPresented with inputs := [present { addReq with cmd := 0x05#32 }] }) =
      some (.reservedOp 0x05#8) := by decide +kernel
theorem test_changed_refused : refusalOf (step { addPresented with offer := .held mulReq }) = some .requestChanged := by
  decide +kernel
theorem test_fetch_word : rOf (step ((st 0xC008000000000000#64 0#64 0#64).withFetchWord 32 0x03)) =
    some 0x4008000000000000#64 := by decide +kernel

/-! The datapaths and the informative integer path of POW: values the rules give. -/

theorem test_adder_datapath : addDatapath 0x3FB999999999999A#64 0x3FC999999999999A#64 = 0x3FD3333333333334#64 := by
  decide +kernel
theorem test_pow_integer_path : powIntegerPath 0x4000000000000000#64 0x4024000000000000#64 = 0x4090000000000000#64 := by
  decide +kernel
theorem test_rne_subnormal_tie : rne true 3 (2 ^ 1075) = 0x8000000000000002#64 := by decide +kernel

/-! Witnesses: for each statement with hypotheses, concrete operands and states that meet all of them together, one for
each clause, at the ends of ranges. -/

/-- A reserved word presented to the idle block. -/
def reservedPresented : State := { addPresented with inputs := [present { addReq with cmd := 0x4D#32 }] }

/-- ADD was held at the port while another ADD is in flight; MUL is presented now. -/
def heldBusy : State := { addBusy with offer := .held addReq }

/-- MUL is held at the port while ADD is in flight, and is presented unchanged. -/
def keptBusy : State := { addBusy with offer := .held mulReq }

/-- The request that waits at the port while ADD is in flight was changed at an earlier edge. -/
def changedBusy : State := { addBusy with offer := .changed }

/-- A request that was changed while it waited is presented to the idle block. -/
def changedIdle : State := { addPresented with offer := .changed }

/-- MUL was held at the port, another request is presented, and the block is idle. -/
def heldIdle : State := { addPresented with offer := .held mulReq }

/-- The idle block after other contents of the latches and another number of draws. -/
def otherIdle : State := { State.reset with req := mulReq, resp := Resp.ofR 7#64, drawn := 3, busyFor := 5 }

theorem witness_EncodeDecode :
    decode 0x000F1150#32 = .ok (.todec 17#8 15#8) ∧ decode 0x00ABCD10#32 = .ok .add := by decide

theorem witness_ReservedWords :
    (reservedPresented.pins.rst = false ∧ reservedPresented.phase = .idle ∧ reservedPresented.pins.reqValid = true ∧
      legalCommand reservedPresented.pins.req.cmd = false) ∧
    (0x00ABCD10#32 &&& 0xFF0000FF#32 = 0x00000010#32 &&& 0xFF0000FF#32 ∧
      (0x00ABCD10#32).extractLsb' 0 8 ≠ 0x50#8) := by decide +kernel

theorem witness_StepRunsDecoded :
    (addDue.pins.rst = false ∧ addDue.phase = .busy ∧ addDue.busyFor = 0 ∧ decode addDue.req.cmd = .ok .add) ∧
    decodeTableWord 32 0x000F1150 = some (.todec 17#8 15#8) := by decide +kernel

theorem witness_AcceptStep :
    (addPresented.pins.rst = false ∧ addPresented.phase = .idle ∧ addPresented.pins.reqValid = true ∧
      addPresented.offer = .none ∧ addPresented.offerKept = true ∧ decode addPresented.pins.req.cmd = .ok .add) ∧
    (heldKept.pins.rst = false ∧ heldKept.phase = .idle ∧ heldKept.pins.reqValid = true ∧
      heldKept.offer = .held mulReq ∧ heldKept.offerKept = true ∧ decode heldKept.pins.req.cmd = .ok .mul) ∧
    (State.reset.pins.rst = false ∧ State.reset.phase = .idle ∧ State.reset.pins.reqValid = false) ∧
    (addDue.phase ≠ .idle ∧ ∃ t, step addDue = .next t ∧ t.phase = .done) ∧
    (addBusy.phase ≠ .idle ∧ ∃ t, step addBusy = .next t ∧ t.phase = .busy) :=
  ⟨by decide +kernel, by decide +kernel, by decide, ⟨by decide, _, rfl, rfl⟩, ⟨by decide, _, rfl, rfl⟩⟩

theorem witness_WaitingRequestHasNoEffect :
    addBusy.phase ≠ .idle ∧ addBusy.pins.rst = false ∧ ∃ t, step addBusy = .next t :=
  ⟨by decide, rfl, _, rfl⟩

theorem witness_TakeStep :
    (addTaken.pins.rst = false ∧ addTaken.phase = .done ∧ addTaken.pins.respReady = true) ∧
    (addDone.pins.rst = false ∧ addDone.phase = .done ∧ addDone.pins.respReady = false) ∧
    (∃ t, step addTaken = .next t) := ⟨by decide +kernel, by decide +kernel, _, rfl⟩

theorem witness_ResetStep : addReset.pins.rst = true ∧ addReset.phase = .busy := by decide +kernel

theorem witness_ChangedRequestRefused :
    (addBusy.pins.rst = false ∧ addBusy.phase ≠ .idle ∧ addBusy.pins.reqValid = true ∧ addBusy.offer = .none ∧
      ∃ t, step addBusy = .next t) ∧
    (heldBusy.pins.rst = false ∧ heldBusy.phase ≠ .idle ∧ heldBusy.pins.reqValid = true ∧
      heldBusy.offer = .held addReq ∧ heldBusy.pins.req ≠ addReq ∧ ∃ t, step heldBusy = .next t) ∧
    (keptBusy.pins.rst = false ∧ keptBusy.phase ≠ .idle ∧ keptBusy.pins.reqValid = true ∧
      keptBusy.offer = .held mulReq ∧ keptBusy.pins.req = mulReq ∧ ∃ t, step keptBusy = .next t) ∧
    (changedBusy.pins.rst = false ∧ changedBusy.phase ≠ .idle ∧ changedBusy.pins.reqValid = true ∧
      changedBusy.offer = .changed ∧ ∃ t, step changedBusy = .next t) ∧
    (changedIdle.pins.rst = false ∧ changedIdle.phase = .idle ∧ changedIdle.pins.reqValid = true ∧
      changedIdle.offer = .changed) ∧
    (heldIdle.pins.rst = false ∧ heldIdle.phase = .idle ∧ heldIdle.pins.reqValid = true ∧
      heldIdle.offer = .held mulReq ∧ heldIdle.pins.req ≠ mulReq) :=
  ⟨⟨rfl, by decide, rfl, rfl, _, rfl⟩, ⟨rfl, by decide, rfl, rfl, by decide +kernel, _, rfl⟩,
    ⟨rfl, by decide, rfl, rfl, rfl, _, rfl⟩, ⟨rfl, by decide, rfl, rfl, _, rfl⟩, by decide +kernel, by decide +kernel⟩

theorem witness_BoundedCompletion :
    addBusy.phase = .busy ∧ (∀ p ∈ addBusy.inputs, p.rst = false) ∧ decode addBusy.req.cmd = .ok .add := by
  decide +kernel

/-- A request presented at this edge, and one that has waited unchanged. -/
theorem witness_RequestIsAnswered :
    (addPresented.phase = .idle ∧ addPresented.offerKept = true ∧ addPresented.offer = .none ∧
      addPresented.inputs = { rst := false, reqValid := true, req := addReq, respReady := false } :: [] ∧
      (∀ p ∈ ([] : List Inputs), p.rst = false) ∧ decode addReq.cmd = .ok .add) ∧
    (heldKept.phase = .idle ∧ heldKept.offerKept = true ∧ heldKept.offer = .held mulReq ∧
      heldKept.inputs = { rst := false, reqValid := true, req := mulReq, respReady := false } :: [] ∧
      (∀ p ∈ ([] : List Inputs), p.rst = false) ∧ decode mulReq.cmd = .ok .mul) := by decide +kernel

theorem reset_inv : State.reset.Inv where
  req_wf := rfl
  resp_wf := rfl
  inputs_wf := nofun
  offer_wf := rfl
  received_shaped := nofun
  busy_legal := nofun
  done_shaped := nofun
  busy_latency _ := rfl

/-- The invariant holds with a request in flight, and the clock edge has a next state. -/
theorem witness_InvStep : addDue.Inv ∧ ∃ t, step addDue = .next t ∧ t.phase = .done :=
  ⟨{ req_wf := rfl, resp_wf := rfl, inputs_wf := nofun, offer_wf := rfl, received_shaped := nofun,
     busy_legal := fun _ => by decide +kernel, done_shaped := nofun, busy_latency := fun _ => rfl }, _, rfl, rfl⟩

/-- Both sides of the equivalence: a dutiful requester, and one that presents a reserved word. -/
theorem witness_SafeIffDutiful :
    (State.reset.Inv ∧ State.reset.dutiful = true) ∧ (reservedPresented.Inv ∧ reservedPresented.dutiful = false) := by
  refine ⟨⟨reset_inv, rfl⟩, ?_, by decide +kernel⟩
  refine { reset_inv with inputs_wf := fun p hp => ?_ }
  rw [List.mem_singleton.mp hp]; rfl

theorem witness_UnspecifiedIsUnobservable :
    State.reset.observable = otherIdle.observable ∧ State.reset ≠ otherIdle := by decide +kernel

/-- Requests that differ in every field the operation does not read. -/
theorem witness_ResponseOfRequestAlone :
    readsSame .i2fS8 { addReq with a := 0x01#64 } { mulReq with a := 0xFFFFFFFFFFFFFF01#64 } ∧
    readsSame .neg { addReq with c := 1#64 } { addReq with b := 5#64, len := 9#8 } ∧
    readsSame .cmp addReq { addReq with c := 1#64, cmd := 0#32 } ∧
    readsSame .parse { addReq with len := 1#8, txt := [(0, 0x31#8)] }
      { mulReq with len := 1#8, txt := [(0, 0x31#8), (1, 0x32#8)] } := by
  refine ⟨?_, ?_, ?_, ?_⟩ <;> simp only [readsSame, formatOf, operandBits] <;> decide +kernel

theorem witness_ExecFrame : ∃ t, exec (.todec 17#8 15#8) (st 0x3FF0000000000000#64 0#64 0#64) = .next t := ⟨_, rfl⟩

theorem witness_ClassifyResult :
    (st 0x8000000000000001#64 0#64 0#64).req.a = (st 1#64 0#64 0#64).req.a ^^^ 0x8000000000000000#64 := by
  decide +kernel

theorem witness_DecodeResult : isFinite (st 0xFFEFFFFFFFFFFFFF#64 0#64 0#64).req.a = true := by decide +kernel

theorem witness_NormalisedForm :
    isFiniteNonzero 0x0000000000000001#64 = true ∧ cat 0x000FFFFFFFFFFFFF#64 = .subnormal ∧
    isFiniteNonzero 0x000FFFFFFFFFFFFF#64 = true ∧ cat 0x0010000000000000#64 = .normal ∧
    isFiniteNonzero 0x7FEFFFFFFFFFFFFF#64 = true ∧
    (2 ^ 52 ≤ 2 ^ 52 ∧ 2 ^ 52 < 2 ^ 53 ∧ |val ℚ 0x3FF0000000000000#64| = ((2 ^ 52 : ℕ) : ℚ) * 2 ^ (-52 : ℤ)) := by
  decide +kernel

theorem witness_NegAbsResult : isFinite 0x8000000000000000#64 = true ∧ isFinite 0xFFEFFFFFFFFFFFFF#64 = true := by
  decide +kernel

/-- The overflow threshold of rule R113 in units of `2^970`. -/
theorem overflow_threshold : (2 : ℝ) ^ 1024 - 2 ^ 970 = (2 ^ 54 - 1) * 2 ^ 970 := by
  rw [sub_mul, one_mul, ← pow_add]

theorem below_threshold {q : ℝ} (h : q < 2 ^ 54 - 1) : q < 2 ^ 1024 - 2 ^ 970 := by
  rw [overflow_threshold]
  exact h.trans_le (le_mul_of_one_le_right (by norm_num) (one_le_pow₀ one_le_two))

theorem maxF_below_threshold : ((2 : ℝ) ^ 53 - 1) * 2 ^ 971 < 2 ^ 1024 - 2 ^ 970 := by
  rw [overflow_threshold, show (971 : ℕ) = 1 + 970 from rfl, pow_add, ← mul_assoc]
  exact mul_lt_mul_of_pos_right (by norm_num) (by positivity)

/-- The range's ends, and a tie: `2^53 + 1` between `2^53` and `2^53 + 2`. -/
theorem witness_RoundsToNearestEven :
    ((0 : ℝ) ≤ 0 ∧ (0 : ℝ) < 2 ^ 1024 - 2 ^ 970) ∧
    ((0 : ℝ) ≤ 9007199254740993 ∧ (9007199254740993 : ℝ) < 2 ^ 1024 - 2 ^ 970 ∧
      isFinite 0x4340000000000001#64 = true ∧
      abs ((9007199254740993 : ℝ) - |val ℝ 0x4340000000000001#64|) =
        abs ((9007199254740993 : ℝ) - |val ℝ (rneOn false (9007199254740993 : ℝ))|) ∧
      |val ℝ 0x4340000000000001#64| ≠ |val ℝ (rneOn false (9007199254740993 : ℝ))|) := by
  have hr : rneOn false (9007199254740993 : ℝ) = 0x4340000000000000#64 := by
    have h := rne_eq_rneOn (K := ℝ) false 9007199254740993 1 one_pos
    rw [Nat.cast_one, div_one, Nat.cast_ofNat] at h
    rw [← h]; decide +kernel
  have h1 : val ℝ 0x4340000000000001#64 = 9007199254740994 := by
    rw [val, show signOf 0x4340000000000001#64 = false from rfl, show expOf 0x4340000000000001#64 = 1076 from rfl,
      show fracOf 0x4340000000000001#64 = 1 from rfl]
    norm_num
  have h2 : val ℝ 0x4340000000000000#64 = 9007199254740992 := by
    rw [val, show signOf 0x4340000000000000#64 = false from rfl, show expOf 0x4340000000000000#64 = 1076 from rfl,
      show fracOf 0x4340000000000000#64 = 0 from rfl]
    norm_num
  rw [hr, h1, h2]
  exact ⟨⟨le_rfl, below_threshold (by norm_num)⟩, by norm_num, below_threshold (by norm_num), by decide +kernel,
    by norm_num, by norm_num⟩

theorem witness_RoundingThresholds :
    (∃ q : ℝ, 0 ≤ q ∧ q < 2 ^ (-1022 : ℤ)) ∧
    (∃ q : ℝ, 0 ≤ q ∧ 2 ^ (-1075 : ℤ) < q ∧ q < 3 * 2 ^ (-1075 : ℤ)) ∧ (∃ q : ℝ, 0 ≤ q ∧ q = 3 * 2 ^ (-1075 : ℤ)) ∧
    (∃ q : ℝ, 0 ≤ q ∧ (2 ^ 53 - 1) * 2 ^ 971 ≤ q ∧ q < 2 ^ 1024 - 2 ^ 970) := by
  refine ⟨⟨0, le_rfl, by positivity⟩, ⟨2 * 2 ^ (-1075 : ℤ), by positivity, ?_, ?_⟩, ⟨_, by positivity, rfl⟩,
    ⟨(2 ^ 53 - 1) * 2 ^ 971, mul_nonneg (by norm_num) (by positivity), le_rfl, maxF_below_threshold⟩⟩
  · have h : (0 : ℝ) < 2 ^ (-1075 : ℤ) := by positivity
    linarith
  · have h : (0 : ℝ) < 2 ^ (-1075 : ℤ) := by positivity
    linarith

theorem witness_StickyRounding :
    2 ^ 53 ≤ 2 ^ 53 ∧ ((2 ^ 53 : ℕ) : ℝ) * 2 ^ (0 : ℤ) < 2 ^ 53 + 1 / 2 ∧
      (2 ^ 53 + 1 / 2 : ℝ) < (((2 ^ 53 : ℕ) : ℝ) + 1) * 2 ^ (0 : ℤ) := by norm_num

theorem witness_RoundingProperties :
    isFinite 0x8000000000000000#64 = true ∧ ((0 : ℝ) ≤ 0 ∧ (0 : ℝ) ≤ 1) ∧
    ((2 : ℝ) ^ (-1022 : ℤ) ≤ 2 ^ (-1022 : ℤ) ∧ (2 : ℝ) ^ (-1022 : ℤ) < 2 ^ 1024 - 2 ^ 970) := by
  refine ⟨by decide, ⟨le_rfl, zero_le_one⟩, le_rfl, ?_⟩
  have h : (2 : ℝ) ^ (-1022 : ℤ) ≤ 1 := zpow_le_one_of_nonpos₀ one_le_two (by norm_num)
  exact below_threshold (h.trans_lt (by norm_num))

theorem witness_SubResult :
    ((st 3#64 0x8000000000000005#64 0#64).req.a = (st 3#64 5#64 0#64).req.a ∧
      (st 3#64 0x8000000000000005#64 0#64).req.b = (st 3#64 5#64 0#64).req.b ^^^ 0x8000000000000000#64) ∧
    (isFinite (st 0#64 0x8000000000000000#64 0#64).req.a = true ∧
      isFinite (st 0#64 0x8000000000000000#64 0#64).req.b = true) := by decide +kernel

theorem witness_SqrtResult :
    isFiniteNonzero 0x0000000000000001#64 = true ∧ signOf 0x0000000000000001#64 = false ∧
    isFiniteNonzero 0x7FEFFFFFFFFFFFFF#64 = true ∧ signOf 0x7FEFFFFFFFFFFFFF#64 = false := by decide +kernel

theorem witness_SumsAndCommutation :
    ((st 5#64 3#64 0#64).req.a = (st 3#64 5#64 0#64).req.b ∧ (st 5#64 3#64 0#64).req.b = (st 3#64 5#64 0#64).req.a) ∧
    (isFinite (st 0x8000000000000000#64 0#64 0#64).req.a = true ∧
      (st 0x8000000000000000#64 0#64 0#64).req.b = negF (st 0x8000000000000000#64 0#64 0#64).req.a) ∧
    ((st (zeroF true) (zeroF true) 0#64).req.a = zeroF true ∧ (st (zeroF true) (zeroF true) 0#64).req.b = zeroF true) := by
  decide +kernel

theorem witness_AdderDatapath :
    isFinite (st 0x7FEFFFFFFFFFFFFF#64 0x8000000000000001#64 0#64).req.a = true ∧
    isFinite (st 0x7FEFFFFFFFFFFFFF#64 0x8000000000000001#64 0#64).req.b = true := by decide +kernel

theorem witness_MulDivDatapaths :
    isFiniteNonzero (st 0x7FEFFFFFFFFFFFFF#64 0x8000000000000001#64 0#64).req.a = true ∧
    isFiniteNonzero (st 0x7FEFFFFFFFFFFFFF#64 0x8000000000000001#64 0#64).req.b = true := by decide +kernel

/-- An operand `x` twice. -/
def twice (x : F64) : State := st x x 0#64

/-- The hypotheses for one operand, with the product MUL gives. -/
theorem square_hypotheses (x : F64) :
    (twice x).req.b = (twice x).req.a ∧ exec .mul (twice x) = .next ((twice x).respond (Resp.ofR (mulF x x))) ∧
    (st (mulF x x) 0#64 0#64).req.a = mulF x x := ⟨rfl, rfl, rfl⟩

/-- Each clause at the ends of its range: `2^-511`, the pattern below `2^512`, the largest subnormal, `2^512`. -/
theorem witness_SqrtOfSquare :
    (twice 0x2000000000000000#64).req.b = (twice 0x2000000000000000#64).req.a ∧
    exec .mul (twice 0x2000000000000000#64) =
      .next ((twice 0x2000000000000000#64).respond (Resp.ofR (mulF 0x2000000000000000#64 0x2000000000000000#64))) ∧
    (isFinite (twice 0x2000000000000000#64).req.a = true ∧ 2 ^ (-511 : ℤ) ≤ |val ℚ (twice 0x2000000000000000#64).req.a| ∧
      |val ℚ (twice 0x2000000000000000#64).req.a| < 2 ^ 512) ∧
    (isFinite (twice 0x5FEFFFFFFFFFFFFF#64).req.a = true ∧ 2 ^ (-511 : ℤ) ≤ |val ℚ (twice 0x5FEFFFFFFFFFFFFF#64).req.a| ∧
      |val ℚ (twice 0x5FEFFFFFFFFFFFFF#64).req.a| < 2 ^ 512) ∧
    cat (twice 0x000FFFFFFFFFFFFF#64).req.a = .subnormal ∧
    (isFinite (twice 0x5FF0000000000000#64).req.a = true ∧ 2 ^ 512 ≤ |val ℚ (twice 0x5FF0000000000000#64).req.a|) :=
  ⟨rfl, (square_hypotheses _).2.1, by decide +kernel, by decide +kernel, by decide +kernel, by decide +kernel⟩

theorem witness_CompareResult :
    (isFinite 0x8000000000000000#64 = true ∧ isFinite 0x7FEFFFFFFFFFFFFF#64 = true) ∧
    ((st 5#64 3#64 0#64).req.a = (st 3#64 5#64 0#64).req.b ∧ (st 5#64 3#64 0#64).req.b = (st 3#64 5#64 0#64).req.a) := by
  decide +kernel

theorem witness_IntToFloatResult : |(2 : ℤ) ^ 53| ≤ 2 ^ 53 ∧ |(-2 : ℤ) ^ 53| ≤ 2 ^ 53 := by decide

theorem witness_IntToFloatExact :
    |(-2 : ℤ) ^ 53| ≤ 2 ^ 53 ∧ |(2 : ℤ) ^ 64| ≤ 2 ^ 64 ∧ (|(-1 : ℤ)| ≤ 2 ^ 64 ∧ |(1 : ℤ)| ≤ 2 ^ 64 ∧ (-1 : ℤ) ≤ 1) ∧
    (1 : ℤ) ≠ 0 := by decide

theorem witness_IntegerRoundTrip :
    exec .i2fS8 (st 0x80#64 0#64 0#64) =
      .next ((st 0x80#64 0#64 0#64).respond (Resp.ofR (i2f (signedOperand 8 0x80#64)))) ∧
    exec .i2fU32 (st 0xFFFFFFFF#64 0#64 0#64) =
      .next ((st 0xFFFFFFFF#64 0#64 0#64).respond (Resp.ofR (i2f (unsignedOperand 32 0xFFFFFFFF#64)))) ∧
    (st (i2f (signedOperand 8 0x80#64)) 0#64 0#64).req.a = i2f (signedOperand 8 0x80#64) := ⟨rfl, rfl, rfl⟩

theorem witness_ConversionDatapaths :
    ((-1 : ℤ) ≠ 0 ∧ |(-1 : ℤ)| ≤ 2 ^ 64) ∧ ((2 : ℤ) ^ 64 ≠ 0 ∧ |(2 : ℤ) ^ 64| ≤ 2 ^ 64) ∧
    (isFinite 0xBFEFFFFFFFFFFFFF#64 = true ∧ |val ℚ 0xBFEFFFFFFFFFFFFF#64| < 1) := by decide +kernel

/-- A float32 operand of each category. -/
theorem witness_WidenResult :
    0x00000001#32 = (st 0xFFFFFFFF00000001#64 0#64 0#64).req.a.setWidth 32 ∧ cat32 0x00000001#32 = .subnormal ∧
    cat32 0x7F7FFFFF#32 = .normal ∧ cat32 0x80000000#32 = .zero ∧ cat32 0xFF800000#32 = .infinite ∧
    cat32 0xFF800001#32 = .nan := by decide +kernel

theorem witness_NarrowResult :
    isFiniteNonzero 0x47EFFFFFF0000000#64 = true ∧ isFiniteNonzero 0x3690000000000000#64 = true ∧
    cat 0x8000000000000000#64 = .zero ∧ cat 0xFFF0000000000000#64 = .infinite ∧ cat 0x7FF0000000000001#64 = .nan := by
  decide +kernel

theorem witness_Float32RoundTrip :
    cat 0xFFF0000000000000#64 ≠ .nan ∧ cat32 0x80000000#32 ≠ .nan ∧
    (cat 0xFFF0000000000000#64 ≠ .nan ∧ cat 0x7FF0000000000000#64 ≠ .nan ∧
      key 0xFFF0000000000000#64 ≤ key 0x7FF0000000000000#64) := by decide +kernel

theorem witness_TrigResult :
    cat 0x7FF0000000000001#64 = .nan ∧ cat 0xFFF0000000000000#64 = .infinite ∧ cat 0x8000000000000000#64 = .zero ∧
    isFiniteNonzero 0x8000000000000001#64 = true ∧ isFiniteNonzero 0x7FEFFFFFFFFFFFFF#64 = true := by decide +kernel

theorem witness_InverseTrigResult :
    (isFinite 0x3FF0000000000001#64 = true ∧ 1 < |val ℚ 0x3FF0000000000001#64|) ∧
    (isFinite 0x3FF0000000000000#64 = true ∧ val ℚ 0x3FF0000000000000#64 = 1) ∧
    (isFiniteNonzero 0xBFF0000000000000#64 = true ∧ |val ℚ 0xBFF0000000000000#64| ≤ 1 ∧
      val ℚ 0xBFF0000000000000#64 ≠ 1) ∧
    cat 0x8000000000000000#64 = .zero ∧ cat 0xFFF0000000000000#64 = .infinite ∧ cat 0x7FF8000000000000#64 = .nan := by
  decide +kernel

theorem witness_Atan2Result :
    (cat 0x8000000000000000#64 ≠ .nan ∧ cat 0x8000000000000000#64 = .zero) ∧
    (isFiniteNonzero 0x0000000000000001#64 = true ∧ cat 0x0000000000000001#64 ≠ .nan ∧
      cat 0x0000000000000001#64 ≠ .zero) ∧
    (cat 0xFFF0000000000000#64 ≠ .nan ∧ cat 0xFFF0000000000000#64 = .infinite) ∧ cat 0x7FF0000000000001#64 = .nan := by
  decide +kernel

theorem witness_ExpLogResult :
    cat 0x7FF0000000000001#64 = .nan ∧ cat 0x8000000000000000#64 = .zero ∧
    (cat 0xFFF0000000000000#64 ≠ .nan ∧ cat 0xFFF0000000000000#64 ≠ .zero ∧ signOf 0xFFF0000000000000#64 = true) ∧
    (cat 0x7FF0000000000000#64 = .infinite ∧ signOf 0x7FF0000000000000#64 = false) ∧
    (isFinite 0x3FF0000000000000#64 = true ∧ val ℚ 0x3FF0000000000000#64 = 1) ∧
    (isFinite 0x0000000000000001#64 = true ∧ 0 < val ℚ 0x0000000000000001#64 ∧ val ℚ 0x0000000000000001#64 ≠ 1) := by
  decide +kernel

theorem witness_IntegerTests :
    isFinite 0xBFF0000000000000#64 = true ∧ isFinite 0x7FF0000000000000#64 = false ∧
    (isFinite 0x4340000000000000#64 = true ∧ 2 ^ 53 ≤ |val ℚ 0x4340000000000000#64|) := by decide +kernel

theorem witness_HyperbolicResult :
    cat 0x7FF0000000000001#64 = .nan ∧ cat 0x8000000000000000#64 = .zero ∧ cat 0xFFF0000000000000#64 = .infinite ∧
    isFiniteNonzero 0x8000000000000001#64 = true := by decide +kernel

theorem witness_MethodIdentities :
    ((0 : ℤ) = quadrantCount Real.pi 0 ∧ (0 : ℝ) = reducedArgument Real.pi 0) ∧ (1 : ℝ) < |(-2 : ℝ)| ∧ (0 : ℝ) < 1 := by
  refine ⟨⟨by simp [quadrantCount], by simp [reducedArgument, quadrantCount]⟩, by norm_num, one_pos⟩

/-- TODEC of the largest subnormal with its digits generated as the statement says, and an operand of each other
category. -/
theorem witness_TodecResult :
    isFiniteNonzero 0x000FFFFFFFFFFFFF#64 = true ∧ cat 0x7FF0000000000001#64 = .nan ∧
    cat 0xFFF0000000000000#64 = .infinite ∧ cat 0x8000000000000000#64 = .zero ∧
    (∃ (q : ℚ) (n : ℕ) (k e0 : ℤ) (D D' : ℕ), q = |val ℚ 0x000FFFFFFFFFFFFF#64| ∧
      n = min (max (255#8).toNat 1) 17 ∧ k = Int.log 10 q ∧ D = rheOn (q / 10 ^ (k - n + 1)) ∧
      D' = (if D = 10 ^ n then 10 ^ (n - 1) else D) ∧ e0 = (if D = 10 ^ n then k + 1 else k)) :=
  ⟨by decide, by decide, by decide, by decide, _, _, _, _, _, _, rfl, rfl, rfl, rfl, rfl, rfl⟩

theorem witness_TodecShape : isFiniteNonzero (st 0x8000000000000001#64 0#64 0#64).req.a = true := by decide +kernel

/-- The round trip's hypotheses: a negative subnormal with the longest leading zeros that always fit, and a PARSE
request that holds the text of zero. -/
theorem witness_DecimalRoundTrip :
    isFinite (st 0x8000000000000001#64 0#64 0#64).req.a = true ∧ 17 ≤ (17#8).toNat ∧ (235#8).toNat ≤ 235 ∧
    (∃ R, exec (.todec 17#8 235#8) (st 0#64 0#64 0#64) = .next ((st 0#64 0#64 0#64).respond R) ∧
      R.tlen.toNat ≤ txtInMax ∧ (stText [0x30#8]).req.len.toNat = R.tlen.toNat ∧
      ∀ j, j < R.tlen.toNat → (stText [0x30#8]).req.txt.read j = R.txt.read j) :=
  ⟨by decide, by decide, by decide, _, rfl, by decide +kernel, by decide +kernel, by
    intro j hj
    have h : j = 0 := Nat.lt_one_iff.mp hj
    subst h; decide +kernel⟩

/-- The numeral "1". -/
def one : Numeral := { sign := none, ints := [0x31#8], frac := none, expo := none }

/-- Both clauses: a text whose longest derived prefix is all of it, and the empty text, no prefix of which the grammar
derives. -/
theorem witness_ParseResult :
    (one.valid = true ∧ one.text <+: (stText [0x31#8]).req.text ∧
      ∀ m' : Numeral, m'.valid = true → m'.text <+: (stText [0x31#8]).req.text → m'.text.length ≤ one.text.length) ∧
    (∀ m : Numeral, m.valid = true → ¬ m.text <+: (stText []).req.text) := by
  have h1 : (stText [0x31#8]).req.text = [0x31#8] := by decide +kernel
  have h2 : (stText []).req.text = [] := by decide +kernel
  rw [h1, h2]
  refine ⟨⟨by decide, by decide, fun m' _ h => h.length_le⟩, fun m hv h => ?_⟩
  have ht := List.prefix_nil.mp h
  simp only [Numeral.text, List.append_eq_nil_iff] at ht
  obtain ⟨⟨⟨_, hi⟩, hf⟩, _⟩ := ht
  have hm : m.frac = none := by
    cases hc : m.frac with
    | none => rfl
    | some fs => rw [Numeral.fracText, hc] at hf; cases hf
  simp [Numeral.valid, Numeral.mantissaValid, hi, hm] at hv

theorem witness_ParseProperties :
    (parseResp [0x31#8, 0x78#8]).x ≠ 0#16 ∧
    (stText [0x31#8]).req.len.toNat = (parseResp [0x31#8, 0x78#8]).x.toNat ∧
    (stText [0x31#8]).req.txt.read 0 = (stText [0x31#8, 0x78#8]).req.txt.read 0 := by decide +kernel

end Sys2Proof.Tests
end

section
/-! PROOFS. Command words: the ranges of rule R70 and the decoder's table of rule R63 accept the same words. -/

namespace Sys2Proof

/-- The parameters do not decide whether an op code is one of rule R63. -/
theorem decodeOp_isSome_params (op p0 p1 : BitVec 8) :
    (decodeOp op p0 p1).isSome = (decodeOp op 0#8 0#8).isSome := by
  unfold decodeOp
  split <;> simp_all

/-- The op codes of rule R63 are those outside the reserved ranges of rule R70. -/
theorem decodeOp_isSome (op p0 p1 : BitVec 8) : (decodeOp op p0 p1).isSome = legalOp op.toNat := by
  rw [decodeOp_isSome_params]
  revert op
  decide

theorem cmdRsv_eq_zero_iff (w : Command) : cmdRsv w = 0#8 ↔ legalRsv w = true := by
  have hlt := w.isLt
  simp only [cmdRsv, legalRsv, ← BitVec.toNat_inj, BitVec.extractLsb'_toNat, Nat.shiftRight_eq_div_pow,
    BitVec.toNat_ofNat, beq_iff_eq]
  omega

theorem cmdOp_toNat (w : Command) : (cmdOp w).toNat = w.toNat % 2 ^ 8 := by
  simp [cmdOp]

/-- Exactly the legal command words decode to an operation (rule R70). -/
theorem exists_decode_iff_legalCommand (w : Command) : (∃ i, decode w = .ok i) ↔ legalCommand w = true := by
  have hop := decodeOp_isSome (cmdOp w) (cmdP0 w) (cmdP1 w)
  rw [cmdOp_toNat] at hop
  rw [legalCommand, Bool.and_eq_true, ← cmdRsv_eq_zero_iff, ← hop, decode]
  by_cases hr : cmdRsv w = 0#8
  · cases decodeOp (cmdOp w) (cmdP0 w) (cmdP1 w) <;> simp [hr]
  · simp [hr]

theorem legalCommand_of_decode {w : Command} {i : Instr} (h : decode w = .ok i) : legalCommand w = true :=
  (exists_decode_iff_legalCommand w).mp ⟨i, h⟩

/-- A word the host's interface decodes as a number is the word `decode` reads. -/
theorem decode_of_decodeTableWord {nbits w : Nat} {i : Instr} (h : decodeTableWord nbits w = some i) :
    decode (BitVec.ofNat 32 (w % 2 ^ nbits)) = .ok i := by
  rw [decodeTableWord] at h
  split at h
  · split at h
    · next j hj => rw [hj, Option.some.inj h]
    · cases h
  · cases h

end Sys2Proof
end

section
/-! PROOFS. The responses of the operations: what they depend on, and that each has the shape of rule R27. -/

namespace Sys2Proof.Machine

/-- The response of an operation to a request (rule R29): what `exec` puts into `RESP`. -/
def responseTo (i : Instr) (q : Req) : Resp :=
  match exec i { State.reset with req := q } with
  | .next t => t.resp
  | _ => Resp.zero

/-- Every operation answers, with a response to the request alone, and changes nothing else (rules R29, R46). -/
theorem exec_eq_respond (i : Instr) (s : State) : exec i s = .next (s.respond (responseTo i s.req)) := by
  cases i <;> rfl

/-! The bounds of TODEC's strings (rules R271, R281). -/

theorem two_pow_le_ten_pow {a n : Nat} (h : a ≤ n) : 2 ^ a ≤ 10 ^ n :=
  (Nat.pow_le_pow_right two_pos h).trans (Nat.pow_le_pow_left (by norm_num) n)

/-- A biased exponent has 11 bits and a mantissa 53, so every magnitude is below `2^2100` units (rules R90, R93). -/
theorem magUnits_lt {n : Nat} (hn : 2100 ≤ n) (b : F64) : magUnits b < 10 ^ n := by
  have he : expOf b < 2 ^ 11 := (b.extractLsb' 52 11).isLt
  have hf : fracOf b < 2 ^ 52 := (b.extractLsb' 0 52).isLt
  have hm : magUnits b ≤ (2 ^ 52 + fracOf b) * 2 ^ (expOf b - 1) := by
    rw [magUnits]
    split
    · exact (Nat.le_add_left _ _).trans (Nat.le_mul_of_pos_right _ (by positivity))
    · exact le_rfl
  calc magUnits b ≤ (2 ^ 52 + fracOf b) * 2 ^ (expOf b - 1) := hm
    _ < 2 ^ 53 * 2 ^ (expOf b - 1) := Nat.mul_lt_mul_of_pos_right (by omega) (by positivity)
    _ = 2 ^ (53 + (expOf b - 1)) := (pow_add _ _ _).symm
    _ ≤ 10 ^ n := two_pow_le_ten_pow (by omega)

theorem unitsPerOne_le {n : Nat} (hn : 1074 ≤ n) : unitsPerOne ≤ 10 ^ n := by
  have h : ((unitsPerOne : ℕ) : ℚ) ≤ 2 ^ n := by
    rw [unitsPerOne_cast]
    exact pow_le_pow_right₀ (by norm_num) hn
  exact (by exact_mod_cast h : unitsPerOne ≤ 2 ^ n).trans (two_pow_le_ten_pow le_rfl)

/-- A quotient of numbers of at most `N` decimal digits has a decimal exponent of magnitude at most `N`. -/
theorem natAbs_floorLog10_le {num den N : Nat} (h0 : num ≠ 0) (hn : num < 10 ^ N) (hd : den ≤ 10 ^ N) :
    (floorLog10 num den).natAbs ≤ N := by
  have exponent_lt : ∀ {k}, 10 ^ k < 10 ^ N → k < N := (Nat.pow_lt_pow_iff_right (by norm_num)).mp
  rw [floorLog10]
  split
  · rw [Int.natAbs_natCast]
    by_cases hq : num / den = 0
    · rw [hq]; exact Nat.zero_le _
    · exact (exponent_lt (((ilog10_spec hq).1.trans (Nat.div_le_self _ _)).trans_lt hn)).le
  · next hlt =>
    have hs := (stepsToOne_spec h0 (not_le.mp hlt)).1
    have hk := exponent_lt (((Nat.le_mul_of_pos_left _ (Nat.pos_of_ne_zero h0)).trans_lt hs).trans_le hd)
    omega

theorem length_stripZeros_le (ds : List Nat) : (stripZeros ds).length ≤ ds.length := by
  obtain ⟨k, hk⟩ := stripZeros_append ds
  calc (stripZeros ds).length ≤ (stripZeros ds ++ List.replicate k 0).length := by simp
    _ = ds.length := by rw [← hk]

/-- Digit generation gives at most as many digits as asked for. -/
theorem length_digits_le (num den n : Nat) : (digits num den n).1.length ≤ n := by
  simp only [digits]
  split <;> exact (length_stripZeros_le _).trans (decDigits_length n _).le

/-- Rounding up to the next power of ten raises the exponent by one at most. -/
theorem natAbs_digits_le {num den N : Nat} (n : Nat) (h0 : num ≠ 0) (hn : num < 10 ^ N) (hd : den ≤ 10 ^ N) :
    (digits num den n).2.natAbs ≤ N + 1 := by
  have h := natAbs_floorLog10_le h0 hn hd
  simp only [digits]
  split
  · show (floorLog10 num den + 1).natAbs ≤ N + 1
    omega
  · exact h.trans (Nat.le_succ N)

theorem length_numeral_le {k m : Nat} (hm : 0 < m) (hk : k < 10 ^ m) : (numeral k).length ≤ m := by
  rw [numeral]
  split
  · exact hm
  · next h0 =>
    have h : ilog10 k < m := (Nat.pow_lt_pow_iff_right (by norm_num)).mp ((ilog10_spec h0).1.trans_lt hk)
    rw [decDigits_length]
    exact h

theorem length_signText_le (s : Bool) : (signText s).length ≤ 1 := by cases s <;> decide

/-- The point is written only where digits follow it (rule R275). -/
theorem length_fraction_le (ds : List Byte) : (if ds = [] then [] else chPoint :: ds).length ≤ ds.length + 1 := by
  split <;> simp

/-- TODEC's longest text is a sign, "0.", `p1` zeros and all digits (rule R275): the other two forms have no leading
zeros, and their padding and exponent are short (rules R274, R276). -/
theorem length_renderText_le (s : Bool) {dig : List Nat} {e0 : Int} {n p1 : Nat} (hn : n ≤ digMax)
    (hd : dig.length ≤ n) (he : e0.natAbs < 10 ^ 4) (hp : p1 < 2 ^ 8) :
    (renderText s dig e0 n p1).length ≤ txtOutMax := by
  have hs := length_signText_le s
  have hlen : (dig.map digitByte).length = dig.length := List.length_map _
  simp only [digMax] at hn
  simp only [renderText, txtOutMax]
  generalize dig.map digitByte = ds at hlen
  split
  · next hfix =>
    have hfp := length_fraction_le (ds.drop (e0.toNat + 1))
    simp only [List.length_append, List.length_take, List.length_replicate, List.length_drop] at hfp ⊢
    omega
  · split
    · next hlead =>
      simp only [List.length_append, List.length_replicate, List.length_cons, List.length_nil]
      omega
    · have hfp : (if 1 < ds.length then chPoint :: ds.drop 1 else []).length ≤ ds.length + 1 := by
        split <;> simp
      have hnum := length_numeral_le (by norm_num) he
      simp only [List.length_append, List.length_take, List.length_map, List.length_cons, List.length_nil] at hfp ⊢
      omega

theorem clampDigits_le (p0 : Nat) : clampDigits p0 ≤ digMax := min_le_right _ _

/-! The shape of the responses (rules R27, R67). -/

theorem decResp_shaped (sgn : Bool) (c : Category) (x : Int) {dig txt : List Byte} (hd : dig.length ≤ digMax)
    (ht : txt.length ≤ txtOutMax) : (decResp sgn c dig x txt).shaped = true := by
  obtain ⟨-, -, -, -, h⟩ := decResp_spec sgn c x hd ht
  exact h

theorem todecFinite_shaped (a : F64) (c : Category) (p0 : Nat) {p1 : Nat} (ha : isFiniteNonzero a = true)
    (hp : p1 < 2 ^ 8) : (todecFinite a c p0 p1).shaped = true := by
  have hlen := length_digits_le (magUnits a) unitsPerOne (clampDigits p0)
  have hexp : (digits (magUnits a) unitsPerOne (clampDigits p0)).2.natAbs ≤ 2100 + 1 :=
    natAbs_digits_le _ (magUnits_pos a ha).ne' (magUnits_lt le_rfl a) (unitsPerOne_le (by norm_num))
  refine decResp_shaped _ c _ ?_ ?_
  · rw [List.length_map]
    exact hlen.trans (clampDigits_le p0)
  · exact length_renderText_le _ (clampDigits_le p0) hlen (by omega) hp

theorem todecResp_shaped (a : F64) (p0 : Nat) {p1 : Nat} (hp : p1 < 2 ^ 8) : (todecResp a p0 p1).shaped = true := by
  rw [todecResp]
  cases hc : cat a
  case nan => exact decResp_shaped _ _ _ (by decide) (by decide)
  case infinite => exact decResp_shaped _ _ _ (by decide) (by cases signOf a <;> decide)
  case zero => exact decResp_shaped _ _ _ (by decide) (by cases signOf a <;> decide)
  case subnormal => exact todecFinite_shaped a _ p0 (by rw [isFiniteNonzero, hc]; rfl) hp
  case normal => exact todecFinite_shaped a _ p0 (by rw [isFiniteNonzero, hc]; rfl) hp

/-- A response without strings has the shape of rule R27 when its code is one of rule R67. -/
theorem shaped_of_no_strings {r : Resp} (hd : r.dig = []) (ht : r.txt = []) (hdl : r.dlen = 0#5) (htl : r.tlen = 0#9)
    (hcc : r.cc.toNat ≤ 4) : r.shaped = true := by
  simp [Resp.shaped, hd, ht, hdl, htl, hcc, Memory.wf, Memory.wfFrom]

theorem parseResp_shaped (t : List Byte) : (parseResp t).shaped = true := by
  rw [parseResp]
  cases scan t <;> exact shaped_of_no_strings rfl rfl rfl rfl (Nat.zero_le 4)

theorem Comparison.code_le (c : Comparison) : c.code.toNat ≤ 4 := by cases c <;> decide

/-- Every response has the shape of rule R27. -/
theorem responseTo_shaped (i : Instr) (q : Req) : (responseTo i q).shaped = true := by
  cases i
  case decode => exact shaped_of_no_strings rfl rfl rfl rfl (Category.code_le _)
  case classify => exact Resp.ofCC_shaped _ (Category.code_le _)
  case cmp => exact Resp.ofCC_shaped _ (Comparison.code_le _)
  case todec p0 p1 => exact todecResp_shaped _ _ p1.isLt
  case parse => exact parseResp_shaped _
  all_goals exact Resp.ofR_shaped _

/-- Every response is zero in the fields its format does not write (rules R27, R62). -/
theorem responseTo_writesOnly (i : Instr) (q : Req) : writesOnly i (responseTo i q) := by
  cases i
  case todec p0 p1 =>
    show (todecResp q.a p0.toNat p1.toNat).r = 0#64
    rw [todecResp]
    cases cat q.a <;> rfl
  case parse =>
    show parseResp q.text = { Resp.zero with r := (parseResp q.text).r, x := (parseResp q.text).x }
    rw [parseResp]
    cases scan q.text <;> rfl
  all_goals rfl

/-- A shaped response has canonical strings of 17 and 275 bytes (rule R40). -/
theorem Resp.wf_of_shaped {r : Resp} (h : r.shaped = true) : r.wf = true := by
  simp only [Resp.shaped, Bool.and_eq_true, decide_eq_true_eq] at h
  obtain ⟨⟨⟨⟨hdlen, htlen⟩, hdig⟩, htxt⟩, -⟩ := h
  rw [Resp.wf, Bool.and_eq_true]
  exact ⟨Memory.wf_size hdlen hdig, Memory.wf_size htlen htxt⟩

/-- The bytes of a shaped response at its lengths and above are zero (rule R27). -/
theorem Resp.read_of_shaped {r : Resp} (h : r.shaped = true) :
    (∀ j, r.dlen.toNat ≤ j → r.dig.read j = 0#8) ∧ (∀ j, r.tlen.toNat ≤ j → r.txt.read j = 0#8) := by
  simp only [Resp.shaped, Bool.and_eq_true] at h
  obtain ⟨⟨⟨-, hdig⟩, htxt⟩, -⟩ := h
  exact ⟨fun _ hj => Memory.read_of_size_le hj hdig, fun _ hj => Memory.read_of_size_le hj htxt⟩

end Sys2Proof.Machine
end

section
/-! PROOFS. The clock edge: what the ports show, the kinds of edge with their conditions, and what each kind keeps. -/

namespace Sys2Proof.Machine

section Ports

/-! What the ports show (rules R28, R30, R31, R34). -/

variable {s : State}

theorem reqReady_iff (hr : s.pins.rst = false) : s.reqReady = true ↔ s.phase = .idle := by
  simp [State.reqReady, hr]

theorem respValid_iff (hr : s.pins.rst = false) : s.respValid = true ↔ s.phase = .done := by
  simp [State.respValid, hr]

theorem respPorts_of_done (hr : s.pins.rst = false) (hp : s.phase = .done) : s.respPorts = some s.resp := by
  rw [State.respPorts, if_pos ((respValid_iff hr).mpr hp)]

theorem respValid_of_rst (hr : s.pins.rst = true) : s.respValid = false := by simp [State.respValid, hr]

theorem reqReady_of_rst (hr : s.pins.rst = true) : s.reqReady = true := by simp [State.reqReady, hr]

theorem reqReady_of_idle (hp : s.phase = .idle) : s.reqReady = true := by simp [State.reqReady, hp]

theorem offerKept_iff : s.offerKept = true ↔ s.offer = .none ∨ s.offer = .held s.pins.req := by
  rw [State.offerKept]
  cases s.offer with
  | none => simp
  | held r => simp [eq_comm (a := r)]
  | changed => simp

/-- Where the block is ready nothing goes on waiting. -/
theorem nextOffer_of_reqReady (h : s.reqReady = true) : s.nextOffer = .none := by rw [State.nextOffer, if_pos h]

/-- The request that waits at a block which is not ready: first remembered, then held while it is unchanged, and
changed from the first change on (rules R28, R346). -/
theorem nextOffer_of_waiting (hr : s.pins.rst = false) (hp : s.phase ≠ .idle) (hv : s.pins.reqValid = true) :
    (s.offer = .none → s.nextOffer = .held s.pins.req) ∧
    (∀ q, s.offer = .held q → s.nextOffer = if s.pins.req = q then .held q else .changed) ∧
    (s.offer = .changed → s.nextOffer = .changed) := by
  have hready : s.reqReady = false := Bool.eq_false_iff.mpr fun h => hp ((reqReady_iff hr).mp h)
  refine ⟨fun ho => ?_, fun q ho => ?_, fun ho => ?_⟩ <;> simp [State.nextOffer, hready, hv, ho]

/-- What holds of every listed level of the ports, and of low ports, holds at the coming edge. -/
theorem pins_of_forall {P : Inputs → Prop} (hlow : P Inputs.low) (h : ∀ p ∈ s.inputs, P p) : P s.pins := by
  rw [State.pins]
  cases hs : s.inputs with
  | nil => exact hlow
  | cons p ps => exact h p (by rw [hs]; exact List.mem_cons_self)

end Ports

section Edges

/-! The edge of each kind, as an equation of `step`; `step_cases` says that there is no other with a next state. -/

variable {s : State}

theorem step_of_rst (hr : s.pins.rst = true) : step s = .next s.passEdge.toIdle := by rw [step, if_pos hr]

theorem step_of_nothing_presented (hr : s.pins.rst = false) (hp : s.phase = .idle) (hv : s.pins.reqValid = false) :
    step s = .next s.passEdge := by simp [step, hr, hp, hv]

theorem step_of_presented (hr : s.pins.rst = false) (hp : s.phase = .idle) (hv : s.pins.reqValid = true) :
    step s = acceptStep s := by simp [step, hr, hp, hv]

theorem acceptStep_of_legal {i : Instr} (hk : s.offerKept = true) (hd : decode s.pins.req.cmd = .ok i) :
    acceptStep s = .next (s.passEdge.accept s.pins.req) := by simp [acceptStep, hk, hd]

theorem acceptStep_of_changed (hk : s.offerKept = false) : acceptStep s = .refused .requestChanged := by
  simp [acceptStep, hk]

theorem step_of_latency {n : Nat} (hr : s.pins.rst = false) (hp : s.phase = .busy) (hn : s.busyFor = n + 1) :
    step s = .next { s.passEdge with busyFor := n } := by simp [step, hr, hp, hn]

theorem step_of_due {i : Instr} (hr : s.pins.rst = false) (hp : s.phase = .busy) (hn : s.busyFor = 0)
    (hd : decode s.req.cmd = .ok i) : step s = exec i s.passEdge := by simp [step, hr, hp, hn, hd]

theorem step_of_taken (hr : s.pins.rst = false) (hp : s.phase = .done) (hv : s.pins.respReady = true) :
    step s = .next s.passEdge.take := by simp [step, hr, hp, hv]

theorem step_of_not_taken (hr : s.pins.rst = false) (hp : s.phase = .done) (hv : s.pins.respReady = false) :
    step s = .next s.passEdge := by simp [step, hr, hp, hv]

theorem step_of_due_reserved {e : DecodeError} (hr : s.pins.rst = false) (hp : s.phase = .busy) (hn : s.busyFor = 0)
    (hd : decode s.req.cmd = .error e) : step s = .refused (reservedCommand e) := by simp [step, hr, hp, hn, hd]

/-- Completion, with the response written out (rule R29). -/
theorem step_of_due_responds {i : Instr} (hr : s.pins.rst = false) (hp : s.phase = .busy) (hn : s.busyFor = 0)
    (hd : decode s.req.cmd = .ok i) : step s = .next (s.passEdge.respond (responseTo i s.req)) := by
  rw [step_of_due hr hp hn hd, exec_eq_respond, State.passEdge_req]

end Edges

/-- The clock edges that have a next state, each under the conditions of its rule (rules R28 to R30, R34). -/
inductive Edge (s : State) : State → Prop where
  | reset (hr : s.pins.rst = true) : Edge s s.passEdge.toIdle
  | nothingPresented (hr : s.pins.rst = false) (hp : s.phase = .idle) (hv : s.pins.reqValid = false) :
      Edge s s.passEdge
  | accepted {i : Instr} (hr : s.pins.rst = false) (hp : s.phase = .idle) (hv : s.pins.reqValid = true)
      (hk : s.offerKept = true) (hd : decode s.pins.req.cmd = .ok i) : Edge s (s.passEdge.accept s.pins.req)
  | latency {n : Nat} (hr : s.pins.rst = false) (hp : s.phase = .busy) (hn : s.busyFor = n + 1) :
      Edge s { s.passEdge with busyFor := n }
  | completed {i : Instr} (hr : s.pins.rst = false) (hp : s.phase = .busy) (hn : s.busyFor = 0)
      (hd : decode s.req.cmd = .ok i) : Edge s (s.passEdge.respond (responseTo i s.req))
  | taken (hr : s.pins.rst = false) (hp : s.phase = .done) (hv : s.pins.respReady = true) : Edge s s.passEdge.take
  | notTaken (hr : s.pins.rst = false) (hp : s.phase = .done) (hv : s.pins.respReady = false) : Edge s s.passEdge

/-- `Edge` is the machine's step, where it has a next state: the equations above one way, `step_cases` the other. -/
theorem step_eq_next_iff {s t : State} : step s = .next t ↔ Edge s t := by
  constructor
  · intro h
    obtain ⟨hr, rfl⟩ | ⟨hr, hp, hv, rfl⟩ | ⟨hr, hp, hv, hk, ⟨i, hd⟩, rfl⟩ | ⟨hr, hp, n, hn, rfl⟩ |
      ⟨hr, hp, hn, i, r, hd, -, -⟩ | ⟨hr, hp, hv, rfl⟩ | ⟨hr, hp, hv, rfl⟩ := step_cases h
    · exact .reset hr
    · exact .nothingPresented hr hp hv
    · exact .accepted hr hp hv hk hd
    · exact .latency hr hp hn
    · rw [step_of_due_responds hr hp hn hd, Host.Outcome.next.injEq] at h
      exact h ▸ .completed hr hp hn hd
    · exact .taken hr hp hv
    · exact .notTaken hr hp hv
  · intro h
    cases h with
    | reset hr => exact step_of_rst hr
    | nothingPresented hr hp hv => exact step_of_nothing_presented hr hp hv
    | accepted hr hp hv hk hd => rw [step_of_presented hr hp hv, acceptStep_of_legal hk hd]
    | latency hr hp hn => exact step_of_latency hr hp hn
    | completed hr hp hn hd => exact step_of_due_responds hr hp hn hd
    | taken hr hp hv => exact step_of_taken hr hp hv
    | notTaken hr hp hv => exact step_of_not_taken hr hp hv

section Invariant

/-! The invariant: what each effect of an edge keeps of it. -/

variable {s : State}

theorem pins_req_wf (h : s.Inv) : s.pins.req.wf = true :=
  pins_of_forall (P := fun p => p.req.wf = true) rfl h.inputs_wf

theorem nextOffer_wf (h : s.Inv) : s.nextOffer.wf = true := by
  have hreq := pins_req_wf h
  have hoffer := h.offer_wf
  rw [State.nextOffer]
  split
  · rfl
  · split
    · split
      · exact hreq
      · next r hr =>
        rw [hr] at hoffer
        split
        · exact hoffer
        · rfl
      · rfl
    · rfl

theorem State.Inv.passEdge (h : s.Inv) : s.passEdge.Inv :=
  { h with
    inputs_wf := fun p hp => h.inputs_wf p (List.mem_of_mem_tail hp)
    offer_wf := nextOffer_wf h }

theorem State.Inv.toIdle (h : s.Inv) : s.toIdle.Inv :=
  { h with
    req_wf := unspecifiedReq_wf _
    resp_wf := unspecifiedResp_wf _
    busy_legal := nofun
    done_shaped := nofun
    busy_latency := fun _ => rfl }

/-- Only a legal request is accepted (rule R28). -/
theorem State.Inv.accept {r : Req} (h : s.Inv) (hr : r.wf = true) (hc : legalCommand r.cmd = true) :
    (s.accept r).Inv :=
  { h with
    req_wf := hr
    busy_legal := fun _ => hc
    done_shaped := nofun
    busy_latency := fun hb => absurd rfl hb }

theorem State.Inv.latency (h : s.Inv) (hp : s.phase = .busy) (n : Nat) : State.Inv { s with busyFor := n } :=
  { h with busy_latency := fun hb => absurd hp hb }

/-- A response of the shape of rule R27 completes a request whose latency has passed. -/
theorem State.Inv.respond {r : Resp} (h : s.Inv) (hn : s.busyFor = 0) (hr : r.shaped = true) : (s.respond r).Inv :=
  { h with
    resp_wf := Resp.wf_of_shaped hr
    busy_legal := nofun
    done_shaped := fun _ => hr
    busy_latency := fun _ => hn }

theorem State.Inv.take (h : s.Inv) (hp : s.phase = .done) : s.take.Inv :=
  { h.toIdle with
    received_shaped := List.forall_mem_cons.mpr ⟨h.done_shaped hp, h.received_shaped⟩ }

end Invariant

/-- Every clock edge with a next state keeps the invariant. -/
theorem Edge.inv {s t : State} (hst : Edge s t) (h : s.Inv) : t.Inv := by
  cases hst with
  | reset => exact h.passEdge.toIdle
  | nothingPresented => exact h.passEdge
  | accepted _ _ _ _ hd => exact h.passEdge.accept (pins_req_wf h) (legalCommand_of_decode hd)
  | latency _ hp => exact h.passEdge.latency hp _
  | completed _ _ hn => exact h.passEdge.respond hn (responseTo_shaped _ _)
  | taken _ hp => exact h.passEdge.take hp
  | notTaken => exact h.passEdge

section Observation

/-! What the next observation depends on (rules R25, R30, R34). -/

/-- Two states with the same observable part, field by field. -/
structure SameObservable (s s' : State) : Prop where
  phase : s.phase = s'.phase
  req : s.phase = .busy → s.req = s'.req
  latency : s.phase = .busy → s.busyFor = s'.busyFor
  resp : s.phase = .done → s.resp = s'.resp
  inputs : s.inputs = s'.inputs
  offer : s.offer = s'.offer
  received : s.received = s'.received

theorem observable_eq_iff {s s' : State} : s.observable = s'.observable ↔ SameObservable s s' := by
  constructor
  · intro h
    rw [State.observable, State.observable, Observable.mk.injEq] at h
    obtain ⟨hphase, hreq, hresp, hlatency, hinputs, hoffer, hreceived⟩ := h
    rw [← hphase] at hreq hresp hlatency
    refine ⟨hphase, fun hp => ?_, fun hp => ?_, fun hp => ?_, hinputs, hoffer, hreceived⟩
    · simpa [hp] using hreq
    · simpa [hp] using hlatency
    · simpa [hp] using hresp
  · intro h
    rw [State.observable, State.observable, Observable.mk.injEq, ← h.phase]
    refine ⟨rfl, ?_, ?_, ?_, h.inputs, h.offer, h.received⟩
    · split
      · next hp => rw [h.req hp]
      · rfl
    · split
      · next hp => rw [h.resp hp]
      · rfl
    · split
      · next hp => rw [h.latency hp]
      · rfl

namespace SameObservable

variable {s s' : State}

theorem pins (h : SameObservable s s') : s.pins = s'.pins := by rw [State.pins, State.pins, h.inputs]

theorem offerKept (h : SameObservable s s') : s.offerKept = s'.offerKept := by
  rw [State.offerKept, State.offerKept, h.offer, h.pins]

theorem passEdge (h : SameObservable s s') : SameObservable s.passEdge s'.passEdge :=
  { h with
    inputs := congrArg List.tail h.inputs
    offer := by
      rw [State.passEdge_offer, State.passEdge_offer, State.nextOffer, State.nextOffer, State.reqReady,
        State.reqReady, h.pins, h.phase, h.offer] }

/-- What reset and step "take" leave of the latches is in no observation. -/
theorem toIdle (h : SameObservable s s') : SameObservable s.toIdle s'.toIdle :=
  { h with phase := rfl, req := nofun, latency := nofun, resp := nofun }

theorem accept (h : SameObservable s s') (q : Req) : SameObservable (s.accept q) (s'.accept q) :=
  { h with phase := rfl, req := fun _ => rfl, latency := fun _ => rfl, resp := nofun }

theorem tick (h : SameObservable s s') (n : Nat) :
    SameObservable { s with busyFor := n } { s' with busyFor := n } :=
  { h with latency := fun _ => rfl }

theorem respond (h : SameObservable s s') (r : Resp) : SameObservable (s.respond r) (s'.respond r) :=
  { h with phase := rfl, req := nofun, latency := nofun, resp := fun _ => rfl }

theorem take (h : SameObservable s s') (hp : s.phase = .done) : SameObservable s.take s'.take :=
  { h.toIdle with received := congrArg₂ List.cons (h.resp hp) h.received }

/-- Two next states with the same observable part are the same outcome. -/
theorem next (h : SameObservable s s') : observableOutcome (.next s) = observableOutcome (.next s') :=
  congrArg Host.Outcome.next (observable_eq_iff.mpr h)

theorem acceptStep (h : SameObservable s s') :
    observableOutcome (acceptStep s) = observableOutcome (acceptStep s') := by
  rw [Machine.acceptStep, Machine.acceptStep, ← h.offerKept, ← h.pins]
  split
  · split
    · exact (h.passEdge.accept _).next
    · rfl
  · rfl

/-- The same next observation or the same refusal. -/
theorem step (h : SameObservable s s') : observableOutcome (step s) = observableOutcome (step s') := by
  have hrst : s'.pins.rst = s.pins.rst := by rw [h.pins]
  cases hr : s.pins.rst with
  | true =>
    rw [step_of_rst hr, step_of_rst (hrst.trans hr)]
    exact h.passEdge.toIdle.next
  | false =>
    rw [hr] at hrst
    cases hp : s.phase with
    | idle =>
      have hp' := h.phase.symm.trans hp
      cases hv : s.pins.reqValid with
      | true =>
        rw [step_of_presented hr hp hv, step_of_presented hrst hp' (h.pins ▸ hv)]
        exact h.acceptStep
      | false =>
        rw [step_of_nothing_presented hr hp hv, step_of_nothing_presented hrst hp' (h.pins ▸ hv)]
        exact h.passEdge.next
    | busy =>
      have hp' := h.phase.symm.trans hp
      cases hn : s.busyFor with
      | succ n =>
        rw [step_of_latency hr hp hn, step_of_latency hrst hp' ((h.latency hp).symm.trans hn)]
        exact (h.passEdge.tick n).next
      | zero =>
        have hn' := (h.latency hp).symm.trans hn
        cases hd : decode s.req.cmd with
        | ok i =>
          rw [step_of_due_responds hr hp hn hd, step_of_due_responds hrst hp' hn' (h.req hp ▸ hd), h.req hp]
          exact (h.passEdge.respond _).next
        | error e => rw [step_of_due_reserved hr hp hn hd, step_of_due_reserved hrst hp' hn' (h.req hp ▸ hd)]
    | done =>
      have hp' := h.phase.symm.trans hp
      cases hv : s.pins.respReady with
      | true =>
        rw [step_of_taken hr hp hv, step_of_taken hrst hp' (h.pins ▸ hv)]
        exact (h.passEdge.take hp).next
      | false =>
        rw [step_of_not_taken hr hp hv, step_of_not_taken hrst hp' (h.pins ▸ hv)]
        exact h.passEdge.next

end SameObservable

end Observation

section Runs

/-! Runs of a request in flight (rules R29, R350). -/

theorem core_run_succ_next (M : Host.Core) {s t : M.State} (h : M.step s = .next t) (n : Nat) :
    M.run (n + 1) s = M.run n t := by rw [Host.Core.run, h]

theorem core_run_succ_refused (M : Host.Core) {s : M.State} {e : M.Refusal} (h : M.step s = .refused e) (n : Nat) :
    M.run (n + 1) s = .refused e := by rw [Host.Core.run, h]

theorem run_succ_of_step {s t : State} (h : step s = .next t) (n : Nat) :
    Host.Core.run core (n + 1) s = Host.Core.run core n t := core_run_succ_next core h n

theorem run_add {m : Nat} {s t : State} (h : Host.Core.run core m s = .next t) (n : Nat) :
    Host.Core.run core (m + n) s = Host.Core.run core n t := by
  induction m generalizing s with
  | zero => rw [Nat.zero_add, Host.Outcome.next.inj (h : Host.Outcome.next s = .next t)]
  | succ m ih =>
    cases hs : step s with
    | next u =>
      rw [run_succ_of_step hs] at h
      rw [Nat.add_right_comm, run_succ_of_step hs, ih h]
    | fault f => exact absurd hs (step_no_fault s f)
    | refused e =>
      exact absurd ((core_run_succ_refused core hs m).symm.trans h) nofun

/-- No reset is asserted at this or a later edge. -/
def NoReset (s : State) : Prop := ∀ p ∈ s.inputs, p.rst = false

theorem NoReset.rst {s : State} (h : NoReset s) : s.pins.rst = false :=
  pins_of_forall (P := fun p => p.rst = false) rfl h

theorem NoReset.passEdge {s : State} (h : NoReset s) : NoReset s.passEdge := fun p hp => h p (List.mem_of_mem_tail hp)

/-- `t` carries out the same request as `s` with `n` latency edges left, and nothing was received since. -/
structure StillBusy (s t : State) (n : Nat) : Prop where
  phase : t.phase = .busy
  req : t.req = s.req
  latency : t.busyFor = n
  received : t.received = s.received
  noReset : NoReset t

/-- While latency is left the block goes on carrying out the request (rule R350). -/
theorem run_latency {k n : Nat} {s : State} (hp : s.phase = .busy) (hr : NoReset s) (hn : s.busyFor = n + k) :
    ∃ t : State, Host.Core.run core k s = .next t ∧ StillBusy s t n := by
  induction k generalizing s with
  | zero => exact ⟨s, rfl, hp, rfl, hn, rfl, hr⟩
  | succ k ih =>
    obtain ⟨t, hrun, ht⟩ := ih (s := { s.passEdge with busyFor := n + k }) hp hr.passEdge rfl
    exact ⟨t, (run_succ_of_step (step_of_latency hr.rst hp hn) k).trans hrun, { ht with }⟩

/-- A legal request in `REQ` is completed with the response of its operation at the edge after its latency (rules R29,
R350). -/
theorem run_to_completion {s : State} {i : Instr} (hp : s.phase = .busy) (hr : NoReset s)
    (hd : decode s.req.cmd = .ok i) :
    ∃ t : State, Host.Core.run core (s.busyFor + 1) s = .next t ∧ t.phase = .done ∧
      t.resp = responseTo i s.req ∧ t.received = s.received ∧ NoReset t := by
  obtain ⟨u, hrun, hu⟩ := run_latency (n := 0) hp hr (Nat.zero_add _).symm
  have hstep := step_of_due_responds hu.noReset.rst hu.phase hu.latency (hu.req.symm ▸ hd)
  refine ⟨u.passEdge.respond (responseTo i u.req), ?_, rfl, ?_, hu.received, hu.noReset.passEdge⟩
  · exact (run_add hrun 1).trans (run_succ_of_step hstep 0)
  · rw [State.respond_resp, hu.req]

end Runs

/-! What every kind of edge does to the request, the offer and the receipts, and when there is one. -/

/-- A request that waits has no effect but in the record of what waits (rule R28): the edge is the same whatever is
presented to a block that is not IDLE. -/
theorem Edge.presenting {s t : State} (h : Edge s t) (hp : s.phase ≠ .idle) (hr : s.pins.rst = false) (v : Bool)
    (q : Req) :
    ∃ o, Edge { s with inputs := { s.pins with reqValid := v, req := q } :: s.inputs.tail }
      { t with offer := o } := by
  cases h with
  | reset hr' => rw [hr] at hr'; cases hr'
  | nothingPresented _ hi => exact absurd hi hp
  | accepted _ hi => exact absurd hi hp
  | latency _ hb hn => exact ⟨_, .latency hr hb hn⟩
  | completed _ hb hn hd => exact ⟨_, .completed hr hb hn hd⟩
  | taken _ hd hv => exact ⟨_, .taken hr hd hv⟩
  | notTaken _ hd hv => exact ⟨_, .notTaken hr hd hv⟩

/-- An edge from a phase other than IDLE latches no request (rule R28). -/
theorem Edge.req_of_not_idle {s t : State} (h : Edge s t) (hp : s.phase ≠ .idle) :
    (t.phase = .busy → s.phase = .busy ∧ t.req = s.req) ∧ (t.phase = .done → t.req = s.req) := by
  cases h with
  | reset => exact ⟨nofun, nofun⟩
  | nothingPresented _ hi => exact absurd hi hp
  | accepted _ hi => exact absurd hi hp
  | latency _ hb => exact ⟨fun _ => ⟨hb, rfl⟩, fun _ => rfl⟩
  | completed => exact ⟨nofun, fun _ => rfl⟩
  | taken => exact ⟨nofun, nofun⟩
  | notTaken => exact ⟨fun hb => ⟨hb, rfl⟩, fun _ => rfl⟩

/-- A response is received at an edge of step "take" and at no other (rule R30). -/
theorem Edge.received {s t : State} (h : Edge s t) : t.received = s.received ∨
    (t.received = s.resp :: s.received ∧ s.phase = .done ∧ s.pins.respReady = true ∧ t.phase = .idle) := by
  cases h with
  | taken _ hp hv => exact .inr ⟨rfl, hp, hv, rfl⟩
  | _ => exact .inl rfl

/-- Every kind of edge brings the offer up to date (rule R346). -/
theorem Edge.offer {s t : State} (h : Edge s t) : t.offer = s.nextOffer := by
  cases h <;> rfl

/-- A request is about to be accepted exactly where one is presented to the idle block without reset (rules R28,
R34). -/
theorem accepting_iff {s : State} : (s.reqReady && !s.pins.rst && s.pins.reqValid) = true ↔
    s.pins.rst = false ∧ s.phase = .idle ∧ s.pins.reqValid = true := by
  cases hr : s.pins.rst <;> simp [State.reqReady, hr]

theorem dutiful_iff {s : State} : s.dutiful = true ↔
    (s.pins.rst = false ∧ s.phase = .idle ∧ s.pins.reqValid = true →
      legalCommand s.pins.req.cmd = true ∧ s.offerKept = true) := by
  rw [State.dutiful, Bool.or_eq_true, Bool.not_eq_true', ← Bool.not_eq_true, accepting_iff, Bool.and_eq_true,
    ← imp_iff_not_or]

/-- A clock edge that has a next state is one at which the requester does its duty. -/
theorem Edge.dutiful {s t : State} (h : Edge s t) : s.dutiful = true := by
  rw [dutiful_iff]
  rintro ⟨hr, hp, hv⟩
  have not_idle {p : Phase} (h : s.phase = p) (hne : p ≠ .idle) : False := hne (h.symm.trans hp)
  cases h with
  | reset hr' => exact absurd (hr'.symm.trans hr) nofun
  | nothingPresented _ _ hv' => exact absurd (hv'.symm.trans hv) nofun
  | accepted _ _ _ hk hd => exact ⟨legalCommand_of_decode hd, hk⟩
  | latency _ hp' => exact (not_idle hp' nofun).elim
  | completed _ hp' => exact (not_idle hp' nofun).elim
  | taken _ hp' => exact (not_idle hp' nofun).elim
  | notTaken _ hp' => exact (not_idle hp' nofun).elim

/-- Where the invariant holds and the requester does its duty, the clock edge has a next state. -/
theorem exists_edge_of_dutiful {s : State} (h : s.Inv) (hduty : s.dutiful = true) : ∃ t, Edge s t := by
  cases hr : s.pins.rst with
  | true => exact ⟨_, .reset hr⟩
  | false =>
    cases hp : s.phase with
    | idle =>
      cases hv : s.pins.reqValid with
      | true =>
        obtain ⟨hlegal, hk⟩ := dutiful_iff.mp hduty ⟨hr, hp, hv⟩
        obtain ⟨i, hd⟩ := (exists_decode_iff_legalCommand _).mpr hlegal
        exact ⟨_, .accepted hr hp hv hk hd⟩
      | false => exact ⟨_, .nothingPresented hr hp hv⟩
    | busy =>
      cases hn : s.busyFor with
      | succ n => exact ⟨_, .latency hr hp hn⟩
      | zero =>
        obtain ⟨i, hd⟩ := (exists_decode_iff_legalCommand _).mpr (h.busy_legal hp)
        exact ⟨_, .completed hr hp hn hd⟩
    | done =>
      cases hv : s.pins.respReady with
      | true => exact ⟨_, .taken hr hp hv⟩
      | false => exact ⟨_, .notTaken hr hp hv⟩

end Sys2Proof.Machine
end

section
/-! PROOFS. The statements about the request and response interface. -/

namespace Sys2Proof.Proofs

open Machine

/-- Settles O14: each effect of a clock edge keeps the invariant. -/
theorem invStep : Obligations.InvStep := fun _ _ h hst => (step_eq_next_iff.mp hst).inv h

/-- Settles O16, along the branches of the step: none of them reads a latch outside its phase. -/
theorem unspecifiedIsUnobservable : Obligations.UnspecifiedIsUnobservable :=
  fun _ _ h => (observable_eq_iff.mp h).step

/-- Settles O6: the accepting edge and the idle one as equations, and every other kind of edge for the last clause. -/
theorem acceptStep : Obligations.AcceptStep := by
  refine ⟨fun s hr => reqReady_iff hr, fun s => offerKept_iff, fun s i hr hp hv hk hd => ?_, fun s hr hp hv => ?_,
    fun s t hp hst => (step_eq_next_iff.mp hst).req_of_not_idle hp⟩
  · rw [step_of_presented hr hp hv, acceptStep_of_legal hk hd, State.passEdge,
      nextOffer_of_reqReady (reqReady_of_idle hp)]
    rfl
  · rw [step_of_nothing_presented hr hp hv, State.passEdge, nextOffer_of_reqReady (reqReady_of_idle hp)]

/-- Settles O7: every kind of edge from a phase other than IDLE, with something else presented. -/
theorem waitingRequestHasNoEffect : Obligations.WaitingRequestHasNoEffect := fun _ _ v q hp hr hst =>
  have ⟨o, h⟩ := (step_eq_next_iff.mp hst).presenting hp hr v q
  ⟨o, step_eq_next_iff.mpr h⟩

/-- Settles O8: the two edges from DONE as equations, and every kind of edge for the receipts. -/
theorem takeStep : Obligations.TakeStep :=
  ⟨fun _ hr => ⟨respValid_iff hr, respPorts_of_done hr⟩,
    fun s hr hp hv => ⟨s.passEdge.take, step_of_taken hr hp hv, rfl, rfl, rfl⟩,
    fun _ hr hp hv => step_of_not_taken hr hp hv,
    fun _ _ hst => (step_eq_next_iff.mp hst).received⟩

/-- Settles O10: the offer after an edge is `nextOffer`, whatever the edge; `acceptStep` refuses an offer not kept. -/
theorem changedRequestRefused : Obligations.ChangedRequestRefused := by
  refine ⟨fun s t hr hp hv ho hst => ?_, fun s t q hr hp hv ho hst => ?_, fun s t hr hp hv ho hst => ?_,
    fun s q hr hp hv ho => ?_⟩
  · obtain ⟨hnew, -, -⟩ := nextOffer_of_waiting hr hp hv
    rw [(step_eq_next_iff.mp hst).offer, hnew ho]
  · obtain ⟨-, hheld, -⟩ := nextOffer_of_waiting hr hp hv
    rw [(step_eq_next_iff.mp hst).offer, hheld q ho]
  · obtain ⟨-, -, hchanged⟩ := nextOffer_of_waiting hr hp hv
    rw [(step_eq_next_iff.mp hst).offer, hchanged ho]
  · have hk : s.offerKept = false := by
      rw [← Bool.not_eq_true, offerKept_iff]
      rcases ho with ho | ⟨ho, hne⟩
      · simp [ho]
      · simpa [ho] using Ne.symm hne
    rw [step_of_presented hr hp hv, acceptStep_of_changed hk]

/-- Settles O11: the latency edges, then the completing one. -/
theorem boundedCompletion : Obligations.BoundedCompletion := fun s i hp hr hd =>
  have ⟨t, hrun, hphase, hresp, hreceived, _⟩ := run_to_completion hp hr hd
  ⟨responseTo i s.req, t, exec_eq_respond i s, hrun, hphase, hresp, hreceived⟩

/-- Settles O12: the accepting edge, the latency, the completing edge, and the edge of step "take". -/
theorem requestIsAnswered : Obligations.RequestIsAnswered := by
  intro s q ready later i hp hk hin hlater hd
  have hpins : s.pins = { rst := false, reqValid := true, req := q, respReady := ready } := by rw [State.pins, hin]; rfl
  have hrst : s.pins.rst = false := by rw [hpins]
  have haccept : step s = .next (s.passEdge.accept q) := by
    have hq : s.pins.req = q := by rw [hpins]
    rw [step_of_presented hrst hp (by rw [hpins]), acceptStep_of_legal hk (hq.symm ▸ hd), hq]
  have hquiet : NoReset (s.passEdge.accept q) := by
    intro p hmem
    rw [State.accept_inputs, State.passEdge_inputs, hin] at hmem
    exact hlater p hmem
  obtain ⟨t, hrun, hphase, hresp, hreceived, hnr⟩ := run_to_completion (State.accept_phase _ q) hquiet hd
  refine ⟨Config.extraCycles q + 1 + 1, responseTo i q, t, exec_eq_respond i _, fun k hlt => ?_, ?_, ?_, hreceived,
    fun hv => ?_⟩
  · cases k with
    | zero => exact ⟨s, rfl, by simp [State.respValid, hp]⟩
    | succ k =>
      obtain ⟨u, hu, hbusy⟩ := run_latency (k := k) (n := Config.extraCycles q - k)
        (State.accept_phase s.passEdge q) hquiet (by rw [State.accept_busyFor]; omega)
      exact ⟨u, (run_succ_of_step haccept k).trans hu, by simp [State.respValid, hbusy.phase]⟩
  · exact (run_succ_of_step haccept _).trans hrun
  · rw [respPorts_of_done hnr.rst hphase, hresp]; rfl
  · refine ⟨_, step_of_taken hnr.rst hphase hv, rfl, ?_⟩
    exact congrArg₂ List.cons hresp hreceived

/-- Settles O15: the kinds of edge one way, the phases the other. -/
theorem safeIffDutiful : Obligations.SafeIffDutiful := fun _ h =>
  ⟨fun ⟨_, hst⟩ => (step_eq_next_iff.mp hst).dutiful,
    fun hduty => have ⟨t, ht⟩ := exists_edge_of_dutiful h hduty; ⟨t, step_eq_next_iff.mpr ht⟩⟩

/-- Settles O18: a completed state is the one before with the response of the operation in `RESP`. -/
theorem execFrame : Obligations.ExecFrame := by
  intro i s t h
  rw [exec_eq_respond, Host.Outcome.next.injEq] at h
  subst h
  have ⟨hdig, htxt⟩ := Resp.read_of_shaped (responseTo_shaped i s.req)
  exact ⟨rfl, rfl, fun _ => rfl, rfl, rfl, rfl, rfl, rfl, responseTo_writesOnly i s.req, hdig, htxt⟩

/-- Settles O5: `withFetchWord` places a state at its completing edge. -/
theorem stepRunsDecoded : Obligations.StepRunsDecoded :=
  ⟨fun _ _ hr hp hn hd => step_of_due hr hp hn hd,
    fun s nbits w _ h => step_of_due (s.withFetchWord_rst nbits w) rfl rfl (decode_of_decodeTableWord h)⟩

/-- Settles O9: the reset edge, before every phase. -/
theorem resetStep : Obligations.ResetStep := fun s hr =>
  ⟨reqReady_of_rst hr, respValid_of_rst hr, by rw [State.respPorts, respValid_of_rst hr]; rfl,
    s.passEdge.toIdle, step_of_rst hr, rfl, rfl, rfl, nextOffer_of_reqReady (reqReady_of_rst hr)⟩

/-- Settles O13: nothing is listed at reset, and in IDLE no clause asks for a request or a response. -/
theorem invReset : Obligations.InvReset :=
  ⟨{ req_wf := rfl, resp_wf := rfl, inputs_wf := nofun, offer_wf := rfl, received_shaped := nofun,
     busy_legal := nofun, done_shaped := nofun, busy_latency := fun _ => rfl }, rfl⟩

end Sys2Proof.Proofs
end

section
/-! PROOFS. The request fields a response depends on (rules R46, R62, R66). -/

namespace Sys2Proof.Machine

/-! A narrow operand is a function of the low bits it is read from (rule R66). -/

theorem extractLsb'_congr {n : Nat} {a a' : BitVec 64} (h : a.toNat % 2 ^ n = a'.toNat % 2 ^ n) :
    a.extractLsb' 0 n = a'.extractLsb' 0 n := by
  simpa [← BitVec.toNat_inj] using h

theorem signedOperand_congr {n : Nat} {a a' : BitVec 64} (h : a.toNat % 2 ^ n = a'.toNat % 2 ^ n) :
    signedOperand n a = signedOperand n a' := congrArg BitVec.toInt (extractLsb'_congr h)

theorem unsignedOperand_congr {n : Nat} {a a' : BitVec 64} (h : a.toNat % 2 ^ n = a'.toNat % 2 ^ n) :
    unsignedOperand n a = unsignedOperand n a' := congrArg (fun w => (w.toNat : Int)) (extractLsb'_congr h)

theorem float32Operand_congr {a a' : BitVec 64} (h : a.toNat % 2 ^ 32 = a'.toNat % 2 ^ 32) :
    float32Operand a = float32Operand a' := extractLsb'_congr h

theorem eq_of_toNat_mod_eq {a a' : BitVec 64} (h : a.toNat % 2 ^ 64 = a'.toNat % 2 ^ 64) : a = a' := by
  rwa [Nat.mod_eq_of_lt a.isLt, Nat.mod_eq_of_lt a'.isLt, BitVec.toNat_inj] at h

/-- Requests that agree in the fields an operation reads get the same response, format by format (rule R62): the
integer and float32 sources by their low bits, PARSE by its text, and every other operation by whole operands. -/
theorem responseTo_congr {i : Instr} {q q' : Req} (h : readsSame i q q') : responseTo i q = responseTo i q' := by
  obtain ⟨_, a, b, c, _, _⟩ := q
  obtain ⟨_, a', b', c', _, _⟩ := q'
  cases i
  case i2fS8 | i2fS16 | i2fS32 | i2fS64 => exact congrArg (fun v => Resp.ofR (i2f v)) (signedOperand_congr h)
  case i2fU8 | i2fU16 | i2fU32 | i2fU64 => exact congrArg (fun v => Resp.ofR (i2f v)) (unsignedOperand_congr h)
  case f32ToF64 => exact congrArg (fun w => Resp.ofR (widenF w)) (float32Operand_congr h)
  case parse => exact congrArg parseResp h
  case decode | classify | todec =>
    obtain rfl : a = a' := h
    rfl
  case cmp | add | sub | mul | div | atan2 | pow =>
    obtain ⟨rfl, rfl⟩ : a = a' ∧ b = b' := h
    rfl
  case fma =>
    obtain ⟨rfl, rfl, rfl⟩ : a = a' ∧ b = b' ∧ c = c' := h
    rfl
  all_goals
    obtain rfl : a = a' := eq_of_toNat_mod_eq h
    rfl

end Sys2Proof.Machine
end

section
/-! PROOFS. The statement about what a response depends on. -/

namespace Sys2Proof.Proofs

open Machine

/-- Settles O17: the response is a function of the request, and of its fields read alone. -/
theorem responseOfRequestAlone : Obligations.ResponseOfRequestAlone := fun i s s' h =>
  ⟨responseTo i s.req, exec_eq_respond i s, responseTo_congr h ▸ exec_eq_respond i s'⟩

end Sys2Proof.Proofs
end

section
/-! PROOFS. Encoding: the fields of a command word (rule R60), the table of rule R63 read both ways, and the encoder
against the decoder. -/

namespace Sys2Proof

section Fields

/-! A command word is its four fields (rule R60): those of the encoder's word, those left by the mask of the opcode
table, and the word they determine. -/

@[simp] theorem cmdOp_encode (i : Instr) : cmdOp (encode i) = opcode i := BitVec.extractLsb'_append_eq_right

@[simp] theorem cmdP0_encode (i : Instr) : cmdP0 (encode i) = (cmdParams i).1 :=
  (BitVec.extractLsb'_append_eq_of_le (by decide)).trans BitVec.extractLsb'_append_eq_right

@[simp] theorem cmdP1_encode (i : Instr) : cmdP1 (encode i) = (cmdParams i).2 :=
  (BitVec.extractLsb'_append_eq_of_le (by decide)).trans <|
    (BitVec.extractLsb'_append_eq_of_le (by decide)).trans BitVec.extractLsb'_append_eq_right

@[simp] theorem cmdRsv_encode (i : Instr) : cmdRsv (encode i) = 0#8 :=
  (BitVec.extractLsb'_append_eq_of_le (by decide)).trans <|
    (BitVec.extractLsb'_append_eq_of_le (by decide)).trans BitVec.extractLsb'_append_eq_left

theorem command_ext {w w' : Command} (hrsv : cmdRsv w = cmdRsv w') (hp1 : cmdP1 w = cmdP1 w')
    (hp0 : cmdP0 w = cmdP0 w') (hop : cmdOp w = cmdOp w') : w = w' := by
  have hlt := w.isLt
  have hlt' := w'.isLt
  simp only [cmdRsv, cmdP1, cmdP0, cmdOp, ← BitVec.toNat_inj, BitVec.extractLsb'_toNat,
    Nat.shiftRight_eq_div_pow] at hrsv hp1 hp0 hop
  rw [← BitVec.toNat_inj]
  omega

@[simp] theorem cmdOp_mask (w : Command) : cmdOp (w &&& 0xFF0000FF#32) = cmdOp w :=
  BitVec.extractLsb'_and.trans BitVec.and_allOnes

@[simp] theorem cmdP0_mask (w : Command) : cmdP0 (w &&& 0xFF0000FF#32) = 0#8 :=
  BitVec.extractLsb'_and.trans BitVec.and_zero

@[simp] theorem cmdP1_mask (w : Command) : cmdP1 (w &&& 0xFF0000FF#32) = 0#8 :=
  BitVec.extractLsb'_and.trans BitVec.and_zero

@[simp] theorem cmdRsv_mask (w : Command) : cmdRsv (w &&& 0xFF0000FF#32) = cmdRsv w :=
  BitVec.extractLsb'_and.trans BitVec.and_allOnes

/-- The mask `0xFF0000FF` of the opcode table compares `rsv` and `op` (rule R63). -/
theorem mask_eq_mask_iff {w w' : Command} :
    w &&& 0xFF0000FF#32 = w' &&& 0xFF0000FF#32 ↔ cmdRsv w = cmdRsv w' ∧ cmdOp w = cmdOp w' := by
  constructor
  · intro h
    exact ⟨by simpa using congrArg cmdRsv h, by simpa using congrArg cmdOp h⟩
  · rintro ⟨hrsv, hop⟩
    exact command_ext (by simpa) (by simp) (by simp) (by simpa)

end Fields

section Table

/-! The table of rule R63: `decodeOp` reads it from op code to operation, `opcode` from operation to op code. -/

theorem decodeOp_opcode (i : Instr) : decodeOp (opcode i) (cmdParams i).1 (cmdParams i).2 = some i := by
  cases i <;> rfl

theorem opcode_of_decodeOp {op p0 p1 : BitVec 8} {i : Instr} (h : decodeOp op p0 p1 = some i) : opcode i = op := by
  unfold decodeOp at h
  split at h <;> cases h <;> rfl

/-- TODEC keeps both parameters. -/
theorem params_of_decodeOp {op p0 p1 q0 q1 : BitVec 8} (h : decodeOp op p0 p1 = some (.todec q0 q1)) :
    p0 = q0 ∧ p1 = q1 := by
  obtain rfl : 0x50#8 = op := opcode_of_decodeOp h
  rwa [show decodeOp 0x50#8 p0 p1 = some (.todec p0 p1) from rfl, Option.some.injEq, Instr.todec.injEq] at h

/-- Every operation but TODEC ignores the parameters (rule R70). -/
theorem decodeOp_params_irrelevant {op : BitVec 8} (hop : op ≠ 0x50#8) (p0 p1 q0 q1 : BitVec 8) :
    decodeOp op p0 p1 = decodeOp op q0 q1 := by
  unfold decodeOp
  split
  case h_43 => exact absurd rfl hop -- the row of TODEC
  all_goals rfl

/-- The op codes of the table are the ones `decodeOp` has an operation for, whatever the parameters. -/
theorem exists_decodeOp_iff {op p0 p1 : BitVec 8} : (∃ i, decodeOp op p0 p1 = some i) ↔ ∃ i, op = opcode i := by
  constructor
  · rintro ⟨i, h⟩
    exact ⟨i, (opcode_of_decodeOp h).symm⟩
  · rintro ⟨i, rfl⟩
    rw [← Option.isSome_iff_exists, decodeOp_isSome_params, ← decodeOp_isSome_params _ (cmdParams i).1 (cmdParams i).2,
      decodeOp_opcode, Option.isSome_some]

end Table

section Decoder

/-! The decoder: a zero reserved field, and the operation of the table. -/

theorem decode_eq_ok_iff {w : Command} {i : Instr} :
    decode w = .ok i ↔ cmdRsv w = 0#8 ∧ decodeOp (cmdOp w) (cmdP0 w) (cmdP1 w) = some i := by
  rw [decode]
  by_cases hr : cmdRsv w = 0#8
  · cases decodeOp (cmdOp w) (cmdP0 w) (cmdP1 w) <;> simp [hr]
  · simp [hr]

theorem decode_encode (i : Instr) : decode (encode i) = .ok i := by
  simp [decode_eq_ok_iff, decodeOp_opcode]

/-- Rule R70 in the fields of the word, with the op codes taken from the table. -/
theorem legalCommand_iff_fields {w : Command} :
    legalCommand w = true ↔ cmdRsv w = 0#8 ∧ ∃ i, cmdOp w = opcode i := by
  rw [← exists_decode_iff_legalCommand, ← exists_decodeOp_iff (p0 := cmdP0 w) (p1 := cmdP1 w), ← exists_and_left]
  exact exists_congr fun _ => decode_eq_ok_iff

/-- A reserved word is rejected by name. -/
theorem exists_decode_error_of_reserved {w : Command} (h : legalCommand w = false) : ∃ e, decode w = .error e := by
  cases hd : decode w with
  | ok i => simp [legalCommand_of_decode hd] at h
  | error e => exact ⟨e, rfl⟩

/-- Legality reads `rsv` and `op` alone (rule R70). -/
theorem legalCommand_congr {w w' : Command} (hrsv : cmdRsv w = cmdRsv w') (hop : cmdOp w = cmdOp w') :
    legalCommand w = legalCommand w' := by
  rw [Bool.eq_iff_iff, legalCommand_iff_fields, legalCommand_iff_fields, hrsv, hop]

/-- Decoding reads `rsv` and `op` alone, except of TODEC (rule R70). -/
theorem decode_congr {w w' : Command} (hrsv : cmdRsv w = cmdRsv w') (hop : cmdOp w = cmdOp w')
    (hne : cmdOp w ≠ 0x50#8) : decode w = decode w' := by
  rw [decode, decode, decodeOp_params_irrelevant hne _ _ (cmdP0 w') (cmdP1 w'), hrsv, hop]

/-- A word that decodes to `i` has the reserved field and the op code of the encoder's word. -/
theorem fields_of_decode {w : Command} {i : Instr} (h : decode w = .ok i) :
    cmdRsv w = cmdRsv (encode i) ∧ cmdOp w = cmdOp (encode i) := by
  obtain ⟨hrsv, hop⟩ := decode_eq_ok_iff.mp h
  exact ⟨by rw [hrsv, cmdRsv_encode], by rw [cmdOp_encode, opcode_of_decodeOp hop]⟩

/-- A TODEC word is the encoder's word, its parameters included (rule R60). -/
theorem eq_encode_of_decode_todec {w : Command} {p0 p1 : BitVec 8} (h : decode w = .ok (.todec p0 p1)) :
    w = encode (.todec p0 p1) := by
  obtain ⟨hrsv, hop⟩ := fields_of_decode h
  obtain ⟨hp0, hp1⟩ := params_of_decodeOp (decode_eq_ok_iff.mp h).2
  exact command_ext hrsv (by rw [hp1, cmdP1_encode, cmdParams]) (by rw [hp0, cmdP0_encode, cmdParams]) hop

end Decoder

namespace Machine

/-- Step "accept" refuses a reserved word, whether or not the request was changed while it waited. -/
theorem acceptStep_of_reserved {s : State} (h : legalCommand s.pins.req.cmd = false) :
    ∃ e, acceptStep s = .refused e := by
  obtain ⟨e, hd⟩ := exists_decode_error_of_reserved h
  cases hk : s.offerKept with
  | true => exact ⟨reservedCommand e, by simp [acceptStep, hk, hd]⟩
  | false => exact ⟨.requestChanged, acceptStep_of_changed hk⟩

end Machine

end Sys2Proof
end

section
/-! PROOFS. The statements about the encoding of command words. -/

namespace Sys2Proof.Proofs

open Machine

/-- Settles O1: each field of the encoder's word is read back, and each operation is found at its op code; what decodes
lies outside the reserved ranges. -/
theorem decodeEncode : Obligations.DecodeEncode := fun i => ⟨decode_encode i, legalCommand_of_decode (decode_encode i)⟩

/-- Settles O2: the mask compares the two fields that decoding determines; TODEC determines the other two as well. -/
theorem encodeDecode : Obligations.EncodeDecode := by
  refine fun w i h => ⟨mask_eq_mask_iff.mpr (fields_of_decode h), ?_⟩
  rintro ⟨p0, p1, rfl⟩
  exact eq_encode_of_decode_todec h

/-- Settles O3: legality in the fields of the word, and the refusal of step "accept". -/
theorem reservedWords : Obligations.ReservedWords := by
  refine ⟨fun w => ⟨legalCommand_iff_fields, (exists_decode_iff_legalCommand w).symm⟩, fun s hr hp hv h => ?_,
    fun w w' h => ?_⟩
  · rw [step_of_presented hr hp hv]
    exact acceptStep_of_reserved h
  · obtain ⟨hrsv, hop⟩ := mask_eq_mask_iff.mp h
    exact ⟨legalCommand_congr hrsv hop, decode_congr hrsv hop⟩

/-- Settles O4, by running the decoder on each of the words. -/
theorem decodedWords : Obligations.DecodedWords := by
  unfold Obligations.DecodedWords
  decide

end Sys2Proof.Proofs
end

section
/-! PROOFS. The decoder and classifier: the fields of a pattern (rule R90) and the patterns with given fields, the
categories (rules R91, R92), the exact value by the unpacked and by the normalised form (rules R93, R94, R98). -/

namespace Sys2Proof.Machine

/-! A pattern is its three fields (rule R90), and NEG changes the sign alone. -/

theorem expOf_lt (b : F64) : expOf b < 2 ^ 11 := (b.extractLsb' 52 11).isLt

theorem fracOf_lt (b : F64) : fracOf b < 2 ^ 52 := (b.extractLsb' 0 52).isLt

theorem extractLsb'_sign (b : F64) : b.extractLsb' 63 1 = BitVec.ofBool (signOf b) := by
  ext i hi
  simp [signOf, show i = 0 by omega]

theorem pattern_ext {b b' : F64} (hs : signOf b = signOf b') (he : expOf b = expOf b') (hf : fracOf b = fracOf b') :
    b = b' := by
  have hlt := b.isLt
  have hlt' := b'.isLt
  have hs' : b.extractLsb' 63 1 = b'.extractLsb' 63 1 := by rw [extractLsb'_sign, extractLsb'_sign, hs]
  simp only [expOf, fracOf, ← BitVec.toNat_inj, BitVec.extractLsb'_toNat, Nat.shiftRight_eq_div_pow] at hs' he hf
  rw [← BitVec.toNat_inj]
  omega

/-- The pattern with the given fields. -/
def ofFields (s : Bool) (e f : Nat) : F64 := BitVec.ofBool s ++ BitVec.ofNat 11 e ++ BitVec.ofNat 52 f

@[simp] theorem signOf_ofFields (s : Bool) (e f : Nat) : signOf (ofFields s e f) = s := by
  rw [signOf, ofFields, BitVec.getLsbD_append, BitVec.getLsbD_append]
  exact BitVec.getLsbD_ofBool ..

theorem expOf_ofFields (s : Bool) {e : Nat} (f : Nat) (he : e < 2 ^ 11) : expOf (ofFields s e f) = e := by
  rw [expOf, ofFields, BitVec.extractLsb'_append_eq_of_le (by decide), BitVec.extractLsb'_append_eq_right,
    BitVec.toNat_ofNat, Nat.mod_eq_of_lt he]

theorem fracOf_ofFields (s : Bool) (e : Nat) {f : Nat} (hf : f < 2 ^ 52) : fracOf (ofFields s e f) = f := by
  rw [fracOf, ofFields, BitVec.extractLsb'_append_eq_right, BitVec.toNat_ofNat, Nat.mod_eq_of_lt hf]

@[simp] theorem ofFields_fields (b : F64) : ofFields (signOf b) (expOf b) (fracOf b) = b :=
  pattern_ext (signOf_ofFields ..) (expOf_ofFields _ _ (expOf_lt b)) (fracOf_ofFields _ _ (fracOf_lt b))

@[simp] theorem expOf_negF (b : F64) : expOf (negF b) = expOf b :=
  congrArg BitVec.toNat (BitVec.extractLsb'_xor.trans BitVec.xor_zero)

@[simp] theorem fracOf_negF (b : F64) : fracOf (negF b) = fracOf b :=
  congrArg BitVec.toNat (BitVec.extractLsb'_xor.trans BitVec.xor_zero)

/-! The categories as sets of fields (rule R91), and how many patterns each has (rule R92). -/

/-- The biased exponents of a category's patterns. -/
def Category.exps : Category → Finset Nat
  | .zero | .subnormal => {0}
  | .normal => Finset.Icc 1 2046
  | .infinite | .nan => {2047}

/-- The mantissa fields of a category's patterns. -/
def Category.fracs : Category → Finset Nat
  | .zero | .infinite => {0}
  | .subnormal | .nan => Finset.Ico 1 (2 ^ 52)
  | .normal => Finset.range (2 ^ 52)

theorem cat_eq_iff {b : F64} {c : Category} : cat b = c ↔ expOf b ∈ c.exps ∧ fracOf b ∈ c.fracs := by
  have he := expOf_lt b
  have hf := fracOf_lt b
  rw [cat]
  cases c
  all_goals
    simp only [Category.exps, Category.fracs, Finset.mem_singleton, Finset.mem_Icc, Finset.mem_Ico, Finset.mem_range]
    split_ifs <;> simp only [false_iff, true_iff] <;> omega

theorem Category.lt_of_mem_exps {c : Category} {e : Nat} (h : e ∈ c.exps) : e < 2 ^ 11 := by
  cases c <;> simp only [exps, Finset.mem_singleton, Finset.mem_Icc] at h <;> omega

theorem Category.lt_of_mem_fracs {c : Category} {f : Nat} (h : f ∈ c.fracs) : f < 2 ^ 52 := by
  cases c <;> simp only [fracs, Finset.mem_singleton, Finset.mem_Ico, Finset.mem_range] at h <;> omega

/-- The patterns of a category are those of either sign with an exponent and a mantissa of its sets. -/
def Category.fieldsEquiv (c : Category) : { b : F64 // cat b = c } ≃ Bool × c.exps × c.fracs where
  toFun b := (signOf b, ⟨expOf b, (cat_eq_iff.mp b.2).1⟩, ⟨fracOf b, (cat_eq_iff.mp b.2).2⟩)
  invFun p := ⟨ofFields p.1 p.2.1 p.2.2, cat_eq_iff.mpr
    ⟨(expOf_ofFields p.1 p.2.2 (lt_of_mem_exps p.2.1.2)).symm ▸ p.2.1.2,
      (fracOf_ofFields p.1 p.2.1 (lt_of_mem_fracs p.2.2.2)).symm ▸ p.2.2.2⟩⟩
  left_inv b := Subtype.ext (ofFields_fields b)
  right_inv p := Prod.ext (signOf_ofFields ..) (Prod.ext (Subtype.ext (expOf_ofFields _ _ (lt_of_mem_exps p.2.1.2)))
    (Subtype.ext (fracOf_ofFields _ _ (lt_of_mem_fracs p.2.2.2))))

theorem card_cat (c : Category) : Nat.card { b : F64 // cat b = c } = 2 * (c.exps.card * c.fracs.card) := by
  rw [Nat.card_congr c.fieldsEquiv, Nat.card_prod, Nat.card_prod, Nat.card_eq_fintype_card (α := Bool),
    Fintype.card_bool, Nat.card_eq_finsetCard, Nat.card_eq_finsetCard]

@[simp] theorem cat_negF (b : F64) : cat (negF b) = cat b := by simp only [cat, expOf_negF, fracOf_negF]

/-- The category code read off the two fields, the normal range as an inequality (rules R67, R91). -/
theorem cat_code (b : F64) : (cat b).code =
    if expOf b = 0 then (if fracOf b = 0 then 0#3 else 1#3)
    else if expOf b < 2047 then 2#3
    else if fracOf b = 0 then 3#3 else 4#3 := by
  have hlt : expOf b < 2047 ↔ ¬expOf b = 2047 := by
    have he := expOf_lt b
    omega
  simp only [cat, hlt, ite_not]
  split_ifs <;> rfl

theorem expOf_eq_zero_iff {b : F64} : expOf b = 0 ↔ cat b = .zero ∨ cat b = .subnormal := by
  rw [cat]
  split_ifs <;> simp_all

theorem isFinite_iff {b : F64} : isFinite b = true ↔ cat b = .zero ∨ cat b = .subnormal ∨ cat b = .normal := by
  simp [isFinite, or_assoc]

/-! The unpacked form (rule R94). -/

@[simp] theorem unpack_s (b : F64) : (unpack b).s = signOf b := by
  rw [unpack]
  cases cat b <;> rfl

theorem unpack_e (b : F64) : (unpack b).e =
    if cat b = .zero ∨ cat b = .subnormal then -1022
    else if cat b = .normal then (expOf b : ℤ) - 1023 else 1024 := by
  rw [unpack]
  cases cat b <;> rfl

theorem unpack_m (b : F64) : (unpack b).m =
    if cat b = .zero ∨ cat b = .infinite then 0
    else if cat b = .normal then 2 ^ 52 + fracOf b else fracOf b := by
  rw [unpack]
  cases cat b <;> rfl

theorem unpack_m_lt (b : F64) : (unpack b).m < 2 ^ 53 := by
  have hf := fracOf_lt b
  rw [unpack_m]
  split_ifs <;> omega

theorem unpack_e_bounds (b : F64) : -1022 ≤ (unpack b).e ∧ (unpack b).e ≤ 1024 := by
  have he := expOf_lt b
  simp only [unpack_e, ← expOf_eq_zero_iff]
  split_ifs <;> omega

/-- The unpacked form of a zero or subnormal pattern. -/
theorem unpack_of_expOf_eq_zero {b : F64} (h : expOf b = 0) : (unpack b).e = -1022 ∧ (unpack b).m = fracOf b := by
  rcases expOf_eq_zero_iff.mp h with hc | hc
  · have hf : fracOf b = 0 := Finset.mem_singleton.mp (cat_eq_iff.mp hc).2
    simp [unpack, hc, hf]
  · simp [unpack, hc]

theorem unpack_of_normal {b : F64} (h : cat b = .normal) :
    (unpack b).e = (expOf b : ℤ) - 1023 ∧ (unpack b).m = 2 ^ 52 + fracOf b := by
  simp [unpack, h]

/-- The unpacked form reconstructs the exact value (rules R93, R94). -/
theorem val_eq_unpack (K : Type) [Field K] {b : F64} (h : isFinite b = true) :
    val K b = (-1) ^ (signOf b).toNat * ((unpack b).m : K) * 2 ^ ((unpack b).e - 52) := by
  have hs : (if signOf b then -1 else 1 : K) = (-1) ^ (signOf b).toNat := by cases signOf b <;> simp
  rw [val, hs, mul_assoc]
  by_cases h0 : expOf b = 0
  · obtain ⟨he, hm⟩ := unpack_of_expOf_eq_zero h0
    rw [if_pos h0, he, hm]
    norm_num
  · have hn : cat b = .normal := by
      rw [isFinite_iff, ← or_assoc, ← expOf_eq_zero_iff] at h
      exact h.resolve_left h0
    obtain ⟨he, hm⟩ := unpack_of_normal hn
    rw [if_neg h0, he, hm, sub_sub, Nat.cast_add, two_pow_cast]
    norm_num

/-! The normalised form (rule R98). -/

theorem norm_of_expOf_eq_zero {b : F64} (h : expOf b = 0) : norm b =
    (fracOf b * 2 ^ (52 - Nat.log 2 (fracOf b)), -1074 - ((52 - Nat.log 2 (fracOf b) : ℕ) : ℤ)) := by
  simp only [norm, if_pos h, Nat.shiftLeft_eq, Nat.log2_eq_log_two]

theorem norm_of_expOf_ne_zero {b : F64} (h : expOf b ≠ 0) : norm b = (2 ^ 52 + fracOf b, (expOf b : ℤ) - 1075) := by
  rw [norm, if_neg h]

/-- Shifting a number of at most `k + 1` bits left until bit `k` is its leading bit. -/
theorem normalise_bounds {f k : ℕ} (h0 : f ≠ 0) (hf : f < 2 ^ (k + 1)) :
    2 ^ k ≤ f * 2 ^ (k - Nat.log 2 f) ∧ f * 2 ^ (k - Nat.log 2 f) < 2 ^ (k + 1) := by
  have hk : Nat.log 2 f ≤ k := Nat.lt_succ_iff.mp (Nat.log_lt_of_lt_pow h0 hf)
  have shift : ∀ j, 2 ^ (Nat.log 2 f + j) * 2 ^ (k - Nat.log 2 f) = 2 ^ (k + j) := fun j => by
    rw [← pow_add]; congr 1; omega
  constructor
  · rw [← Nat.add_zero k, ← shift 0]
    exact Nat.mul_le_mul_right _ (Nat.pow_log_le_self 2 h0)
  · rw [← shift 1]
    exact Nat.mul_lt_mul_of_pos_right (Nat.lt_pow_succ_log_self one_lt_two f) (by positivity)

/-- `M` of the normalised form has exactly 53 bits. -/
theorem norm_fst_bounds {b : F64} (h : isFiniteNonzero b = true) : 2 ^ 52 ≤ (norm b).1 ∧ (norm b).1 < 2 ^ 53 := by
  have hf := fracOf_lt b
  by_cases he : expOf b = 0
  · have h0 : fracOf b ≠ 0 := by
      rintro h0
      simp [isFiniteNonzero, cat, he, h0] at h
    rw [norm_of_expOf_eq_zero he]
    exact normalise_bounds h0 (by omega)
  · rw [norm_of_expOf_ne_zero he]
    constructor <;> dsimp only <;> omega

section Value

variable {K : Type} [Field K] [LinearOrder K] [IsStrictOrderedRing K]

variable (K) in
/-- The normalised form has the magnitude of the pattern. -/
theorem abs_val_eq_norm (b : F64) : |val K b| = ((norm b).1 : K) * 2 ^ (norm b).2 := by
  have hs : |(if signOf b then -1 else 1 : K)| = 1 := by cases signOf b <;> simp
  rw [val, abs_mul, hs, one_mul]
  by_cases he : expOf b = 0
  · rw [if_pos he, norm_of_expOf_eq_zero he, abs_of_nonneg (by positivity), zpow_sub₀ two_ne_zero, zpow_natCast]
    push_cast
    field_simp
  · rw [if_neg he, norm_of_expOf_ne_zero he, abs_of_nonneg (by positivity), Nat.cast_add, two_pow_cast]

/-- Of two numbers of `k + 1` bits at exponents that make them equal, neither has the larger exponent. -/
theorem exponent_le_of_mul_zpow_eq {k M N : ℕ} {p q : ℤ} (hM : 2 ^ k ≤ M) (hN : N < 2 ^ (k + 1))
    (h : (M : K) * 2 ^ p = N * 2 ^ q) : p ≤ q := by
  have hM' : (2 : K) ^ k ≤ M := by exact_mod_cast hM
  have hN' : (N : K) < 2 ^ (k + 1) := by exact_mod_cast hN
  have hlt : (2 : K) ^ ((k : ℤ) + p) < 2 ^ ((k : ℤ) + 1 + q) := calc
    (2 : K) ^ ((k : ℤ) + p) = 2 ^ k * 2 ^ p := by rw [zpow_add₀ two_ne_zero, zpow_natCast]
    _ ≤ M * 2 ^ p := by gcongr
    _ = N * 2 ^ q := h
    _ < 2 ^ (k + 1) * 2 ^ q := by gcongr
    _ = 2 ^ ((k : ℤ) + 1 + q) := by rw [zpow_add₀ two_ne_zero, ← Nat.cast_succ, zpow_natCast]
  have := (zpow_lt_zpow_iff_right₀ (one_lt_two (α := K))).mp hlt
  omega

/-- A number of `k + 1` bits and an exponent of two are determined by the value. -/
theorem mul_zpow_inj {k M N : ℕ} {p q : ℤ} (hM : 2 ^ k ≤ M) (hM' : M < 2 ^ (k + 1)) (hN : 2 ^ k ≤ N)
    (hN' : N < 2 ^ (k + 1)) (h : (M : K) * 2 ^ p = N * 2 ^ q) : (M, p) = (N, q) := by
  obtain rfl : p = q := le_antisymm (exponent_le_of_mul_zpow_eq hM hN' h) (exponent_le_of_mul_zpow_eq hN hM' h.symm)
  have hMN : (M : K) = N := mul_right_cancel₀ (zpow_ne_zero p two_ne_zero) h
  rw [Nat.cast_injective hMN]

end Value

/-! The responses of DECODE (rule R95). -/

theorem decodeResp_sgn (a : F64) : (decodeResp a).sgn = a.extractLsb' 63 1 := by
  rw [extractLsb'_sign, decodeResp, unpack_s]

@[simp] theorem decodeResp_sgn_toNat (a : F64) : (decodeResp a).sgn.toNat = (signOf a).toNat := by
  rw [decodeResp, unpack_s, BitVec.toNat_ofBool]

@[simp] theorem decodeResp_r_toNat (a : F64) : (decodeResp a).r.toNat = (unpack a).m := by
  have hm := unpack_m_lt a
  exact Nat.mod_eq_of_lt (by omega)

@[simp] theorem decodeResp_x_toInt (a : F64) : (decodeResp a).x.toInt = (unpack a).e := by
  obtain ⟨hlo, hhi⟩ := unpack_e_bounds a
  exact (BitVec.toInt_ofInt ..).trans (Int.bmod_eq_of_le (by omega) (by omega))

end Sys2Proof.Machine
end

section
/-! PROOFS. The statements about the decoder and classifier. -/

namespace Sys2Proof.Proofs

open Machine

/-- Settles O22: the magnitude has a normalised form, and a 53-bit integer and its exponent are determined by
the value. -/
theorem normalisedForm : Obligations.NormalisedForm := by
  intro b h
  obtain ⟨hlo, hhi⟩ := norm_fst_bounds h
  have habs := abs_val_eq_norm ℚ b
  exact ⟨hlo, hhi, habs, fun M p hM hM' hval => mul_zpow_inj hM hM' hlo hhi (hval.symm.trans habs),
    fun hc => norm_of_expOf_ne_zero (by rw [Ne, expOf_eq_zero_iff]; simp [hc]),
    fun hc => norm_of_expOf_eq_zero (expOf_eq_zero_iff.mpr (.inr hc))⟩

/-- Settles O19: the response's fields are the unpacked form, which fits their widths and reconstructs the value. -/
theorem decodeResult : Obligations.DecodeResult := by
  refine fun s => ⟨decodeResp s.req.a, rfl, ?_, fun h => ?_⟩
  · rw [← decodeResp_sgn, ← unpack_e, ← unpack_m]
    rfl
  · rw [decodeResp_sgn_toNat, decodeResp_r_toNat, decodeResp_x_toInt]
    exact val_eq_unpack ℚ h

/-- Settles O20: the code depends on the exponent and mantissa fields, which the sign bit is no part of. -/
theorem classifyResult : Obligations.ClassifyResult := by
  have hexec : ∀ s, exec .classify s = .next (s.respond (Resp.ofCC (cat s.req.a).code)) := fun _ => rfl
  refine ⟨fun s => (hexec s).trans (by rw [cat_code]; rfl), fun s s' h => ⟨_, hexec s, ?_⟩⟩
  have hcat : cat s'.req.a = cat s.req.a := h ▸ cat_negF s.req.a
  rw [hexec, hcat]

/-- Settles O21: a pattern of a category is a sign, an exponent and a mantissa, each from a set of its own. -/
theorem categoryCounts : Obligations.CategoryCounts := by
  have hmant : (Finset.Ico 1 (2 ^ 52)).card = 2 ^ 52 - 1 := Nat.card_Ico ..
  have hnorm : (Finset.Icc 1 2046).card * (Finset.range (2 ^ 52)).card = 2046 * 2 ^ 52 := by
    rw [Nat.card_Icc, Finset.card_range]
  refine ⟨card_cat _, (card_cat _).trans ?_, (card_cat _).trans ?_, card_cat _, (card_cat _).trans ?_⟩
  · rw [Category.exps, Category.fracs, Finset.card_singleton, hmant, one_mul]
  · rw [Category.exps, Category.fracs, hnorm, mul_assoc]
  · rw [Category.exps, Category.fracs, Finset.card_singleton, hmant, one_mul]

end Sys2Proof.Proofs
end

section
/-! PROOFS. The rounder: the magnitudes of a binary format in their order, the midpoints between neighbours, and
`rne_fmt` as the function that steps up at each midpoint (rules R111, R117). -/

namespace Sys2Proof.Machine

/-! The exponent and fraction fields as one number `m`, with a fraction field of `p` bits: a larger number is a larger
magnitude. -/

/-- The magnitude of the fields `m`, in units of the least subnormal: a significand at the exponent of its binade, the
subnormals in the first binade. -/
def fieldUnits (p m : ℕ) : ℕ := (m - (m / 2 ^ p - 1) * 2 ^ p) * 2 ^ (m / 2 ^ p - 1)

/-- The fields of the significand `n` in binade `j`, the carry into the next binade included. -/
theorem fieldUnits_add {p j n : ℕ} (hn : n ≤ 2 ^ (p + 1)) (hj : j = 0 ∨ 2 ^ p ≤ n) :
    fieldUnits p (j * 2 ^ p + n) = n * 2 ^ j := by
  have hp : 0 < 2 ^ p := by positivity
  have hdiv : (j * 2 ^ p + n) / 2 ^ p = j + n / 2 ^ p := by
    rw [Nat.add_comm, Nat.add_mul_div_right _ _ hp, Nat.add_comm]
  rw [fieldUnits, hdiv]
  rcases hn.lt_or_eq with hlt | rfl
  · have hbin : j + n / 2 ^ p - 1 = j := by
      have h1 : n / 2 ^ p < 2 := Nat.div_lt_of_lt_mul (by rwa [← pow_succ])
      rcases hj with rfl | hle
      · omega
      · have := Nat.div_pos hle hp
        omega
    rw [hbin, Nat.add_sub_cancel_left]
  · have hcarry : j + 2 ^ (p + 1) / 2 ^ p - 1 = j + 1 := by
      rw [pow_succ, Nat.mul_div_cancel_left _ hp]
      omega
    rw [hcarry, show j * 2 ^ p + 2 ^ (p + 1) - (j + 1) * 2 ^ p = 2 ^ p by rw [add_mul, pow_succ]; omega]
    ring

/-- All fields are those of a significand in some binade. -/
theorem exists_binade (p m : ℕ) : ∃ j n, m = j * 2 ^ p + n ∧ n < 2 ^ (p + 1) ∧ (j = 0 ∨ 2 ^ p ≤ n) := by
  have hdiv := Nat.div_add_mod' m (2 ^ p)
  have hmod := Nat.mod_lt m (show 0 < 2 ^ p by positivity)
  rcases Nat.eq_zero_or_pos (m / 2 ^ p) with h0 | h0
  · rw [h0] at hdiv
    exact ⟨0, m, by omega, by rw [pow_succ]; omega, .inl rfl⟩
  · obtain ⟨j, hj⟩ := Nat.exists_eq_add_of_lt h0
    rw [hj, Nat.zero_add, add_mul, one_mul] at hdiv
    exact ⟨j, 2 ^ p + m % 2 ^ p, by omega, by rw [pow_succ]; omega, .inr (Nat.le_add_right ..)⟩

/-- Neighbours lie one unit of their binade apart. -/
theorem fieldUnits_strictMono (p : ℕ) : StrictMono (fieldUnits p) := by
  refine strictMono_nat_of_lt_succ fun m => ?_
  obtain ⟨j, n, rfl, hn, hj⟩ := exists_binade p m
  rw [add_assoc, fieldUnits_add hn.le hj, fieldUnits_add hn (hj.imp_right fun h => h.trans (Nat.le_succ n))]
  exact Nat.mul_lt_mul_of_pos_right (Nat.lt_succ_self n) (by positivity)

namespace Format

/-- The fields of infinity: the greatest exponent field, and a zero fraction (rule R117). -/
def infField (f : Format) : ℕ := (2 ^ f.xb - 1) * 2 ^ (f.P - 1)

/-- The exponents of the format fill its exponent field but for the subnormals and the infinities, and it has a fraction
bit. -/
structure Regular (f : Format) : Prop where
  two_le_P : 2 ≤ f.P
  emin_le_emax : f.emin ≤ f.emax
  exponents : f.emax - f.emin + 2 = 2 ^ f.xb - 1

theorem regular_binary64 : binary64.Regular := ⟨by decide, by decide, by decide⟩

theorem regular_binary32 : binary32.Regular := ⟨by decide, by decide, by decide⟩

theorem Regular.two_pow_P {f : Format} (hf : f.Regular) : 2 ^ f.P = 2 * 2 ^ (f.P - 1) := by
  rw [← pow_succ', Nat.sub_add_cancel (one_le_two.trans hf.two_le_P)]

theorem Regular.infField_pos {f : Format} (hf : f.Regular) : 0 < f.infField := by
  obtain ⟨-, hle, hexp⟩ := hf
  have hone : 1 < 2 ^ f.xb := by
    have : (1 : ℤ) < 2 ^ f.xb := by omega
    exact_mod_cast this
  exact Nat.mul_pos (by omega) (by positivity)

theorem Regular.infField_even {f : Format} (hf : f.Regular) : 2 ∣ f.infField :=
  Dvd.dvd.mul_left (dvd_pow_self 2 (by have := hf.two_le_P; omega)) _

section Value

variable (K : Type) [Field K]

/-- The unit of the last place in binade `j`, the least subnormal in the first one. -/
def ulp (f : Format) (j : ℕ) : K := 2 ^ (f.emin + j - ((f.P : ℤ) - 1))

/-- The magnitude of the fields `m`. -/
def fieldVal (f : Format) (m : ℕ) : K := fieldUnits (f.P - 1) m * f.ulp K 0

/-- Halfway from the magnitude of the fields `m` to the next one. -/
def midpoint (f : Format) (m : ℕ) : K := (f.fieldVal K m + f.fieldVal K (m + 1)) / 2

variable {K} [LinearOrder K] [IsStrictOrderedRing K] {f : Format}

theorem ulp_pos (j : ℕ) : 0 < f.ulp K j := zpow_pos two_pos _

theorem half_mul_ulp (j : ℕ) : 1 / 2 * f.ulp K j = 2 ^ (f.emin + j - f.P) := by
  rw [ulp, ← sub_add, zpow_add_one₀ two_ne_zero]
  ring

theorem two_pow_pred_mul_ulp (hf : f.Regular) (j : ℕ) : 2 ^ (f.P - 1) * f.ulp K j = 2 ^ (f.emin + j) := by
  have hP := hf.two_le_P
  rw [ulp, ← zpow_natCast, ← zpow_add₀ two_ne_zero]
  congr 1
  omega

theorem two_pow_mul_ulp (hf : f.Regular) (j : ℕ) : 2 ^ f.P * f.ulp K j = 2 ^ (f.emin + j + 1) := by
  rw [zpow_add_one₀ two_ne_zero, ← two_pow_pred_mul_ulp hf, ← Nat.sub_add_cancel (one_le_two.trans hf.two_le_P),
    pow_succ, Nat.add_sub_cancel]
  ring

theorem fieldVal_add {j n : ℕ} (hn : n ≤ 2 ^ f.P) (hj : j = 0 ∨ 2 ^ (f.P - 1) ≤ n) (hf : f.Regular) :
    f.fieldVal K (j * 2 ^ (f.P - 1) + n) = n * f.ulp K j := by
  have hP := hf.two_le_P
  rw [fieldVal, fieldUnits_add (by rwa [Nat.sub_add_cancel (by omega)]) hj, ulp, ulp, Nat.cast_zero, add_zero,
    add_sub_right_comm, zpow_add₀ two_ne_zero, zpow_natCast]
  push_cast
  ring

theorem fieldVal_nonneg (f : Format) (m : ℕ) : 0 ≤ f.fieldVal K m := mul_nonneg (Nat.cast_nonneg _) (ulp_pos 0).le

theorem fieldVal_strictMono (f : Format) : StrictMono (f.fieldVal K) := fun _ _ h =>
  mul_lt_mul_of_pos_right (Nat.cast_lt.mpr (fieldUnits_strictMono _ h)) (ulp_pos 0)

theorem fieldVal_lt_midpoint (m : ℕ) : f.fieldVal K m < f.midpoint K m := by
  rw [midpoint]
  linarith [f.fieldVal_strictMono (K := K) (Nat.lt_succ_self m)]

theorem midpoint_lt_fieldVal {m k : ℕ} (h : m < k) : f.midpoint K m < f.fieldVal K k := by
  have hle := (f.fieldVal_strictMono (K := K)).monotone (Nat.succ_le_of_lt h)
  rw [midpoint]
  linarith [f.fieldVal_strictMono (K := K) (Nat.lt_succ_self m)]

theorem midpoint_add {j n : ℕ} (hn : n < 2 ^ f.P) (hj : j = 0 ∨ 2 ^ (f.P - 1) ≤ n) (hf : f.Regular) :
    f.midpoint K (j * 2 ^ (f.P - 1) + n) = (n + 1 / 2) * f.ulp K j := by
  rw [midpoint, add_assoc, fieldVal_add hn.le hj hf, fieldVal_add hn (hj.imp_right fun h => h.trans (Nat.le_succ n)) hf]
  push_cast
  ring

end Value

end Format

section Nearest

variable {K : Type} [Field K] [LinearOrder K] [IsStrictOrderedRing K] [FloorRing K]

/-! `rhe` steps up at each half, where it goes to the even neighbour (rule R111). -/

theorem rheOn_le_iff {y : K} (hy : 0 ≤ y) {n : ℕ} :
    rheOn y ≤ n ↔ y < n + 1 / 2 ∨ (y = n + 1 / 2 ∧ n % 2 = 0) := by
  have hlo := Nat.floor_le hy
  have hhi := Nat.lt_floor_add_one y
  simp only [rheOn]
  rcases lt_trichotomy ⌊y⌋₊ n with h | h | h
  · have hc : (⌊y⌋₊ : K) + 1 ≤ n := by exact_mod_cast h
    exact iff_of_true (by split_ifs <;> omega) (.inl (by linarith))
  · simp only [← h, sub_eq_iff_eq_add', lt_sub_iff_add_lt']
    split_ifs with hup
    · refine iff_of_false (by omega) ?_
      rintro (hlt | ⟨heq, heven⟩)
      · rcases hup with hgt | ⟨hhalf, -⟩ <;> linarith
      · rcases hup with hgt | ⟨-, hodd⟩
        · linarith
        · omega
    · refine iff_of_true le_rfl ?_
      rw [not_or, not_lt, not_and, Nat.mod_two_not_eq_one] at hup
      exact hup.1.lt_or_eq.imp_right fun heq => ⟨heq, hup.2 heq⟩
  · have hc : (n : K) + 1 ≤ ⌊y⌋₊ := by exact_mod_cast h
    refine iff_of_false (by split_ifs <;> omega) ?_
    rintro (hlt | ⟨heq, -⟩) <;> linarith

theorem rheOn_le {y : K} (hy : 0 ≤ y) {n : ℕ} (h : y ≤ n) : rheOn y ≤ n :=
  (rheOn_le_iff hy).mpr (.inl (by linarith))

theorem le_rheOn {y : K} {n : ℕ} (h : (n : K) ≤ y) : n ≤ rheOn y := by
  by_contra hlt
  have hc : ((rheOn y : ℕ) : K) + 1 ≤ n := by exact_mod_cast not_le.mp hlt
  rcases (rheOn_le_iff ((Nat.cast_nonneg n).trans h)).mp (le_refl (rheOn y)) with h' | ⟨h', -⟩ <;> linarith

theorem abs_rheOn_sub_le {y : K} (hy : 0 ≤ y) : |(rheOn y : K) - y| ≤ 1 / 2 := by
  have hlo := Nat.floor_le hy
  have hhi := Nat.lt_floor_add_one y
  simp only [rheOn, abs_le]
  split_ifs with hup
  · push_cast
    rcases hup with h | ⟨h, -⟩ <;> constructor <;> linarith
  · rw [not_or, not_lt] at hup
    constructor <;> linarith [hup.1]

/-! `rne_fmt` in one formula: a carry out of the significand adds to the exponent field by itself, and overflow is the
largest value of the fields. -/

theorem packMag_eq {f : Format} (hf : f.Regular) {j n : ℕ} (hn : n ≤ 2 ^ f.P) (hj : j = 0 ∨ 2 ^ (f.P - 1) ≤ n) :
    packMag f (f.emin + j) n = min f.infField (j * 2 ^ (f.P - 1) + n) := by
  obtain ⟨-, hle, hexp⟩ := id hf
  have hX : f.emax - f.emin + 2 = ((2 ^ f.xb - 1 : ℕ) : ℤ) := by
    rw [hexp, Nat.cast_sub Nat.one_le_two_pow]
    push_cast
    rfl
  have hA : 0 < 2 ^ (f.P - 1) := by positivity
  rw [hf.two_pow_P] at hn
  rw [packMag, Format.infField, hf.two_pow_P]
  generalize 2 ^ (f.P - 1) = A, 2 ^ f.xb - 1 = X at *
  rcases hn.eq_or_lt with rfl | hlt
  · have hsum : j * A + 2 * A = (j + 2) * A := (add_mul ..).symm
    rw [if_pos rfl, if_pos rfl, hsum, show (f.emin + j + 1 - f.emin).toNat = j + 1 by omega]
    split_ifs with hover
    · exact (min_eq_left (Nat.mul_le_mul_right A (by omega))).symm
    · rw [min_eq_right (Nat.mul_le_mul_right A (by omega))]
      ring
  · rw [if_neg hlt.ne, if_neg hlt.ne, show (f.emin + j - f.emin).toNat = j by omega]
    split_ifs with hover
    · have hle' : X * A ≤ (j + 1) * A := Nat.mul_le_mul_right A (by omega)
      rw [add_mul, one_mul] at hle'
      rw [min_eq_left (by omega)]
    · have hle' : (j + 2) * A ≤ X * A := Nat.mul_le_mul_right A (by omega)
      rw [add_mul] at hle'
      rw [min_eq_right (by omega)]

/-- Every magnitude is a significand `y` of its binade, with `P` bits before the point or in the first binade fewer, and
what is rounded to an integer is `y` (rule R111). -/
theorem roundOn_eq {f : Format} (hf : f.Regular) {q : K} (hq : 0 ≤ q) : ∃ (j : ℕ) (y : K),
    q = y * f.ulp K j ∧ 0 ≤ y ∧ y < 2 ^ f.P ∧ (j = 0 ∨ 2 ^ (f.P - 1) ≤ y) ∧
      roundOn f q = min f.infField (j * 2 ^ (f.P - 1) + rheOn y) := by
  rcases hq.eq_or_lt with rfl | hq
  · refine ⟨0, 0, by simp, le_rfl, by positivity, .inl rfl, ?_⟩
    have h0 : rheOn (0 : K) = 0 := Nat.le_zero.mp (rheOn_le le_rfl (by simp))
    simp [roundOn, h0]
  · obtain ⟨j, hj⟩ := Int.le.dest (le_max_right (Int.log 2 q) f.emin)
    have hunit := f.ulp_pos (K := K) j
    have hlt : q / f.ulp K j < 2 ^ f.P := by
      rw [div_lt_iff₀ hunit, Format.two_pow_mul_ulp hf]
      exact (Int.lt_zpow_succ_log_self one_lt_two q).trans_le (zpow_le_zpow_right₀ one_le_two (by omega))
    have hge : j = 0 ∨ 2 ^ (f.P - 1) ≤ q / f.ulp K j := by
      refine (Nat.eq_zero_or_pos j).imp_right fun h0 => ?_
      rw [le_div_iff₀ hunit, Format.two_pow_pred_mul_ulp hf, show f.emin + j = Int.log 2 q by omega]
      exact Int.zpow_log_le_self one_lt_two hq
    have hnonneg := (div_pos hq hunit).le
    refine ⟨j, _, (div_mul_cancel₀ q hunit.ne').symm, hnonneg, hlt, hge, ?_⟩
    rw [roundOn, if_neg hq.ne', ← hj]
    exact packMag_eq hf (rheOn_le hnonneg (by exact_mod_cast hlt.le))
      (hge.imp_right fun h => le_rheOn (by exact_mod_cast h))

variable {f : Format}

/-- The rounder in the order of the fields: it has stepped beyond `m` above the midpoint that follows `m`, and on that
midpoint where `m` is odd. -/
theorem roundOn_le_iff (hf : f.Regular) {q : K} (hq : 0 ≤ q) {m : ℕ} (hm : m < f.infField) :
    roundOn f q ≤ m ↔ q < f.midpoint K m ∨ (q = f.midpoint K m ∧ m % 2 = 0) := by
  obtain ⟨j, y, rfl, hy, hlt, hge, hround⟩ := roundOn_eq hf hq
  have hP := hf.two_le_P
  have h2 := hf.two_pow_P
  have hunit := f.ulp_pos (K := K) j
  rw [hround, min_le_iff, or_iff_right hm.not_ge]
  by_cases habove : j * 2 ^ (f.P - 1) + 2 ^ f.P ≤ m
  · have hn : rheOn y ≤ 2 ^ f.P := rheOn_le hy (by exact_mod_cast hlt.le)
    refine iff_of_true (by omega) (.inl ?_)
    calc y * f.ulp K j < 2 ^ f.P * f.ulp K j := by gcongr
      _ = f.fieldVal K (j * 2 ^ (f.P - 1) + 2 ^ f.P) := by
        rw [Format.fieldVal_add le_rfl (.inr (by omega)) hf]; push_cast; rfl
      _ ≤ f.fieldVal K m := f.fieldVal_strictMono.monotone habove
      _ < f.midpoint K m := Format.fieldVal_lt_midpoint m
  by_cases hbelow : j ≠ 0 ∧ m < j * 2 ^ (f.P - 1) + 2 ^ (f.P - 1)
  · have hge' := hge.resolve_left hbelow.1
    have hn : 2 ^ (f.P - 1) ≤ rheOn y := le_rheOn (by exact_mod_cast hge')
    have hmid : f.midpoint K m < y * f.ulp K j := calc
      f.midpoint K m < f.fieldVal K (j * 2 ^ (f.P - 1) + 2 ^ (f.P - 1)) := Format.midpoint_lt_fieldVal hbelow.2
      _ = 2 ^ (f.P - 1) * f.ulp K j := by
        rw [Format.fieldVal_add (by omega) (.inr le_rfl) hf]; push_cast; rfl
      _ ≤ _ := by gcongr
    refine iff_of_false (by omega) ?_
    rintro (h | ⟨h, -⟩) <;> linarith
  · obtain ⟨n, rfl⟩ : ∃ n, m = j * 2 ^ (f.P - 1) + n := by
      refine Nat.exists_eq_add_of_le ?_
      rcases Nat.eq_zero_or_pos j with rfl | h <;> omega
    have heven : (j * 2 ^ (f.P - 1) + n) % 2 = n % 2 := by
      have : 2 ∣ j * 2 ^ (f.P - 1) := Dvd.dvd.mul_left (dvd_pow_self 2 (by omega)) j
      omega
    rw [Format.midpoint_add (by omega) (by omega) hf, heven, Nat.add_le_add_iff_left, rheOn_le_iff hy,
      mul_lt_mul_iff_left₀ hunit, mul_left_inj' hunit.ne']

/-! What follows from the order of the midpoints. -/

theorem lt_roundOn_iff (hf : f.Regular) {q : K} (hq : 0 ≤ q) {m : ℕ} (hm : m < f.infField) :
    m < roundOn f q ↔ f.midpoint K m < q ∨ (q = f.midpoint K m ∧ m % 2 = 1) := by
  rw [← not_le, roundOn_le_iff hf hq hm, not_or, not_lt, not_and, Nat.mod_two_not_eq_zero, le_iff_lt_or_eq]
  constructor
  · rintro ⟨h | h, hodd⟩
    · exact .inl h
    · exact .inr ⟨h.symm, hodd h.symm⟩
  · rintro (h | ⟨h, hodd⟩)
    · exact ⟨.inl h, fun he => absurd he h.ne'⟩
    · exact ⟨.inr h.symm, fun _ => hodd⟩

theorem roundOn_le_infField (hf : f.Regular) {q : K} (hq : 0 ≤ q) : roundOn f q ≤ f.infField := by
  obtain ⟨j, y, -, -, -, -, hround⟩ := roundOn_eq hf hq
  exact hround ▸ min_le_left _ _

theorem roundOn_mono (hf : f.Regular) {q q' : K} (hq : 0 ≤ q) (hle : q ≤ q') : roundOn f q ≤ roundOn f q' := by
  rcases lt_or_ge (roundOn f q') f.infField with h | h
  · refine (roundOn_le_iff hf hq h).mpr ?_
    rcases (roundOn_le_iff hf (hq.trans hle) h).mp le_rfl with h' | ⟨h', heven⟩
    · exact .inl (hle.trans_lt h')
    · exact (hle.trans_eq h').lt_or_eq.imp_right fun heq => ⟨heq, heven⟩
  · exact (roundOn_le_infField hf hq).trans h

/-- A magnitude of the format rounds to itself. -/
theorem roundOn_fieldVal (hf : f.Regular) {m : ℕ} (hm : m < f.infField) : roundOn f (f.fieldVal K m) = m := by
  have hq := f.fieldVal_nonneg (K := K) m
  refine le_antisymm ((roundOn_le_iff hf hq hm).mpr (.inl (Format.fieldVal_lt_midpoint m))) ?_
  rcases m with _ | k
  · exact Nat.zero_le _
  · exact (lt_roundOn_iff hf hq (by omega)).mpr (.inl (Format.midpoint_lt_fieldVal (Nat.lt_succ_self k)))

/-- Overflow: the last magnitude before infinity is odd, so the midpoint above it rounds up (rule R113). -/
theorem roundOn_lt_infField_iff (hf : f.Regular) {q : K} (hq : 0 ≤ q) :
    roundOn f q < f.infField ↔ q < f.midpoint K (f.infField - 1) := by
  have hpos := hf.infField_pos
  have heven := hf.infField_even
  rw [← Nat.le_sub_one_iff_lt hpos, roundOn_le_iff hf hq (by omega), or_iff_left (by omega)]

/-- Gradual underflow: below the least normal magnitude one rounding, to units of the least subnormal (rule R112). -/
theorem roundOn_of_lt_emin (hf : f.Regular) {q : K} (hq : 0 ≤ q) (hlt : q < 2 ^ f.emin) :
    roundOn f q = rheOn (q / f.ulp K 0) := by
  obtain ⟨j, y, rfl, hy, hy', hge, hround⟩ := roundOn_eq hf hq
  have hlow : y < 2 ^ (f.P - 1) := by
    refine not_le.mp fun h => hlt.not_ge ?_
    calc (2 : K) ^ f.emin ≤ 2 ^ (f.emin + j) := zpow_le_zpow_right₀ one_le_two (by omega)
      _ = 2 ^ (f.P - 1) * f.ulp K j := (Format.two_pow_pred_mul_ulp hf j).symm
      _ ≤ y * f.ulp K j := mul_le_mul_of_nonneg_right h (Format.ulp_pos j).le
  obtain rfl : j = 0 := hge.resolve_right hlow.not_ge
  have hn : rheOn y ≤ f.infField :=
    (rheOn_le hy (by exact_mod_cast hlow.le)).trans (Nat.le_of_dvd hf.infField_pos (Nat.dvd_mul_left ..))
  rw [hround, Nat.zero_mul, Nat.zero_add, min_eq_right hn, mul_div_cancel_right₀ _ (Format.ulp_pos 0).ne']

omit [FloorRing K] in
/-- Of two points, `a` is the nearer to a `q` on its side of their midpoint. -/
theorem abs_sub_lt_abs_sub {a b q : K} (h : 0 < (b - a) * ((a + b) / 2 - q)) : |q - a| < |q - b| := by
  rw [← sq_lt_sq]
  linarith

omit [FloorRing K] in
theorem abs_sub_eq_abs_sub {a b q : K} (h : q = (a + b) / 2) : |q - a| = |q - b| := by
  rw [← abs_neg, h]
  ring_nf

/-- Round to nearest, ties to even: every other magnitude of the format is farther away, or as far, and then the result
is even. -/
theorem roundOn_nearest (hf : f.Regular) {q : K} (hq : 0 ≤ q) (hr : roundOn f q < f.infField) {m : ℕ}
    (hm : m ≠ roundOn f q) : |q - f.fieldVal K (roundOn f q)| < |q - f.fieldVal K m| ∨
      (|q - f.fieldVal K (roundOn f q)| = |q - f.fieldVal K m| ∧ roundOn f q % 2 = 0) := by
  have hmono := f.fieldVal_strictMono (K := K)
  refine Or.imp abs_sub_lt_abs_sub (And.imp_left abs_sub_eq_abs_sub) ?_
  rcases lt_or_gt_of_ne hm with hlt | hgt
  · obtain ⟨k, hk⟩ := Nat.exists_eq_add_of_lt hlt
    have hle := hmono.monotone (Nat.le_add_right m k)
    have hside := (lt_roundOn_iff hf hq (m := m + k) (by omega)).mp (by omega)
    rw [Format.midpoint, ← hk] at hside
    rcases lt_or_ge ((f.fieldVal K (roundOn f q) + f.fieldVal K m) / 2) q with h | h
    · exact .inl (mul_pos_of_neg_of_neg (sub_neg.mpr (hmono hlt)) (sub_neg.mpr h))
    · rcases hside with hside | ⟨hside, hodd⟩
      · linarith
      · exact .inr ⟨by linarith, by omega⟩
  · have hle := hmono.monotone (Nat.succ_le_of_lt hgt)
    have hside := (roundOn_le_iff hf hq hr).mp le_rfl
    rw [Format.midpoint] at hside
    rcases lt_or_ge q ((f.fieldVal K (roundOn f q) + f.fieldVal K m) / 2) with h | h
    · exact .inl (mul_pos (sub_pos.mpr (hmono hgt)) (sub_pos.mpr h))
    · rcases hside with hside | ⟨hside, heven⟩
      · linarith
      · exact .inr ⟨by linarith, heven⟩

/-- Half a unit of the last place (rule R116(e)). -/
theorem abs_fieldVal_roundOn_sub_le (hf : f.Regular) {q : K} (hq : 2 ^ f.emin ≤ q) (hr : roundOn f q < f.infField) :
    |f.fieldVal K (roundOn f q) - q| ≤ 2 ^ (Int.log 2 q - f.P) := by
  have hq0 : 0 < q := lt_of_lt_of_le (by positivity) hq
  obtain ⟨j, y, hqy, hy, hlt, hge, hround⟩ := roundOn_eq hf hq0.le
  have hn : rheOn y ≤ 2 ^ f.P := rheOn_le hy (by exact_mod_cast hlt.le)
  have hn' := hge.imp_right fun h => le_rheOn (y := y) (n := 2 ^ (f.P - 1)) (by exact_mod_cast h)
  have hlog : f.emin + j ≤ Int.log 2 q := by
    refine (Int.zpow_le_iff_le_log one_lt_two hq0).mp ?_
    rcases hge with rfl | hge
    · simpa using hq
    · rw [Nat.cast_ofNat, ← Format.two_pow_pred_mul_ulp hf, hqy]
      exact mul_le_mul_of_nonneg_right hge (Format.ulp_pos j).le
  have hval : f.fieldVal K (roundOn f q) = rheOn y * f.ulp K j := by
    rw [hround, min_eq_right (by omega), Format.fieldVal_add hn hn' hf]
  calc |f.fieldVal K (roundOn f q) - q| = |(rheOn y : K) - y| * f.ulp K j := by
        nth_rw 2 [hqy]
        rw [hval, ← sub_mul, abs_mul, abs_of_pos (a := f.ulp K j) (Format.ulp_pos j)]
    _ ≤ 1 / 2 * f.ulp K j := mul_le_mul_of_nonneg_right (abs_rheOn_sub_le hy) (Format.ulp_pos j).le
    _ = 2 ^ (f.emin + j - f.P) := Format.half_mul_ulp j
    _ ≤ 2 ^ (Int.log 2 q - f.P) := zpow_le_zpow_right₀ one_le_two (by omega)

omit [FloorRing K] in
/-- A number of at most `b + 1` bits, at any exponent, is not strictly inside a unit step from a number of at least as
many. -/
theorem mul_zpow_le_or_ge {b A N : ℕ} (hA : A < 2 ^ (b + 1)) (hN : 2 ^ b ≤ N) (t k : ℤ) :
    (A : K) * 2 ^ t ≤ N * 2 ^ k ∨ ((N : K) + 1) * 2 ^ k ≤ A * 2 ^ t := by
  rcases le_or_gt k t with h | h
  · obtain ⟨d, rfl⟩ := Int.le.dest h
    have hd : (A : K) * 2 ^ (k + d) = ((A * 2 ^ d : ℕ) : K) * 2 ^ k := by
      rw [zpow_add₀ two_ne_zero, zpow_natCast]; push_cast; ring
    rw [hd]
    rcases Nat.lt_or_ge N (A * 2 ^ d) with h' | h'
    · exact .inr (by gcongr; exact_mod_cast h')
    · exact .inl (by gcongr)
  · left
    calc (A : K) * 2 ^ t ≤ 2 ^ (b + 1) * 2 ^ t := by gcongr; exact_mod_cast hA.le
      _ = 2 ^ b * 2 ^ (t + 1) := by rw [zpow_add_one₀ two_ne_zero]; ring
      _ ≤ N * 2 ^ k := by
        gcongr
        · exact_mod_cast hN
        · exact one_le_two
        · omega

/-- Rule R115: no midpoint lies strictly between `N * 2^k` and `(N + 1) * 2^k`, as a midpoint has `P + 1` bits at most
and `N` has as many at least. -/
theorem midpoint_le_or_ge (hf : f.Regular) {N : ℕ} (hN : 2 ^ f.P ≤ N) (k : ℤ) (m : ℕ) :
    f.midpoint K m ≤ N * 2 ^ k ∨ ((N : K) + 1) * 2 ^ k ≤ f.midpoint K m := by
  have hP := hf.two_le_P
  obtain ⟨j, n, rfl, hn, hj⟩ := exists_binade (f.P - 1) m
  rw [Nat.sub_add_cancel (by omega)] at hn
  have hmid : f.midpoint K (j * 2 ^ (f.P - 1) + n) = ((2 * n + 1 : ℕ) : K) * 2 ^ (f.emin + j - f.P) := by
    rw [Format.midpoint_add hn hj hf, ← Format.half_mul_ulp]
    push_cast
    ring
  rw [hmid]
  exact mul_zpow_le_or_ge (by omega) hN _ _

/-- All magnitudes strictly between `N * 2^k` and `(N + 1) * 2^k` round alike (rule R115). -/
theorem roundOn_congr_of_mem_Ioo (hf : f.Regular) {N : ℕ} (hN : 2 ^ f.P ≤ N) {k : ℤ} {q q' : K}
    (hq : q ∈ Set.Ioo ((N : K) * 2 ^ k) ((N + 1) * 2 ^ k))
    (hq' : q' ∈ Set.Ioo ((N : K) * 2 ^ k) ((N + 1) * 2 ^ k)) :
    roundOn f q = roundOn f q' := by
  have below : ∀ {x : K}, x ∈ Set.Ioo ((N : K) * 2 ^ k) ((N + 1) * 2 ^ k) → ∀ m < f.infField,
      (roundOn f x ≤ m ↔ ((N : K) + 1) * 2 ^ k ≤ f.midpoint K m) := by
    rintro x ⟨hlo, hhi⟩ m hm
    rw [roundOn_le_iff hf ((by positivity : (0 : K) ≤ N * 2 ^ k).trans hlo.le) hm]
    rcases midpoint_le_or_ge (K := K) hf hN k m with h | h
    · refine iff_of_false ?_ (not_le.mpr (h.trans_lt (hlo.trans hhi)))
      rintro (h' | ⟨h', -⟩) <;> linarith
    · exact iff_of_true (.inl (hhi.trans_le h)) h
  have hnonneg : (0 : K) ≤ N * 2 ^ k := by positivity
  refine eq_of_forall_ge_iff fun m => ?_
  rcases lt_or_ge m f.infField with hm | hm
  · rw [below hq m hm, below hq' m hm]
  · exact iff_of_true ((roundOn_le_infField hf (hnonneg.trans hq.1.le)).trans hm)
      ((roundOn_le_infField hf (hnonneg.trans hq'.1.le)).trans hm)

end Nearest

end Sys2Proof.Machine
end

section
/-! PROOFS. The rounder's float64 patterns: sign and exponent and fraction fields, their exact magnitude (rule R93), and
the thresholds of rules R112 and R113. -/

namespace Sys2Proof.Machine

/-- The exponent and fraction fields of a pattern as one number. -/
def fieldOf (b : F64) : ℕ := expOf b * 2 ^ 52 + fracOf b

theorem fieldOf_eq_toNat (b : F64) : fieldOf b = (b.extractLsb' 0 63).toNat := by
  simp only [fieldOf, expOf, fracOf, BitVec.extractLsb'_toNat, Nat.shiftRight_eq_div_pow]
  omega

/-- A pattern is its sign and its exponent and fraction fields. -/
theorem eq_of_fieldOf_eq {b b' : F64} (hs : signOf b = signOf b') (hm : fieldOf b = fieldOf b') : b = b' := by
  have hf := fracOf_lt b
  have hf' := fracOf_lt b'
  simp only [fieldOf] at hm
  exact pattern_ext hs (by omega) (by omega)

theorem fracOf_mod_two (b : F64) : fracOf b % 2 = fieldOf b % 2 := by
  rw [fieldOf]
  omega

theorem infField_binary64 : binary64.infField = 2047 * 2 ^ 52 := rfl

theorem isFinite_iff_fieldOf {b : F64} : isFinite b = true ↔ fieldOf b < binary64.infField := by
  have he := expOf_lt b
  have hf := fracOf_lt b
  rw [isFinite_iff, cat, fieldOf, infField_binary64]
  split_ifs <;> simp <;> omega

theorem cat_ne_nan_of_fieldOf_le {b : F64} (h : fieldOf b ≤ binary64.infField) : cat b ≠ .nan := by
  rw [fieldOf, infField_binary64] at h
  rw [Ne, cat_eq_iff]
  simp only [Category.exps, Category.fracs, Finset.mem_singleton, Finset.mem_Ico]
  omega

/-- The pattern with the given sign and the fields `m`. -/
def ofField (s : Bool) (m : ℕ) : F64 := BitVec.ofBool s ++ BitVec.ofNat 63 m

@[simp] theorem signOf_ofField (s : Bool) (m : ℕ) : signOf (ofField s m) = s := by
  rw [signOf, ofField, BitVec.getLsbD_append]
  exact BitVec.getLsbD_ofBool ..

theorem fieldOf_ofField (s : Bool) {m : ℕ} (hm : m < 2 ^ 63) : fieldOf (ofField s m) = m := by
  rw [fieldOf_eq_toNat, ofField, BitVec.extractLsb'_append_eq_right, BitVec.toNat_ofNat, Nat.mod_eq_of_lt hm]

theorem toNat_ofField_false {m : ℕ} (hm : m < 2 ^ 63) : (ofField false m).toNat = m := by
  rw [ofField, BitVec.toNat_append]
  simpa using hm

theorem ofField_true (m : ℕ) : ofField true m = ofField false m ^^^ 0x8000000000000000#64 := by
  rw [ofField, ofField, show 0x8000000000000000#64 = BitVec.ofBool true ++ 0#63 from rfl, BitVec.xor_append]
  simp

section Value

variable {K : Type} [Field K] [LinearOrder K] [IsStrictOrderedRing K]

theorem fieldVal_binary64 {j n : ℕ} (hn : n ≤ 2 ^ 53) (hj : j = 0 ∨ 2 ^ 52 ≤ n) :
    binary64.fieldVal K (j * 2 ^ 52 + n) = n * 2 ^ ((j : ℤ) - 1074) := by
  refine (Format.fieldVal_add (f := binary64) hn hj Format.regular_binary64).trans ?_
  rw [Format.ulp, show binary64.emin = -1022 from rfl, show binary64.P = 53 from rfl]
  congr 2
  push_cast
  ring

theorem midpoint_binary64 {j n : ℕ} (hn : n < 2 ^ 53) (hj : j = 0 ∨ 2 ^ 52 ≤ n) :
    binary64.midpoint K (j * 2 ^ 52 + n) = (2 * n + 1) * 2 ^ ((j : ℤ) - 1075) := by
  rw [Format.midpoint, add_assoc, fieldVal_binary64 hn.le hj,
    fieldVal_binary64 hn (hj.imp_right fun h => h.trans (Nat.le_succ n)),
    show (j : ℤ) - 1074 = j - 1075 + 1 by ring, zpow_add_one₀ two_ne_zero]
  push_cast
  ring

/-- The magnitude of a pattern (rule R93) is that of its fields. -/
theorem abs_val_eq_fieldVal (b : F64) : |val K b| = binary64.fieldVal K (fieldOf b) := by
  have hs : |(if signOf b then -1 else 1 : K)| = 1 := by cases signOf b <;> simp
  have hf := fracOf_lt b
  rw [val, abs_mul, hs, one_mul, fieldOf]
  split_ifs with h0
  · rw [abs_of_nonneg (by positivity), h0, fieldVal_binary64 (by omega) (.inl rfl)]
    norm_num
  · obtain ⟨j, hj⟩ := Nat.exists_eq_succ_of_ne_zero h0
    rw [abs_of_nonneg (by positivity), hj, show j.succ * 2 ^ 52 + fracOf b = j * 2 ^ 52 + (2 ^ 52 + fracOf b) by omega,
      fieldVal_binary64 (by omega) (.inr (Nat.le_add_right ..))]
    push_cast
    ring_nf

/-- The midpoint above zero: half the least subnormal (rule R112). -/
theorem midpoint_binary64_zero : binary64.midpoint K 0 = 2 ^ (-1075 : ℤ) := by
  simpa using midpoint_binary64 (K := K) (j := 0) (n := 0) (by norm_num) (.inl rfl)

theorem midpoint_binary64_one : binary64.midpoint K 1 = 3 * 2 ^ (-1075 : ℤ) := by
  have h := midpoint_binary64 (K := K) (j := 0) (n := 1) (by norm_num) (.inl rfl)
  norm_num at h ⊢
  exact h

/-- The magnitude of `MAXF`. -/
theorem fieldVal_binary64_max : binary64.fieldVal K (binary64.infField - 1) = (2 ^ 53 - 1) * 2 ^ 971 := by
  have h := fieldVal_binary64 (K := K) (j := 2045) (n := 2 ^ 53 - 1) (by norm_num) (.inr (by norm_num))
  refine h.trans ?_
  rw [show ((2045 : ℕ) : ℤ) - 1074 = (971 : ℕ) by norm_num, zpow_natCast]
  norm_num

/-- The overflow threshold (rule R113). -/
theorem midpoint_binary64_max : binary64.midpoint K (binary64.infField - 1) = 2 ^ 1024 - 2 ^ 970 := by
  have h := midpoint_binary64 (K := K) (j := 2045) (n := 2 ^ 53 - 1) (by norm_num) (.inr (by norm_num))
  refine h.trans ?_
  rw [show ((2045 : ℕ) : ℤ) - 1075 = (970 : ℕ) by norm_num, zpow_natCast, show (1024 : ℕ) = 54 + 970 from rfl, pow_add]
  generalize (2 : K) ^ 970 = u
  push_cast
  ring

variable [FloorRing K]

/-! `rne` in the fields of its result. -/

omit [IsStrictOrderedRing K] in
theorem rneOn_eq_ofField (s : Bool) (q : K) : rneOn s q = ofField s (roundOn binary64 q) := rfl

theorem roundOn_binary64_lt {q : K} (hq : 0 ≤ q) : roundOn binary64 q < 2 ^ 63 :=
  (roundOn_le_infField Format.regular_binary64 hq).trans_lt (by decide)

omit [IsStrictOrderedRing K] in
@[simp] theorem signOf_rneOn (s : Bool) (q : K) : signOf (rneOn s q) = s := signOf_ofField ..

theorem fieldOf_rneOn (s : Bool) {q : K} (hq : 0 ≤ q) : fieldOf (rneOn s q) = roundOn binary64 q :=
  fieldOf_ofField s (roundOn_binary64_lt hq)

theorem rneOn_eq_ofField_iff (s : Bool) {q : K} (hq : 0 ≤ q) {m : ℕ} (hm : m < 2 ^ 63) :
    rneOn s q = ofField s m ↔ roundOn binary64 q = m := by
  refine ⟨fun h => ?_, fun h => h ▸ rfl⟩
  rw [← fieldOf_rneOn s hq, h, fieldOf_ofField s hm]

/-- Below the overflow threshold the result is finite (rule R113). -/
theorem roundOn_binary64_lt_infField_iff {q : K} (hq : 0 ≤ q) :
    roundOn binary64 q < binary64.infField ↔ q < 2 ^ 1024 - 2 ^ 970 := by
  rw [roundOn_lt_infField_iff Format.regular_binary64 hq, midpoint_binary64_max]

theorem isFinite_rneOn (s : Bool) {q : K} (hq : 0 ≤ q) (h : q < 2 ^ 1024 - 2 ^ 970) : isFinite (rneOn s q) = true := by
  rwa [isFinite_iff_fieldOf, fieldOf_rneOn s hq, roundOn_binary64_lt_infField_iff hq]

theorem abs_val_rneOn (s : Bool) {q : K} (hq : 0 ≤ q) :
    |val K (rneOn s q)| = binary64.fieldVal K (roundOn binary64 q) := by
  rw [abs_val_eq_fieldVal, fieldOf_rneOn s hq]

end Value

end Sys2Proof.Machine
end

section
/-! PROOFS. The statements about the rounder. -/

namespace Sys2Proof.Proofs

open Machine

/-- Settles O24: the fields of the result are nearest among all fields, and even at a tie. -/
theorem roundsToNearestEven : Obligations.RoundsToNearestEven := by
  intro s q hq hlt
  have near {m : ℕ} (hm : m ≠ roundOn binary64 q) :=
    roundOn_nearest Format.regular_binary64 hq ((roundOn_binary64_lt_infField_iff hq).mpr hlt) hm
  refine ⟨isFinite_rneOn s hq hlt, signOf_rneOn s q, fun b _ => ?_, fun b _ htie hne => ?_⟩
  · rw [abs_val_rneOn s hq, abs_val_eq_fieldVal b]
    rcases eq_or_ne (fieldOf b) (roundOn binary64 q) with h | h
    · rw [h]
    · exact (near h).elim le_of_lt fun htie => htie.1.le
  · rw [abs_val_rneOn s hq, abs_val_eq_fieldVal b] at htie hne
    rw [fracOf_mod_two, fieldOf_rneOn s hq]
    exact ((near fun h => hne (congrArg _ h)).resolve_left htie.not_gt).2

/-- Settles O25: the thresholds are the midpoints next to zero and next to infinity. -/
theorem roundingThresholds : Obligations.RoundingThresholds := by
  intro s q hq
  have hfmt := Format.regular_binary64
  have hle (m : ℕ) (hm : m < binary64.infField) := roundOn_le_iff hfmt hq hm
  have hlt (m : ℕ) (hm : m < binary64.infField) := lt_roundOn_iff hfmt hq hm
  refine ⟨fun hsub => congrArg (ofField s) (roundOn_of_lt_emin hfmt hq hsub), ?_, fun hlo hhi => ?_, fun htie => ?_, ?_,
    fun hlo hhi => ?_⟩
  · rw [show zeroF s = ofField s 0 from rfl, rneOn_eq_ofField_iff s hq (by decide), ← Nat.le_zero, hle 0 (by decide),
      midpoint_binary64_zero, le_iff_lt_or_eq, and_iff_left rfl]
  · refine congrArg (ofField s) (le_antisymm ((hle 1 (by decide)).mpr (.inl ?_)) ((hlt 0 (by decide)).mpr (.inl ?_)))
    · rwa [midpoint_binary64_one]
    · rwa [midpoint_binary64_zero]
  · have hmid : q = binary64.midpoint ℝ 1 := htie.trans midpoint_binary64_one.symm
    have hup : q < binary64.midpoint ℝ 2 :=
      hmid ▸ (Format.midpoint_lt_fieldVal one_lt_two).trans (Format.fieldVal_lt_midpoint 2)
    exact congrArg (ofField s)
      (le_antisymm ((hle 2 (by decide)).mpr (.inl hup)) ((hlt 1 (by decide)).mpr (.inr ⟨hmid, rfl⟩)))
  · rw [show infF s = ofField s binary64.infField from rfl, rneOn_eq_ofField_iff s hq (by decide), ← not_lt,
      ← roundOn_binary64_lt_infField_iff hq, not_lt]
    exact ⟨ge_of_eq, (roundOn_le_infField hfmt hq).antisymm⟩
  · have hfin := (roundOn_binary64_lt_infField_iff hq).mpr hhi
    have hmax : binary64.infField - 1 ≤ roundOn binary64 q := by
      rw [← roundOn_fieldVal (K := ℝ) hfmt (m := binary64.infField - 1) (by decide)]
      exact roundOn_mono hfmt (Format.fieldVal_nonneg ..) (fieldVal_binary64_max.trans_le hlo)
    exact congrArg (ofField s) (le_antisymm (Nat.le_sub_one_of_lt hfin) hmax)

/-- Settles O26: without the flag by the model's law, with it as the half-way point stands for the whole interval. -/
theorem stickyRounding : Obligations.StickyRounding := by
  refine ⟨fun s N k q hN hlo hhi => ?_, fun s N k => roundPack_eq_rneOn s N k false⟩
  rw [roundPack_eq_rneOn (K := ℝ), if_pos rfl, rneOn_eq_ofField, rneOn_eq_ofField]
  have hk : (0 : ℝ) < 2 ^ k := by positivity
  congr 1
  refine roundOn_congr_of_mem_Ioo Format.regular_binary64 hN ⟨?_, ?_⟩ ⟨hlo, hhi⟩ <;> gcongr <;> norm_num

/-- Settles O27: each clause from the rounding of the fields. -/
theorem roundingProperties : Obligations.RoundingProperties := by
  refine ⟨fun b hb => ?_, fun q q' hq hle => ?_, fun q _ => ofField_true _, fun s q hq => ?_, fun s q hq hlt => ?_⟩
  · refine eq_of_fieldOf_eq (signOf_rneOn ..) ?_
    rw [fieldOf_rneOn _ (abs_nonneg _), abs_val_eq_fieldVal,
      roundOn_fieldVal Format.regular_binary64 (isFinite_iff_fieldOf.mp hb)]
  · rw [rneOn_eq_ofField, rneOn_eq_ofField, toNat_ofField_false (roundOn_binary64_lt hq),
      toNat_ofField_false (roundOn_binary64_lt (hq.trans hle))]
    exact roundOn_mono Format.regular_binary64 hq hle
  · exact cat_ne_nan_of_fieldOf_le (fieldOf_rneOn s hq ▸ roundOn_le_infField Format.regular_binary64 hq)
  · have hq0 : (0 : ℝ) ≤ q := le_trans (by positivity) hq
    rw [abs_val_rneOn s hq0]
    exact abs_fieldVal_roundOn_sub_le Format.regular_binary64 hq ((roundOn_binary64_lt_infField_iff hq0).mpr hlt)

end Sys2Proof.Proofs
end

section
/-! PROOFS. The arithmetic core: exact values in units and in sign and magnitude (rules R93, R94), and the results of
ADD, SUB, MUL, DIV, SQRT and FMA as one rounding of an exact value (rules R130 to R145). -/

namespace Sys2Proof.Machine

/-! NEG and ABS in the fields of a pattern (rules R150, R151). -/

@[simp] theorem signOf_negF (b : F64) : signOf (negF b) = !signOf b := by
  simp [signOf, negF]

@[simp] theorem signOf_absF (b : F64) : signOf (absF b) = false := by
  simp [signOf, absF]

@[simp] theorem expOf_absF (b : F64) : expOf (absF b) = expOf b :=
  congrArg BitVec.toNat (BitVec.extractLsb'_and.trans BitVec.and_allOnes)

@[simp] theorem fracOf_absF (b : F64) : fracOf (absF b) = fracOf b :=
  congrArg BitVec.toNat (BitVec.extractLsb'_and.trans BitVec.and_allOnes)

@[simp] theorem cat_absF (b : F64) : cat (absF b) = cat b := by simp only [cat, expOf_absF, fracOf_absF]

@[simp] theorem fieldOf_absF (b : F64) : fieldOf (absF b) = fieldOf b := by simp only [fieldOf, expOf_absF, fracOf_absF]

@[simp] theorem fieldOf_negF (b : F64) : fieldOf (negF b) = fieldOf b := by simp only [fieldOf, expOf_negF, fracOf_negF]

@[simp] theorem isFinite_negF (b : F64) : isFinite (negF b) = isFinite b := by simp only [isFinite, cat_negF]

theorem negF_negF (b : F64) : negF (negF b) = b := pattern_ext (by simp) (by simp) (by simp)

theorem absF_absF (b : F64) : absF (absF b) = absF b := pattern_ext (by simp) (by simp) (by simp)

theorem isFiniteNonzero_iff {b : F64} :
    isFiniteNonzero b = true ↔ cat b ≠ .nan ∧ cat b ≠ .infinite ∧ cat b ≠ .zero := by
  rw [isFiniteNonzero]
  cases cat b <;> decide

theorem isFinite_iff_ne {b : F64} : isFinite b = true ↔ cat b ≠ .nan ∧ cat b ≠ .infinite := by
  rw [isFinite]
  cases cat b <;> decide

theorem isFinite_of_isFiniteNonzero {b : F64} (h : isFiniteNonzero b = true) : isFinite b = true := by
  obtain ⟨hnan, hinf, -⟩ := isFiniteNonzero_iff.mp h
  exact isFinite_iff_ne.mpr ⟨hnan, hinf⟩

/-! The exact value: the sign as a factor, and the magnitude. -/

/-- The factor of a sign. -/
def signFactor (K : Type) [Field K] (s : Bool) : K := if s then -1 else 1

section Value

variable {K : Type} [Field K]

@[simp] theorem signFactor_not (s : Bool) : signFactor K (!s) = -signFactor K s := by
  cases s <;> simp [signFactor]

theorem signFactor_ne_zero (s : Bool) : signFactor K s ≠ 0 := by
  cases s <;> simp [signFactor]

variable [LinearOrder K] [IsStrictOrderedRing K]

@[simp] theorem abs_signFactor (s : Bool) : |signFactor K s| = 1 := by
  cases s <;> simp [signFactor]

/-- A value is its sign and its magnitude. -/
theorem val_eq_signFactor_mul (b : F64) : val K b = signFactor K (signOf b) * |val K b| := by
  have hmag : 0 ≤ (if expOf b = 0 then (fracOf b : K) * 2 ^ (-1074 : ℤ)
      else ((2 : K) ^ 52 + fracOf b) * 2 ^ ((expOf b : ℤ) - 1075)) := by
    split_ifs <;> positivity
  have hval : val K b = signFactor K (signOf b) * _ := rfl
  rw [hval, abs_mul, abs_signFactor, one_mul, abs_of_nonneg hmag]

theorem abs_val_of_signOf_false {b : F64} (h : signOf b = false) : |val K b| = val K b := by
  rw [val_eq_signFactor_mul b, h, signFactor, if_neg Bool.false_ne_true, one_mul, abs_abs]

@[simp] theorem val_negF (b : F64) : val K (negF b) = -val K b := by
  have habs : |val K (negF b)| = |val K b| := by rw [abs_val_eq_fieldVal, fieldOf_negF, ← abs_val_eq_fieldVal]
  rw [val_eq_signFactor_mul (negF b), habs, signOf_negF, signFactor_not, neg_mul, ← val_eq_signFactor_mul]

theorem val_absF (b : F64) : val K (absF b) = |val K b| := by
  rw [← abs_val_of_signOf_false (signOf_absF b), abs_val_eq_fieldVal, fieldOf_absF, ← abs_val_eq_fieldVal]

variable [FloorRing K]

/-- The magnitude in units of `2^-1074`. -/
theorem abs_val_eq_magUnits (b : F64) : |val K b| = (magUnits b : K) / unitsPerOne := by
  have hunit := (unitsPerOne_pos K).le
  rw [val_eq_units, valUnits, abs_div, abs_of_nonneg hunit]
  split <;> simp

theorem magUnits_pos_of_ne_zero {b : F64} (h : cat b ≠ .zero) : 0 < magUnits b := by
  rw [magUnits]
  split_ifs with he
  · refine Nat.pos_of_ne_zero fun hf => h ?_
    rw [cat, if_pos he, if_pos hf]
  · positivity

omit [FloorRing K] in
theorem val_of_zero {b : F64} (h : cat b = .zero) : val K b = 0 := by
  obtain ⟨he, hf⟩ := cat_eq_iff.mp h
  simp only [Category.exps, Category.fracs, Finset.mem_singleton] at he hf
  simp [val, he, hf]

/-! One rounding of an exact value given in units (rules R110, R111). -/

/-- Rounding a magnitude with a sign rounds the signed number. -/
theorem rneSigned_signFactor_mul (s : Bool) {q : K} (hq : 0 < q) : rneSigned (signFactor K s * q) = rneOn s q := by
  have hsign : decide (signFactor K s * q < 0) = s := by
    cases s <;> simp [signFactor, hq, hq.le]
  rw [rneSigned, hsign, abs_mul, abs_signFactor, one_mul, abs_of_pos hq]

theorem unitsPerOne_pos_nat : 0 < unitsPerOne := by exact_mod_cast unitsPerOne_pos ℚ

/-- A number given as `t` units of `1 / d`: when it is zero, and what `rne` makes of it. -/
theorem rne_of_units {t : ℤ} {d : ℕ} (hd : 0 < d) {x : K} (hx : x = t / d) :
    (t = 0 ↔ x = 0) ∧ rne (decide (t < 0)) t.natAbs d = rneSigned x := by
  have hd' : (0 : K) < d := Nat.cast_pos.mpr hd
  subst hx
  constructor
  · rw [div_eq_zero_iff, or_iff_left hd'.ne', Int.cast_eq_zero]
  · rw [rneSigned, rne_eq_rneOn (K := K) _ _ _ hd, abs_div, abs_of_pos hd', Nat.cast_natAbs, Int.cast_abs]
    simp only [div_lt_iff₀ hd', zero_mul, Int.cast_lt_zero]

/-! The results of the operations beyond their special cases. -/

/-- The exact sum of rule R132, in units of `2^-1074`. -/
theorem sum_eq_units (a b : F64) : val K a + val K b = ((valUnits a + valUnits b : ℤ) : K) / unitsPerOne := by
  rw [val_eq_units, val_eq_units, Int.cast_add, add_div]

/-- ADD of two finite patterns (rule R132, case 5). -/
theorem addF_of_finite {a b : F64} (ha : isFinite a = true) (hb : isFinite b = true) :
    addF a b = if val K a + val K b = 0 then zeroF (signOf a && signOf b) else rneSigned (val K a + val K b) := by
  obtain ⟨hna, hia⟩ := isFinite_iff_ne.mp ha
  obtain ⟨hnb, hib⟩ := isFinite_iff_ne.mp hb
  obtain ⟨hzero, hround⟩ := rne_of_units unitsPerOne_pos_nat (sum_eq_units (K := K) a b)
  simp only [addF, hna, hia, hnb, hib, or_self, and_self, if_false, hzero, hround]

/-- SUB of two finite patterns (rule R134). -/
theorem subF_of_finite {a b : F64} (ha : isFinite a = true) (hb : isFinite b = true) :
    subF a b = if val K a = val K b then zeroF (signOf a && !signOf b) else rneSigned (val K a - val K b) := by
  rw [subF, addF_of_finite (K := K) ha (by rwa [isFinite_negF]), val_negF, signOf_negF, ← sub_eq_add_neg]
  simp only [sub_eq_zero]

theorem rne_product_eq (s : Bool) (a b : F64) :
    rne s (magUnits a * magUnits b) (unitsPerOne * unitsPerOne) = rneOn s |val K a * val K b| := by
  rw [rne_eq_rneOn (K := K) _ _ _ (Nat.mul_pos unitsPerOne_pos_nat unitsPerOne_pos_nat), abs_mul,
    abs_val_eq_magUnits, abs_val_eq_magUnits, div_mul_div_comm, Nat.cast_mul, Nat.cast_mul]

/-- MUL of two finite patterns (rule R136, case 4). -/
theorem mulF_of_finite {a b : F64} (ha : isFinite a = true) (hb : isFinite b = true) :
    mulF a b = rneOn (signOf a ^^ signOf b) |val K a * val K b| := by
  obtain ⟨hna, hia⟩ := isFinite_iff_ne.mp ha
  obtain ⟨hnb, hib⟩ := isFinite_iff_ne.mp hb
  simp only [mulF, hna, hia, hnb, hib, or_self, and_false, false_and, if_false, rne_product_eq (K := K)]

theorem rne_quotient_eq (s : Bool) (a : F64) {b : F64} (hb : cat b ≠ .zero) :
    rne s (magUnits a) (magUnits b) = rneOn s |val K a / val K b| := by
  rw [rne_eq_rneOn (K := K) _ _ _ (magUnits_pos_of_ne_zero hb), abs_div, abs_val_eq_magUnits, abs_val_eq_magUnits,
    div_div_div_cancel_right₀ (unitsPerOne_pos K).ne']

/-- The exact `a * b + c` of rule R145, in units of `2^-2148`. -/
theorem fused_eq_units (a b c : F64) : val K a * val K b + val K c =
    ((valUnits a * valUnits b + valUnits c * unitsPerOne : ℤ) : K) / (unitsPerOne * unitsPerOne : ℕ) := by
  have hunit := (unitsPerOne_pos K).ne'
  rw [val_eq_units, val_eq_units, val_eq_units]
  push_cast
  field_simp

end Value

/-! Exchanged operands (rules R135, R136). -/

/-- A pattern of infinity is determined by its sign. -/
theorem eq_of_infinite {a b : F64} (ha : cat a = .infinite) (hb : cat b = .infinite) (h : signOf a = signOf b) :
    a = b := by
  obtain ⟨hea, hfa⟩ := cat_eq_iff.mp ha
  obtain ⟨heb, hfb⟩ := cat_eq_iff.mp hb
  simp only [Category.exps, Category.fracs, Finset.mem_singleton] at hea hfa heb hfb
  exact pattern_ext h (hea.trans heb.symm) (hfa.trans hfb.symm)

theorem addF_comm (a b : F64) : addF a b = addF b a := by
  by_cases hinf : cat a = .infinite ∧ cat b = .infinite
  · obtain ⟨ha, hb⟩ := hinf
    rcases eq_or_ne (signOf a) (signOf b) with hs | hs
    · rw [eq_of_infinite ha hb hs]
    · simp [addF, ha, hb, hs, hs.symm]
  · simp only [addF, or_comm (a := cat b = .nan), and_comm (a := cat b = .infinite), hinf, if_false,
      add_comm (valUnits b), Bool.and_comm (signOf b)]
    by_cases ha : cat a = .infinite
    · have hb : cat b ≠ .infinite := fun hb => hinf ⟨ha, hb⟩
      simp only [ha, hb, if_true, if_false]
    · simp only [ha, if_false]

/-- Each case of rule R136 is symmetric in the two operands. -/
theorem mulF_comm (a b : F64) : mulF a b = mulF b a := by
  simp only [mulF, Bool.xor_comm (signOf b), Nat.mul_comm (magUnits b), or_comm (a := cat b = .nan),
    or_comm (a := cat b = .infinite), and_comm (a := cat b = .infinite), and_comm (a := cat b = .zero),
    or_comm (a := cat a = .zero ∧ _)]

end Sys2Proof.Machine
end

section
/-! PROOFS. The datapaths of MUL, DIV and SQRT: exact products, and quotients and square roots cut off with a sticky
flag (rules R114, R137, R140, R142); and the square root of a square (rule R144). -/

namespace Sys2Proof.Machine

section Value

variable {K : Type} [Field K] [LinearOrder K] [IsStrictOrderedRing K] [FloorRing K]

/-- Cutting off the fraction of a number of 54 bits or more, with a sticky flag for what is lost, leaves its rounding
(rules R114, R115). -/
theorem roundPack_floor (s : Bool) {y : K} (hy : 2 ^ 53 ≤ y) (k : ℤ) {sticky : Bool}
    (hst : sticky = true ↔ (⌊y⌋₊ : K) ≠ y) : roundPack s ⌊y⌋₊ k sticky = rneOn s (y * 2 ^ k) := by
  have hk : (0 : K) < 2 ^ k := by positivity
  have hN : 2 ^ 53 ≤ ⌊y⌋₊ := Nat.le_floor (by exact_mod_cast hy)
  have hlo := Nat.floor_le ((by positivity : (0 : K) ≤ 2 ^ 53).trans hy)
  have hhi := Nat.lt_floor_add_one y
  rw [roundPack_eq_rneOn (K := K)]
  split_ifs with hflag
  · have hlt := lt_of_le_of_ne hlo (hst.mp hflag)
    refine congrArg (ofField s) (roundOn_congr_of_mem_Ioo Format.regular_binary64 hN (k := k) ⟨?_, ?_⟩ ⟨?_, ?_⟩) <;>
      gcongr <;> norm_num
  · rw [not_ne_iff.mp (mt hst.mpr hflag)]

/-! The datapaths of MUL and DIV (rules R137, R140). -/

theorem mulF_eq_mulDatapath {a b : F64} (ha : isFinite a = true) (hb : isFinite b = true) :
    mulF a b = mulDatapath a b := by
  rw [mulF_of_finite (K := ℚ) ha hb, mulDatapath, roundPack_eq_rneOn (K := ℚ), if_neg Bool.false_ne_true, abs_mul,
    abs_val_eq_norm, abs_val_eq_norm, zpow_add₀ two_ne_zero, Nat.cast_mul, mul_mul_mul_comm]

/-- The product of two 53-bit significands. -/
theorem significand_product_bounds {M N : ℕ} (hM : 2 ^ 52 ≤ M ∧ M < 2 ^ 53) (hN : 2 ^ 52 ≤ N ∧ N < 2 ^ 53) :
    2 ^ 104 ≤ M * N ∧ M * N < 2 ^ 106 := by
  rw [show 2 ^ 104 = 2 ^ 52 * 2 ^ 52 from rfl, show 2 ^ 106 = 2 ^ 53 * 2 ^ 53 from rfl]
  exact ⟨Nat.mul_le_mul hM.1 hN.1, Nat.mul_lt_mul'' hM.2 hN.2⟩

/-- The quotient of two 53-bit significands, the first shifted left by 55 bits. -/
theorem significand_quotient_bounds {M N : ℕ} (hM : 2 ^ 52 ≤ M ∧ M < 2 ^ 53) (hN : 2 ^ 52 ≤ N ∧ N < 2 ^ 53) :
    2 ^ 54 < M * 2 ^ 55 / N ∧ M * 2 ^ 55 / N < 2 ^ 56 := by
  have hpos : 0 < N := by omega
  constructor
  · refine (Nat.le_div_iff_mul_le hpos).mpr ?_
    omega
  · rw [Nat.div_lt_iff_lt_mul hpos]
    omega

omit [IsStrictOrderedRing K] in
/-- A division leaves a remainder when its quotient is not exact. -/
theorem mod_ne_zero_iff_div_ne {n d : ℕ} (hd : 0 < d) : n % d ≠ 0 ↔ ((n / d : ℕ) : K) ≠ n / d := by
  have hd' : (d : K) ≠ 0 := Nat.cast_ne_zero.mpr hd.ne'
  rw [Ne, Ne, eq_div_iff hd', ← Nat.cast_mul, Nat.cast_inj, ← Nat.dvd_iff_mod_eq_zero, Nat.dvd_iff_div_mul_eq]

theorem divF_eq_divDatapath {a b : F64} (ha : isFiniteNonzero a = true) (hb : isFiniteNonzero b = true) :
    divF a b = divDatapath a b := by
  obtain ⟨hna, hia, hza⟩ := isFiniteNonzero_iff.mp ha
  obtain ⟨hnb, hib, hzb⟩ := isFiniteNonzero_iff.mp hb
  have hpos : 0 < (norm b).1 := (by norm_num : 0 < 2 ^ 52).trans_le (norm_fst_bounds hb).1
  have hquot := (significand_quotient_bounds (norm_fst_bounds ha) (norm_fst_bounds hb)).1
  have hlarge : (2 : ℚ) ^ 53 ≤ ((norm a).1 * 2 ^ 55 : ℕ) / (norm b).1 := calc
    (2 : ℚ) ^ 53 = (2 ^ 53 : ℕ) := by norm_num
    _ ≤ (((norm a).1 * 2 ^ 55 / (norm b).1 : ℕ) : ℚ) := Nat.cast_le.mpr (by omega)
    _ ≤ _ := Nat.cast_div_le
  have hexact : |val ℚ a / val ℚ b| =
      ((norm a).1 * 2 ^ 55 : ℕ) / (norm b).1 * 2 ^ ((norm a).2 - (norm b).2 - 55) := by
    rw [abs_div, abs_val_eq_norm, abs_val_eq_norm, zpow_sub₀ two_ne_zero, zpow_sub₀ two_ne_zero]
    push_cast
    field_simp
  have hcut := roundPack_floor (signOf a ^^ signOf b) hlarge ((norm a).2 - (norm b).2 - 55)
    (sticky := decide ((norm a).1 * 2 ^ 55 % (norm b).1 ≠ 0))
    (by rw [decide_eq_true_iff, Nat.floor_div_eq_div]; exact mod_ne_zero_iff_div_ne hpos)
  rw [Nat.floor_div_eq_div, ← hexact] at hcut
  simp only [divF, hna, hia, hza, hnb, hib, hzb, or_self, and_self, if_false, rne_quotient_eq (K := ℚ) _ _ hzb]
  rw [divDatapath, Nat.shiftLeft_eq, hcut]

end Value

/-! SQRT: the integer square root of the significand shifted to an even exponent (rule R142). -/

theorem sqrt_mul_two_zpow (X : ℕ) (k : ℤ) : Real.sqrt (X * 2 ^ (2 * k)) = Real.sqrt X * 2 ^ k := by
  rw [Real.sqrt_mul (Nat.cast_nonneg X), two_mul, zpow_add₀ two_ne_zero, Real.sqrt_mul_self (by positivity)]

/-- The integer square root with a sticky flag for a remainder gives the real square root correctly rounded. -/
theorem roundPack_isqrt {X : ℕ} (hX : 2 ^ 106 ≤ X) (k : ℤ) :
    roundPack false (isqrt X) k (decide (isqrt X * isqrt X ≠ X)) = rneOn false (Real.sqrt (X * 2 ^ (2 * k))) := by
  have hlarge : (2 : ℝ) ^ 53 ≤ Real.sqrt X := by
    refine Real.le_sqrt_of_sq_le ?_
    rw [← pow_mul]
    exact_mod_cast hX
  have hexact : isqrt X * isqrt X = X ↔ (isqrt X : ℝ) = Real.sqrt X := by
    rw [eq_comm, eq_comm (a := (isqrt X : ℝ)), Real.sqrt_eq_iff_mul_self_eq (Nat.cast_nonneg X) (Nat.cast_nonneg _)]
    norm_cast
  rw [sqrt_mul_two_zpow, ← roundPack_floor false hlarge k (sticky := decide (isqrt X * isqrt X ≠ X)),
    Real.nat_floor_real_sqrt_eq_nat_sqrt, isqrt_eq_sqrt]
  rw [decide_eq_true_iff, Real.nat_floor_real_sqrt_eq_nat_sqrt, ← isqrt_eq_sqrt]
  exact not_congr hexact

/-- SQRT of a positive finite pattern (rule R142, case 5). -/
theorem sqrtF_of_pos {a : F64} (ha : isFiniteNonzero a = true) (hs : signOf a = false) :
    sqrtF a = rneOn false (Real.sqrt (val ℝ a)) := by
  obtain ⟨hna, hia, hza⟩ := isFiniteNonzero_iff.mp ha
  have hM := (norm_fst_bounds ha).1
  have hval : val ℝ a = (norm a).1 * 2 ^ (norm a).2 := by rw [← abs_val_of_signOf_false hs, abs_val_eq_norm]
  have shifted {j : ℕ} (hj : 54 ≤ j) (heven : ((norm a).2 - j) % 2 = 0) :
      2 ^ 106 ≤ (norm a).1 <<< j ∧
        val ℝ a = ((norm a).1 <<< j : ℕ) * 2 ^ (2 * (((norm a).2 - j) / 2)) := by
    rw [Nat.shiftLeft_eq, Int.mul_ediv_cancel' (Int.dvd_of_emod_eq_zero heven), hval, zpow_sub₀ two_ne_zero]
    constructor
    · calc 2 ^ 106 = 2 ^ 52 * 2 ^ 54 := rfl
        _ ≤ (norm a).1 * 2 ^ j := Nat.mul_le_mul hM (Nat.pow_le_pow_right two_pos hj)
    · push_cast
      rw [zpow_natCast]
      field_simp
  simp only [sqrtF, hna, hia, hza, hs, if_false, Bool.false_eq_true]
  split_ifs with heven
  · obtain ⟨hX, hval'⟩ := shifted (j := 58) (by norm_num) heven
    rw [hval']
    exact roundPack_isqrt hX _
  · obtain ⟨hX, hval'⟩ := shifted (j := 59) (by norm_num) (by push_cast; omega)
    rw [hval']
    exact roundPack_isqrt hX _

/-! Magnitudes next to each other, and the range of the normal numbers. -/

/-- Of two magnitudes the lesser is less by at least one unit in the 53 bits of the greater. -/
theorem fieldVal_le_mul_fieldVal {m k : ℕ} (h : m < k) :
    binary64.fieldVal ℝ m ≤ (1 - 1 / 2 ^ 53) * binary64.fieldVal ℝ k := by
  obtain ⟨j, n, rfl, hn, hj⟩ := exists_binade 52 m
  have hn' : (n : ℝ) + 1 ≤ 2 ^ 53 := by exact_mod_cast Nat.succ_le_of_lt hn
  calc binary64.fieldVal ℝ (j * 2 ^ 52 + n)
      = n * 2 ^ ((j : ℤ) - 1074) := fieldVal_binary64 hn.le hj
    _ ≤ ((1 - 1 / 2 ^ 53) * (n + 1)) * 2 ^ ((j : ℤ) - 1074) := by gcongr; linarith
    _ = (1 - 1 / 2 ^ 53) * binary64.fieldVal ℝ (j * 2 ^ 52 + (n + 1)) := by
      rw [fieldVal_binary64 hn (hj.imp_right fun h => h.trans (Nat.le_succ n)), Nat.cast_succ, mul_assoc]
    _ ≤ (1 - 1 / 2 ^ 53) * binary64.fieldVal ℝ k :=
      mul_le_mul_of_nonneg_left (binary64.fieldVal_strictMono.monotone h) (by norm_num)

/-- The fields of a power of two of the normal range. -/
theorem fieldVal_two_zpow {e : ℕ} (he : 1 ≤ e) : binary64.fieldVal ℝ (e * 2 ^ 52) = 2 ^ ((e : ℤ) - 1023) := by
  obtain ⟨j, rfl⟩ := Nat.exists_eq_add_of_le' he
  rw [add_mul, one_mul, fieldVal_binary64 (by norm_num) (.inr le_rfl), two_pow_cast, ← zpow_natCast,
    ← zpow_add₀ two_ne_zero]
  congr 1
  push_cast
  ring

theorem fieldVal_two_pow_512 : binary64.fieldVal ℝ (1535 * 2 ^ 52) = 2 ^ 512 := by
  rw [fieldVal_two_zpow (by norm_num), show ((1535 : ℕ) - 1023 : ℤ) = (512 : ℕ) by norm_num, zpow_natCast]

theorem cat_eq_normal_of_fieldOf {b : F64} (hlo : 2 ^ 52 ≤ fieldOf b) (hhi : fieldOf b < binary64.infField) :
    cat b = .normal := by
  have hf := fracOf_lt b
  rw [fieldOf] at hlo
  rw [infField_binary64, fieldOf] at hhi
  rw [cat, if_neg (by omega), if_neg (by omega)]

theorem cat_rneOn_eq_normal (s : Bool) {q : ℝ} (hlo : 2 ^ (-1022 : ℤ) ≤ q) (hhi : q < 2 ^ 1024 - 2 ^ 970) :
    cat (rneOn s q) = .normal := by
  have hq : 0 ≤ q := le_trans (by positivity) hlo
  refine cat_eq_normal_of_fieldOf ?_ ?_
  · have hleast := roundOn_fieldVal (K := ℝ) Format.regular_binary64 (m := 1 * 2 ^ 52)
      (by rw [infField_binary64]; norm_num)
    have hmono := roundOn_mono Format.regular_binary64 (Format.fieldVal_nonneg ..)
      ((fieldVal_two_zpow le_rfl).trans_le hlo)
    rw [fieldOf_rneOn s hq]
    omega
  · rwa [fieldOf_rneOn s hq, roundOn_binary64_lt_infField_iff hq]

theorem fieldOf_pos {b : F64} (h : cat b ≠ .zero) : 0 < fieldOf b := by
  refine Nat.pos_of_ne_zero fun h0 => h ?_
  rw [fieldOf] at h0
  rw [cat, if_pos (by omega), if_pos (by omega)]

/-- The magnitudes of the non-zero finite patterns. -/
theorem abs_val_bounds {b : F64} (hb : isFiniteNonzero b = true) :
    2 ^ (-1074 : ℤ) ≤ |val ℝ b| ∧ |val ℝ b| < 2 ^ 1024 := by
  have hmono := binary64.fieldVal_strictMono (K := ℝ)
  obtain ⟨-, -, hzero⟩ := isFiniteNonzero_iff.mp hb
  have hleast : binary64.fieldVal ℝ 1 = 2 ^ (-1074 : ℤ) := by
    have h := fieldVal_binary64 (K := ℝ) (j := 0) (n := 1) (by norm_num) (.inl rfl)
    norm_num at h ⊢
    exact h
  have hinf : binary64.fieldVal ℝ binary64.infField = 2 ^ 1024 := by
    rw [infField_binary64, fieldVal_two_zpow (by norm_num), ← zpow_natCast]
    norm_num
  rw [abs_val_eq_fieldVal, ← hleast, ← hinf]
  exact ⟨hmono.monotone (fieldOf_pos hzero), hmono (isFinite_iff_fieldOf.mp (isFinite_of_isFiniteNonzero hb))⟩

/-- Square roots of finite magnitudes lie well inside the normal range (rule R142). -/
theorem cat_rneOn_sqrt {v : ℝ} (hlo : 2 ^ (-1074 : ℤ) ≤ v) (hhi : v < 2 ^ 1024) :
    cat (rneOn false (Real.sqrt v)) = .normal := by
  refine cat_rneOn_eq_normal false (Real.le_sqrt_of_sq_le (le_trans ?_ hlo)) ?_
  · rw [← zpow_natCast, ← zpow_mul]
    exact zpow_le_zpow_right₀ one_le_two (by norm_num)
  · calc Real.sqrt v < 2 ^ 512 := by rwa [Real.sqrt_lt' (by positivity), ← pow_mul]
      _ ≤ 2 ^ 970 := pow_le_pow_right₀ one_le_two (by norm_num)
      _ ≤ (2 ^ 54 - 1) * 2 ^ 970 := le_mul_of_one_le_left (by positivity) (by norm_num)
      _ = 2 ^ 1024 - 2 ^ 970 := by rw [sub_mul, one_mul, ← pow_add]

/-! The square root of a square (rule R144). -/

theorem key_of_signOf_false {b : F64} (h : signOf b = false) : key b = fieldOf b := by
  rw [key, h, fieldOf_eq_toNat]
  rfl

theorem mulF_self {a : F64} (ha : isFinite a = true) : mulF a a = rneOn false (|val ℝ a| ^ 2) := by
  rw [mulF_of_finite (K := ℝ) ha ha, Bool.xor_self, abs_mul, sq]

/-- The relative error of a rounding in the normal range (rule R116(e)). -/
theorem abs_val_rneOn_sub_le {q : ℝ} (hlo : 2 ^ (-1022 : ℤ) ≤ q) (hhi : q < 2 ^ 1024 - 2 ^ 970) (s : Bool) :
    |(|val ℝ (rneOn s q)|) - q| ≤ q * (1 / 2 ^ 53) := by
  have hq : 0 < q := lt_of_lt_of_le (by positivity) hlo
  rw [abs_val_rneOn s hq.le]
  calc _ ≤ 2 ^ (Int.log 2 q - 53) :=
        abs_fieldVal_roundOn_sub_le Format.regular_binary64 hlo ((roundOn_binary64_lt_infField_iff hq.le).mpr hhi)
    _ = 2 ^ Int.log 2 q * (1 / 2 ^ 53) := by rw [zpow_sub₀ two_ne_zero, div_eq_mul_one_div]; rfl
    _ ≤ q * (1 / 2 ^ 53) := by gcongr; exact Int.zpow_log_le_self one_lt_two hq

/-- A magnitude below `2^512` has a square below the overflow threshold. -/
theorem sq_fieldVal_lt_threshold {m : ℕ} (h : m < 1535 * 2 ^ 52) :
    binary64.fieldVal ℝ m ^ 2 < 2 ^ 1024 - 2 ^ 970 := by
  have hle := fieldVal_le_mul_fieldVal h
  rw [fieldVal_two_pow_512] at hle
  calc binary64.fieldVal ℝ m ^ 2 ≤ ((1 - 1 / 2 ^ 53) * 2 ^ 512) ^ 2 :=
        pow_le_pow_left₀ (Format.fieldVal_nonneg ..) hle 2
    _ = (1 - 1 / 2 ^ 53) ^ 2 * 2 ^ 54 * 2 ^ 970 := by
      rw [mul_pow, ← pow_mul, mul_assoc, ← pow_add]
    _ < (2 ^ 54 - 1) * 2 ^ 970 := by gcongr; norm_num
    _ = 2 ^ 1024 - 2 ^ 970 := by rw [sub_mul, one_mul, ← pow_add]

/-- The root of a number within the relative error of one rounding from a square rounds to the fields squared, or to
neighbours of them. -/
theorem roundOn_sqrt_near {m : ℕ} (hm : m + 1 < binary64.infField) {y : ℝ}
    (hy : |y - binary64.fieldVal ℝ m ^ 2| ≤ binary64.fieldVal ℝ m ^ 2 * (1 / 2 ^ 53)) :
    m ≤ roundOn binary64 (Real.sqrt y) + 1 ∧ roundOn binary64 (Real.sqrt y) ≤ m + 1 := by
  have hfmt := Format.regular_binary64
  have hnonneg := binary64.fieldVal_nonneg (K := ℝ)
  obtain ⟨hlo, hhi⟩ := abs_le.mp hy
  constructor
  · rcases m with _ | k
    · exact Nat.zero_le _
    have hgap := fieldVal_le_mul_fieldVal (Nat.lt_succ_self k)
    have hle : binary64.fieldVal ℝ k ≤ Real.sqrt y := by
      refine Real.le_sqrt_of_sq_le ?_
      have hsq := pow_le_pow_left₀ (hnonneg k) hgap 2
      linarith [sq_nonneg (binary64.fieldVal ℝ (k + 1))]
    calc k + 1 = roundOn binary64 (binary64.fieldVal ℝ k) + 1 := by rw [roundOn_fieldVal hfmt (by omega)]
      _ ≤ _ := Nat.succ_le_succ (roundOn_mono hfmt (hnonneg k) hle)
  · have hgap := fieldVal_le_mul_fieldVal (Nat.lt_succ_self m)
    have hle : Real.sqrt y ≤ binary64.fieldVal ℝ (m + 1) := by
      refine Real.sqrt_le_iff.mpr ⟨hnonneg _, ?_⟩
      have hsq := pow_le_pow_left₀ (hnonneg m) hgap 2
      linarith [sq_nonneg (binary64.fieldVal ℝ (m + 1))]
    calc _ ≤ roundOn binary64 (binary64.fieldVal ℝ (m + 1)) := roundOn_mono hfmt (Real.sqrt_nonneg y) hle
      _ = m + 1 := roundOn_fieldVal hfmt hm

theorem sqrtF_mulF_near {a : F64} (ha : isFinite a = true) (hlo : 2 ^ (-511 : ℤ) ≤ |val ℝ a|)
    (hhi : |val ℝ a| < 2 ^ 512) : |key (sqrtF (mulF a a)) - key (absF a)| ≤ 1 := by
  have hfield : fieldOf a < 1535 * 2 ^ 52 := by
    refine (binary64.fieldVal_strictMono (K := ℝ)).lt_iff_lt.mp ?_
    rwa [← abs_val_eq_fieldVal, fieldVal_two_pow_512]
  have hsq_lo : 2 ^ (-1022 : ℤ) ≤ |val ℝ a| ^ 2 := calc
    (2 : ℝ) ^ (-1022 : ℤ) = (2 ^ (-511 : ℤ)) ^ 2 := by rw [← zpow_natCast, ← zpow_mul]; norm_num
    _ ≤ _ := pow_le_pow_left₀ (by positivity) hlo 2
  have hsq_hi : |val ℝ a| ^ 2 < 2 ^ 1024 - 2 ^ 970 := by
    rw [abs_val_eq_fieldVal]
    exact sq_fieldVal_lt_threshold hfield
  have hm := mulF_self ha
  have hsign : signOf (mulF a a) = false := hm ▸ signOf_rneOn ..
  have hnormal : isFiniteNonzero (mulF a a) = true := by
    rw [isFiniteNonzero, hm, cat_rneOn_eq_normal false hsq_lo hsq_hi]
    rfl
  have herror := abs_val_rneOn_sub_le hsq_lo hsq_hi false
  rw [← hm, abs_val_of_signOf_false hsign, abs_val_eq_fieldVal a] at herror
  obtain ⟨h1, h2⟩ := roundOn_sqrt_near (by rw [infField_binary64]; omega) herror
  rw [sqrtF_of_pos hnormal hsign, key_of_signOf_false (signOf_rneOn ..), key_of_signOf_false (signOf_absF a),
    fieldOf_absF, fieldOf_rneOn _ (Real.sqrt_nonneg _), abs_le]
  constructor <;> omega

theorem mulF_self_of_subnormal {a : F64} (ha : cat a = .subnormal) : mulF a a = zeroF false := by
  have hfield : fieldOf a < 1 * 2 ^ 52 := by
    have hf := fracOf_lt a
    rw [fieldOf, expOf_eq_zero_iff.mpr (.inr ha)]
    omega
  have hsmall : |val ℝ a| < 2 ^ (-1022 : ℤ) := by
    rw [abs_val_eq_fieldVal]
    exact (binary64.fieldVal_strictMono hfield).trans_eq (fieldVal_two_zpow le_rfl)
  rw [mulF_self (isFinite_iff.mpr (.inr (.inl ha)))]
  obtain ⟨-, hzero, -⟩ := Proofs.roundingThresholds false (|val ℝ a| ^ 2) (sq_nonneg _)
  refine hzero.mpr ?_
  calc |val ℝ a| ^ 2 ≤ (2 ^ (-1022 : ℤ)) ^ 2 := pow_le_pow_left₀ (abs_nonneg _) hsmall.le 2
    _ = 2 ^ (-2044 : ℤ) := by rw [← zpow_natCast, ← zpow_mul]; norm_num
    _ ≤ 2 ^ (-1075 : ℤ) := zpow_le_zpow_right₀ one_le_two (by norm_num)

theorem mulF_self_of_large {a : F64} (ha : isFinite a = true) (h : 2 ^ 512 ≤ |val ℝ a|) : mulF a a = infF false := by
  rw [mulF_self ha]
  obtain ⟨-, -, -, -, hinf, -⟩ := Proofs.roundingThresholds false (|val ℝ a| ^ 2) (sq_nonneg _)
  refine hinf.mpr ?_
  calc (2 : ℝ) ^ 1024 - 2 ^ 970 ≤ 2 ^ 1024 := sub_le_self _ (by positivity)
    _ = (2 ^ 512) ^ 2 := by rw [← pow_mul]
    _ ≤ _ := pow_le_pow_left₀ (by positivity) h 2

end Sys2Proof.Machine
end

section
/-! PROOFS. The adder's datapath with guard, round and sticky bits (rule R133): the operand of smaller magnitude aligned
with a sticky bit, and why the sum of the aligned operands rounds like the exact sum. -/

namespace Sys2Proof.Machine

/-! The alignment shift. -/

theorem or_one_eq (y : ℕ) : y ||| 1 = 2 * (y / 2) + 1 := by
  have hdiv : (y ||| 1) / 2 = y / 2 := by simp [Nat.or_div_two]
  have hmod : (y ||| 1) % 2 = 1 := by simp
  omega

theorem shiftSticky_of_dvd {n d : ℕ} (h : 2 ^ d ∣ n) : shiftSticky n d = n / 2 ^ d := by
  rw [shiftSticky, Nat.shiftRight_eq_div_pow, Nat.shiftLeft_eq, Nat.div_mul_cancel h, if_pos rfl]

theorem shiftSticky_of_not_dvd {n d : ℕ} (h : ¬2 ^ d ∣ n) : shiftSticky n d = 2 * (n / 2 ^ d / 2) + 1 := by
  rw [Nat.dvd_iff_div_mul_eq] at h
  rw [shiftSticky, Nat.shiftRight_eq_div_pow, Nat.shiftLeft_eq, if_neg h, or_one_eq]

section Value

variable {K : Type} [Field K] [LinearOrder K] [IsStrictOrderedRing K] [FloorRing K]

omit [FloorRing K] in
/-- With bits lost, the shifted number is odd and less than one from the exact quotient. -/
theorem abs_sub_shiftSticky_lt {n d : ℕ} (h : ¬2 ^ d ∣ n) : |(n : K) / 2 ^ d - shiftSticky n d| < 1 := by
  have hpos : 0 < 2 ^ d := by positivity
  have hdiv := Nat.div_add_mod n (2 ^ d)
  have hmod := Nat.mod_lt n hpos
  have hmod0 : n % 2 ^ d ≠ 0 := mt Nat.dvd_of_mod_eq_zero h
  have hlo : 2 * (n / 2 ^ d / 2) * 2 ^ d < n := by
    have : 2 * (n / 2 ^ d / 2) * 2 ^ d ≤ n / 2 ^ d * 2 ^ d := Nat.mul_le_mul_right _ (Nat.mul_div_le _ 2)
    rw [mul_comm (n / 2 ^ d)] at this
    omega
  have hhi : n < (2 * (n / 2 ^ d / 2) + 2) * 2 ^ d := by
    have : (n / 2 ^ d + 1) * 2 ^ d ≤ (2 * (n / 2 ^ d / 2) + 2) * 2 ^ d := Nat.mul_le_mul_right _ (by omega)
    rw [add_mul, one_mul, mul_comm (n / 2 ^ d)] at this
    omega
  have hposK : (0 : K) < 2 ^ d := by positivity
  have hloK : ((2 * (n / 2 ^ d / 2) * 2 ^ d : ℕ) : K) < n := Nat.cast_lt.mpr hlo
  have hhiK : (n : K) < ((2 * (n / 2 ^ d / 2) + 2) * 2 ^ d : ℕ) := Nat.cast_lt.mpr hhi
  rw [shiftSticky_of_not_dvd h, abs_sub_lt_iff, sub_lt_iff_lt_add, div_lt_iff₀ hposK, sub_lt_comm, lt_div_iff₀ hposK]
  push_cast at hloK hhiK ⊢
  constructor <;> linarith

/-! The sum of the aligned operands. -/

/-- What the datapath rounds in place of the exact `q`: `q` itself, or an odd number of 55 bits or more, less than one
away. -/
def StandsFor (T : ℕ) (q : K) : Prop := (T : K) = q ∨ (T % 2 = 1 ∧ 2 ^ 54 < T ∧ |q - T| < 1)

theorem StandsFor.nonneg {T : ℕ} {q : K} (h : StandsFor T q) : 0 ≤ q := by
  rcases h with rfl | ⟨-, hT, hclose⟩
  · exact Nat.cast_nonneg T
  · have hT' : (1 : K) ≤ T := by exact_mod_cast (by omega : 1 ≤ T)
    linarith [(abs_lt.mp hclose).1]

theorem StandsFor.eq_zero_iff {T : ℕ} {q : K} (h : StandsFor T q) : q = 0 ↔ T = 0 := by
  rcases h with rfl | ⟨-, hT, hclose⟩
  · exact Nat.cast_eq_zero
  · have hT' : (1 : K) ≤ T := by exact_mod_cast (by omega : 1 ≤ T)
    refine iff_of_false (fun hq => ?_) (by omega)
    linarith [(abs_lt.mp hclose).1]

/-- No midpoint lies within one of an odd number of 55 bits or more, but for the number itself: it rounds like all
numbers there (rule R115). -/
theorem StandsFor.roundPack_eq {T : ℕ} {q : K} (h : StandsFor T q) (s : Bool) (k : ℤ) :
    roundPack s T k false = rneOn s (q * 2 ^ k) := by
  rw [roundPack_eq_rneOn (K := K), if_neg Bool.false_ne_true]
  rcases h with rfl | ⟨hodd, hT, hclose⟩
  · rfl
  · have hN : 2 ^ 53 ≤ T / 2 := by omega
    have hTN : (T : K) = 2 * (T / 2 : ℕ) + 1 := by exact_mod_cast (by omega : T = 2 * (T / 2) + 1)
    obtain ⟨hlo, hhi⟩ := abs_lt.mp hclose
    have mem_Ioo {x : K} (hx : -1 < x - T) (hx' : x - T < 1) :
        x * 2 ^ k ∈ Set.Ioo (((T / 2 : ℕ) : K) * 2 ^ (k + 1)) (((T / 2 : ℕ) + 1) * 2 ^ (k + 1)) := by
      rw [zpow_add_one₀ two_ne_zero, mul_comm (2 ^ k), ← mul_assoc, ← mul_assoc]
      constructor <;> gcongr <;> linarith
    exact congrArg (ofField s)
      (roundOn_congr_of_mem_Ioo Format.regular_binary64 hN (mem_Ioo (by simp) (by simp)) (mem_Ioo hlo hhi))

/-- The end of the datapath, an exact zero apart. -/
theorem StandsFor.rounded_eq {T : ℕ} {q x : K} (h : StandsFor T q) (s zs : Bool) (k : ℤ)
    (hx : x = signFactor K s * (q * 2 ^ k)) :
    (if T = 0 then zeroF zs else roundPack s T k false) = if x = 0 then zeroF zs else rneSigned x := by
  have hunit : (0 : K) < 2 ^ k := by positivity
  have hzero : x = 0 ↔ T = 0 := by
    rw [hx, mul_eq_zero, or_iff_right (signFactor_ne_zero s), mul_eq_zero, or_iff_left hunit.ne', h.eq_zero_iff]
  simp only [hzero]
  split_ifs with hT
  · rfl
  · have hq : 0 < q := lt_of_le_of_ne h.nonneg fun hq => hT (h.eq_zero_iff.mp hq.symm)
    rw [hx, rneSigned_signFactor_mul s (mul_pos hq hunit), h.roundPack_eq]

/-- The sum and the difference of an even number `X` and an aligned `n`, where `X` is the larger and has at least two
bits more than what is aligned with bits lost. -/
theorem standsFor_add_sub {X n d : ℕ} (hexact : 2 ^ d ∣ n → n / 2 ^ d ≤ X)
    (hlost : ¬2 ^ d ∣ n → X % 2 = 0 ∧ 2 ^ 55 ≤ X ∧ n / 2 ^ d < 2 ^ 52) :
    StandsFor (X + shiftSticky n d) ((X : K) + n / 2 ^ d) ∧ StandsFor (X - shiftSticky n d) ((X : K) - n / 2 ^ d) := by
  by_cases hdvd : 2 ^ d ∣ n
  · have hz : ((n / 2 ^ d : ℕ) : K) = n / 2 ^ d := by
      rw [Nat.cast_div hdvd (by positivity), two_pow_cast]
    rw [shiftSticky_of_dvd hdvd, ← hz]
    exact ⟨.inl (Nat.cast_add ..), .inl (Nat.cast_sub (hexact hdvd))⟩
  · obtain ⟨heven, hX, hn⟩ := hlost hdvd
    have hclose := abs_sub_shiftSticky_lt (K := K) hdvd
    have hodd := shiftSticky_of_not_dvd hdvd
    have hle : shiftSticky n d ≤ 2 ^ 52 := by omega
    refine ⟨.inr ⟨by omega, by omega, ?_⟩, .inr ⟨by omega, by omega, ?_⟩⟩
    · rwa [Nat.cast_add, add_sub_add_left_eq_sub]
    · rwa [Nat.cast_sub (by omega), sub_sub_sub_cancel_left, abs_sub_comm]

end Value

/-! Unpacked operands, the one of larger magnitude first. -/

/-- The exact value of an unpacked finite pattern (rules R93, R94). -/
def Unpacked.value (K : Type) [Field K] (u : Unpacked) : K := signFactor K u.s * (u.m * 2 ^ (u.e - 52))

theorem value_unpack (K : Type) [Field K] {b : F64} (h : isFinite b = true) : (unpack b).value K = val K b := by
  rw [val_eq_unpack K h, Unpacked.value, unpack_s, mul_assoc]
  cases signOf b <;> simp [signFactor]

/-- The operand order of the datapath: the larger exponent first, or at equal exponents the larger significand; the
operand of a larger exponent is normal. -/
structure Unpacked.Dominates (big small : Unpacked) : Prop where
  e_le : small.e ≤ big.e
  m_le : small.e = big.e → small.m ≤ big.m
  normal : small.e < big.e → 2 ^ 52 ≤ big.m
  m_lt : small.m < 2 ^ 53

theorem two_pow_le_unpack_m {b : F64} (hb : isFinite b = true) (he : -1022 < (unpack b).e) : 2 ^ 52 ≤ (unpack b).m := by
  have hn : cat b = .normal := by
    rw [isFinite_iff, ← or_assoc, ← expOf_eq_zero_iff] at hb
    refine hb.resolve_left fun h0 => ?_
    rw [(unpack_of_expOf_eq_zero h0).1] at he
    omega
  rw [(unpack_of_normal hn).2]
  exact Nat.le_add_right ..

theorem unpack_dominates {a b : F64} (ha : isFinite a = true)
    (h : (unpack b).e < (unpack a).e ∨ ((unpack b).e = (unpack a).e ∧ (unpack b).m ≤ (unpack a).m)) :
    (unpack a).Dominates (unpack b) where
  e_le := by omega
  m_le := by omega
  normal he := two_pow_le_unpack_m ha ((unpack_e_bounds b).1.trans_lt he)
  m_lt := unpack_m_lt b

section Value

variable {K : Type} [Field K] [LinearOrder K] [IsStrictOrderedRing K] [FloorRing K] {big small : Unpacked}

/-- The smaller operand, aligned to the exponent of the larger one with three extra bits. -/
def alignedValue (K : Type) [Field K] (big small : Unpacked) : K :=
  ((small.m <<< 3 : ℕ) : K) / 2 ^ (big.e - small.e).toNat

omit [IsStrictOrderedRing K] in
/-- Three extra bits below the last place of a significand. -/
theorem shiftLeft_three_mul (m : ℕ) (e : ℤ) : ((m <<< 3 : ℕ) : K) * 2 ^ (e - 55) = m * 2 ^ (e - 52) := by
  rw [Nat.shiftLeft_eq, show e - 52 = 3 + (e - 55) by ring, zpow_add₀ two_ne_zero, Nat.cast_mul, mul_assoc]
  norm_num

theorem alignedValue_mul (h : big.Dominates small) :
    alignedValue K big small * 2 ^ (big.e - 55) = small.m * 2 ^ (small.e - 52) := by
  obtain ⟨d, hd⟩ := Int.le.dest h.e_le
  rw [← shiftLeft_three_mul, alignedValue, ← hd, add_sub_cancel_left, Int.toNat_natCast, add_sub_right_comm,
    zpow_add₀ two_ne_zero, zpow_natCast]
  field_simp

/-- The sum and the difference of the two significands, as the datapath computes them. -/
theorem standsFor_aligned (h : big.Dominates small) :
    StandsFor (big.m <<< 3 + shiftSticky (small.m <<< 3) (big.e - small.e).toNat)
        (((big.m <<< 3 : ℕ) : K) + alignedValue K big small) ∧
      StandsFor (big.m <<< 3 - shiftSticky (small.m <<< 3) (big.e - small.e).toNat)
        (((big.m <<< 3 : ℕ) : K) - alignedValue K big small) := by
  obtain ⟨hle, hm, hnormal, hlt⟩ := h
  rw [alignedValue, Nat.shiftLeft_eq, Nat.shiftLeft_eq]
  refine standsFor_add_sub (fun _ => ?_) (fun hlost => ?_)
  · rcases hle.eq_or_lt with he | he
    · rw [he, sub_self, Int.toNat_zero, pow_zero, Nat.div_one]
      exact Nat.mul_le_mul_right _ (hm he)
    · have hd : 2 ^ 1 ≤ 2 ^ (big.e - small.e).toNat := Nat.pow_le_pow_right two_pos (by omega)
      have hdiv := Nat.div_le_div_left (a := small.m * 2 ^ 3) hd two_pos
      have := hnormal he
      omega
  · have h4 : 4 ≤ (big.e - small.e).toNat := by
      by_contra hd
      exact hlost (Dvd.dvd.mul_left (pow_dvd_pow 2 (by omega)) _)
    have hd : 2 ^ 4 ≤ 2 ^ (big.e - small.e).toNat := Nat.pow_le_pow_right two_pos h4
    have hdiv := Nat.div_le_div_left (a := small.m * 2 ^ 3) hd (by norm_num)
    have := hnormal (by omega)
    exact ⟨by omega, by omega, by omega⟩

/-- The datapath on ordered operands gives the exact sum rounded once. -/
theorem addOrdered_eq (h : big.Dominates small) (zs : Bool) : addOrdered big small zs =
    if big.value K + small.value K = 0 then zeroF zs else rneSigned (big.value K + small.value K) := by
  obtain ⟨hadd, hsub⟩ := standsFor_aligned (K := K) h
  rw [addOrdered]
  by_cases hs : big.s = small.s
  · rw [if_pos hs]
    refine hadd.rounded_eq _ _ _ ?_
    rw [Unpacked.value, Unpacked.value, ← hs, ← mul_add, ← shiftLeft_three_mul, ← alignedValue_mul h, add_mul]
  · rw [if_neg hs]
    refine hsub.rounded_eq _ _ _ ?_
    rw [Unpacked.value, Unpacked.value, Bool.eq_not_of_ne (Ne.symm hs), signFactor_not, neg_mul, ← sub_eq_add_neg,
      ← mul_sub, ← shiftLeft_three_mul, ← alignedValue_mul h, sub_mul]

theorem addF_eq_addDatapath {a b : F64} (ha : isFinite a = true) (hb : isFinite b = true) :
    addF a b = addDatapath a b := by
  rw [addF_of_finite (K := ℚ) ha hb, ← value_unpack ℚ ha, ← value_unpack ℚ hb, addDatapath]
  by_cases h : (unpack b).e < (unpack a).e ∨ ((unpack b).e = (unpack a).e ∧ (unpack b).m ≤ (unpack a).m)
  · rw [if_pos h, addOrdered_eq (K := ℚ) (unpack_dominates ha h)]
  · rw [if_neg h, addOrdered_eq (K := ℚ) (unpack_dominates hb (by omega)), add_comm ((unpack b).value ℚ)]

end Value

end Sys2Proof.Machine
end

section
/-! PROOFS. The statements about the arithmetic core: each response is the operation's result, and the lemmas above say
which exact value that result rounds. -/

namespace Sys2Proof.Proofs

open Machine

/-- The response of a result `r` (rule R27) depends on `r` alone. -/
theorem next_congr (s : State) {r r' : F64} (h : r = r') :
    (.next (s.respond (Resp.ofR r)) : Host.Outcome State Fault Refusal) = .next (s.respond (Resp.ofR r')) := h ▸ rfl

/-- Settles O28: the cases of the definition, the last one with its units read as an exact sum. -/
theorem addResult : Obligations.AddResult := by
  intro s
  obtain ⟨hzero, hround⟩ := rne_of_units unitsPerOne_pos_nat (sum_eq_units (K := ℚ) s.req.a s.req.b)
  refine next_congr s ?_
  simp only [addF, hzero, hround, canonNaN]

/-- Settles O29: SUB is ADD of `a` and the negated `b`, whose value is the negated one. -/
theorem subResult : Obligations.SubResult := by
  refine ⟨fun s s' ha hb => ⟨subF s.req.a s.req.b, rfl, next_congr s' ?_⟩, fun s ha hb =>
    next_congr s (subF_of_finite ha hb)⟩
  rw [ha, hb]
  rfl

/-- Settles O30: the cases of the definition, the last one with its units read as an exact product. -/
theorem mulResult : Obligations.MulResult := by
  refine fun s => next_congr s ?_
  simp only [mulF, rne_product_eq (K := ℚ), canonNaN]

/-- Settles O31: the cases of the definition, the last one with a divisor that is not zero. -/
theorem divResult : Obligations.DivResult := by
  refine fun s => next_congr s ?_
  rw [divF]
  split_ifs with h1 h2 h3 h4 h5 h6
  case neg => exact rne_quotient_eq _ _ h6
  all_goals rfl

/-- Settles O32: the cases of the definition, the last one with the integer square root as a cut off real one. -/
theorem sqrtResult : Obligations.SqrtResult := by
  refine fun s => ⟨next_congr s ?_, fun a ha hs => ?_⟩
  · split_ifs with hnan hzero hs hinf
    · exact if_pos hnan
    · exact (if_neg hnan).trans (if_pos hzero)
    · exact (if_neg hnan).trans ((if_neg hzero).trans (if_pos hs))
    · exact (if_neg hnan).trans ((if_neg hzero).trans ((if_neg hs).trans (if_pos hinf)))
    · exact sqrtF_of_pos (isFiniteNonzero_iff.mpr ⟨hnan, hinf, hzero⟩) (Bool.eq_false_iff.mpr hs)
  · obtain ⟨hlo, hhi⟩ := abs_val_bounds ha
    rw [abs_val_of_signOf_false hs] at hlo hhi
    exact cat_rneOn_sqrt hlo hhi

/-- Settles O33: the cases of the definition, the last one with its units read as the exact `a * b + c`. -/
theorem fmaResult : Obligations.FmaResult := by
  intro s
  obtain ⟨hzero, hround⟩ := rne_of_units (Nat.mul_pos unitsPerOne_pos_nat unitsPerOne_pos_nat)
    (fused_eq_units (K := ℚ) s.req.a s.req.b s.req.c)
  refine next_congr s ?_
  simp only [fmaF, ne_eq, hzero, hround, canonNaN]

/-- Settles O34: exchanged operands case by case; the two sums are exact zeros, with the sign of rule R131. -/
theorem sumsAndCommutation : Obligations.SumsAndCommutation := by
  have exact_zero (s : State) (ha : isFinite s.req.a = true) (hb : isFinite s.req.b = true)
      (h : val ℚ s.req.a + val ℚ s.req.b = 0) :
      exec .add s = .next (s.respond (Resp.ofR (zeroF (signOf s.req.a && signOf s.req.b)))) :=
    next_congr s ((addF_of_finite ha hb).trans (if_pos h))
  refine ⟨fun s s' ha hb => ?_, fun s ha hb => ?_, fun s ha hb => ?_⟩
  · refine ⟨⟨_, rfl, next_congr s' ?_⟩, ⟨_, rfl, next_congr s' ?_⟩⟩
    · rw [ha, hb, addF_comm]
    · rw [ha, hb, mulF_comm]
  · have h := exact_zero s ha (by rwa [hb, isFinite_negF]) (by rw [hb, val_negF, add_neg_cancel])
    rwa [hb, signOf_negF, Bool.and_not_self] at h
  · have h := exact_zero s (ha ▸ rfl) (hb ▸ rfl) (by rw [ha, hb, val_of_zero rfl, add_zero])
    rwa [ha, hb] at h

/-- Settles O35: the aligned sum is the exact one, or an odd number next to it that rounds alike. -/
theorem adderDatapath : Obligations.AdderDatapath := fun s ha hb => next_congr s (addF_eq_addDatapath ha hb)

/-- Settles O36: the product is exact, the quotient is cut off, and the significands have 53 bits. -/
theorem mulDivDatapaths : Obligations.MulDivDatapaths := by
  intro s ha hb
  obtain ⟨hplo, hphi⟩ := significand_product_bounds (norm_fst_bounds ha) (norm_fst_bounds hb)
  obtain ⟨hqlo, hqhi⟩ := significand_quotient_bounds (norm_fst_bounds ha) (norm_fst_bounds hb)
  exact ⟨next_congr s (mulF_eq_mulDatapath (isFinite_of_isFiniteNonzero ha) (isFinite_of_isFiniteNonzero hb)),
    next_congr s (divF_eq_divDatapath ha hb), hplo, hphi, hqlo, hqhi⟩

/-- Settles O37: the square lies within half a unit of its last place, which the root halves; or it leaves the range. -/
theorem sqrtOfSquare : Obligations.SqrtOfSquare := by
  intro s s' m hb hmul hm
  have hm' : m = mulF s.req.a s.req.a := by
    have hmul' : exec .mul s = .next (s.respond (Resp.ofR (mulF s.req.a s.req.a))) := next_congr s (by rw [hb])
    have hresp := Host.Outcome.next.inj (hmul.symm.trans hmul')
    exact congrArg (fun t => t.resp.r) hresp
  have hcast : |val ℝ s.req.a| = ((|val ℚ s.req.a| : ℚ) : ℝ) := by rw [val_rat_cast, Rat.cast_abs]
  refine ⟨sqrtF m, next_congr s' (by rw [hm]), fun ha hlo hhi => ?_, fun ha => ?_, fun ha hlarge => ?_⟩
  · rw [hm']
    refine sqrtF_mulF_near ha ?_ ?_
    · simpa [hcast] using (Rat.cast_le (K := ℝ)).mpr hlo
    · simpa [hcast] using (Rat.cast_lt (K := ℝ)).mpr hhi
  · rw [hm', mulF_self_of_subnormal ha]
    rfl
  · rw [hm', mulF_self_of_large ha (by simpa [hcast] using (Rat.cast_le (K := ℝ)).mpr hlarge)]
    rfl

/-- Settles O23: the sign bit is flipped or cleared and the other fields are kept. -/
theorem negAbsResult : Obligations.NegAbsResult :=
  ⟨fun _ => ⟨rfl, rfl⟩, fun b => ⟨negF_negF b, cat_negF b, fun _ => val_negF b, absF_absF b, cat_absF b, signOf_absF b,
    fun _ => val_absF b⟩⟩

end Sys2Proof.Proofs
end

section
/-! PROOFS. The comparator (rules R170, R171): the value of a pattern is a strictly increasing function of its key, and
the outcome of a comparison when the operands are exchanged. -/

namespace Sys2Proof.Machine

/-! The key is the signed number of the exponent and fraction fields. -/

theorem key_eq_fieldOf (b : F64) : key b = if signOf b then -(fieldOf b : ℤ) else fieldOf b := by
  rw [key, fieldOf_eq_toNat]

theorem abs_key (b : F64) : |key b| = fieldOf b := by
  rw [key_eq_fieldOf]
  split_ifs <;> simp

theorem key_infF_false : key (infF false) = binary64.infField := by decide

theorem key_infF_true : key (infF true) = -binary64.infField := by decide

/-- The keys of the infinities enclose those of the finite patterns (rule R170). -/
theorem key_between_infinities {b : F64} (hb : isFinite b = true) :
    key (infF true) < key b ∧ key b < key (infF false) := by
  rw [key_infF_true, key_infF_false, ← abs_lt, abs_key]
  exact_mod_cast isFinite_iff_fieldOf.mp hb

/-! The value is a strictly increasing function of the key. -/

section Value

variable {K : Type} [Field K]

/-- The value of the finite patterns with the key `z`: the magnitude of the fields `|z|` with the sign of `z`. -/
def keyVal (K : Type) [Field K] (z : ℤ) : K := z.sign * binary64.fieldVal K z.natAbs

theorem keyVal_neg (z : ℤ) : keyVal K (-z) = -keyVal K z := by
  simp [keyVal]

theorem keyVal_natCast (m : ℕ) : keyVal K m = binary64.fieldVal K m := by
  rcases Nat.eq_zero_or_pos m with rfl | hm
  · simp [keyVal, Format.fieldVal, fieldUnits]
  · rw [keyVal, Int.sign_natCast_of_ne_zero hm.ne', Int.natAbs_natCast, Int.cast_one, one_mul]

variable [LinearOrder K] [IsStrictOrderedRing K]

theorem keyVal_strictMono : StrictMono (keyVal K) := by
  refine strictMono_of_odd_strictMonoOn_nonneg keyVal_neg fun y hy z hz hlt => ?_
  lift y to ℕ using hy
  lift z to ℕ using hz
  rw [keyVal_natCast, keyVal_natCast]
  exact binary64.fieldVal_strictMono (Int.ofNat_lt.mp hlt)

theorem val_eq_keyVal (b : F64) : val K b = keyVal K (key b) := by
  rw [val_eq_signFactor_mul, abs_val_eq_fieldVal, key_eq_fieldOf, signFactor]
  split_ifs
  · rw [keyVal_neg, keyVal_natCast, neg_one_mul]
  · rw [keyVal_natCast, one_mul]

theorem key_lt_key_iff (K : Type) [Field K] [LinearOrder K] [IsStrictOrderedRing K] (a b : F64) :
    key a < key b ↔ val K a < val K b := by
  rw [val_eq_keyVal, val_eq_keyVal, keyVal_strictMono.lt_iff_lt]

theorem key_eq_key_iff (K : Type) [Field K] [LinearOrder K] [IsStrictOrderedRing K] (a b : F64) :
    key a = key b ↔ val K a = val K b := by
  rw [val_eq_keyVal, val_eq_keyVal, keyVal_strictMono.injective.eq_iff]

end Value

/-! The outcome of a comparison. -/

theorem code_compareF (a b : F64) : (compareF a b).code =
    if cat a = .nan ∨ cat b = .nan then 3#3
    else if key a < key b then 1#3
    else if key b < key a then 2#3
    else 0#3 := by
  rw [compareF]
  split_ifs <;> rfl

/-- The outcome of the comparison with the operands exchanged. -/
def Comparison.exchanged : Comparison → Comparison
  | .equal => .equal
  | .less => .greater
  | .greater => .less
  | .unordered => .unordered

theorem compareF_exchange (a b : F64) : compareF b a = (compareF a b).exchanged := by
  have hswap : cat b = .nan ∨ cat a = .nan ↔ cat a = .nan ∨ cat b = .nan := or_comm
  simp only [compareF, hswap]
  split_ifs with hnan hba hab
  · rfl
  · exact absurd hab hba.asymm
  all_goals rfl

/-- Exchanging an outcome exchanges the codes of less and greater and keeps the other two (rule R67). -/
theorem code_exchanged (o : Comparison) : (o.code = 3#3 ↔ o.exchanged.code = 3#3) ∧
    (o.code = 1#3 ↔ o.exchanged.code = 2#3) ∧ (o.code = 0#3 ↔ o.exchanged.code = 0#3) := by
  cases o <;> decide

end Sys2Proof.Machine
end

section
/-! PROOFS. The statement about the comparator. -/

namespace Sys2Proof.Proofs

open Machine

/-- Settles O38: the outcome's code case by case, the keys read as values, and the outcome of exchanged operands. -/
theorem compareResult : Obligations.CompareResult := by
  have exec_cmp (s : State) : exec .cmp s = .next (s.respond (Resp.ofCC (compareF s.req.a s.req.b).code)) := rfl
  refine ⟨fun s => ?_, fun a b ha _ => ?_, key_infF_false, fun s s' ha hb => ?_⟩
  · rw [exec_cmp, code_compareF]
  · obtain ⟨hlow, hhigh⟩ := key_between_infinities ha
    exact ⟨key_lt_key_iff ℚ a b, key_eq_key_iff ℚ a b, hhigh, hlow⟩
  · refine ⟨_, _, exec_cmp s, exec_cmp s', ?_⟩
    rw [ha, hb, compareF_exchange s.req.a s.req.b]
    exact code_exchanged _

end Sys2Proof.Proofs
end

section
/-! PROOFS. Values against 0 and 1 (rule R93), and the tests for integers and odd integers (rule R201). -/

namespace Sys2Proof.Machine

section Value

variable {K : Type} [Field K] [LinearOrder K] [IsStrictOrderedRing K]

/-! The patterns of magnitude at most 1, and the one pattern of value 1. -/

theorem val_oneF : val K oneF = 1 := by
  have hsign : signOf oneF = false := rfl
  have hexp : expOf oneF = 1023 := rfl
  have hfrac : fracOf oneF = 0 := rfl
  rw [val, hsign, hexp, hfrac]
  norm_num

/-- Only the two zeros share their key. -/
theorem eq_of_key_eq {a b : F64} (h : key a = key b) (hb : key b ≠ 0) : a = b := by
  have hmag : fieldOf a = fieldOf b := by exact_mod_cast (abs_key a).symm.trans ((congrArg abs h).trans (abs_key b))
  have hpos : fieldOf b ≠ 0 := fun h0 => hb (abs_eq_zero.mp (by rw [abs_key, h0, Nat.cast_zero]))
  refine eq_of_fieldOf_eq ?_ hmag
  rw [key_eq_fieldOf, key_eq_fieldOf, hmag] at h
  split_ifs at h with hsa hsb hsb
  · rw [hsa, hsb]
  · omega
  · omega
  · rw [Bool.eq_false_iff.mpr hsa, Bool.eq_false_iff.mpr hsb]

variable (K) in
theorem val_eq_one_iff {b : F64} : val K b = 1 ↔ b = oneF := by
  rw [← val_oneF, ← key_eq_key_iff]
  exact ⟨fun h => eq_of_key_eq h (by decide), fun h => h ▸ rfl⟩

variable (K) in
theorem val_eq_zero_iff {b : F64} : val K b = 0 ↔ cat b = .zero := by
  refine ⟨fun h => ?_, val_of_zero⟩
  by_contra hz
  have hpos : 0 < |val K b| := by
    rw [abs_val_eq_fieldVal]
    exact (binary64.fieldVal_nonneg 0).trans_lt (binary64.fieldVal_strictMono (fieldOf_pos hz))
  exact hpos.ne' (abs_eq_zero.mpr h)

variable (K) in
theorem signOf_of_val_pos {b : F64} (h : 0 < val K b) : signOf b = false := by
  rw [← Bool.not_eq_true]
  intro hs
  rw [val_eq_signFactor_mul, hs, signFactor, if_pos rfl, neg_one_mul] at h
  exact h.not_ge (neg_nonpos.mpr (abs_nonneg _))

/-- Below the exponent of 1 a magnitude is below 1. -/
theorem abs_val_lt_one {b : F64} (h : expOf b < 1023) : |val K b| < 1 := by
  have hf := fracOf_lt b
  have hone : fieldOf oneF = 1023 * 2 ^ 52 := rfl
  calc |val K b| = binary64.fieldVal K (fieldOf b) := abs_val_eq_fieldVal b
    _ < binary64.fieldVal K (fieldOf oneF) := binary64.fieldVal_strictMono (by rw [hone, fieldOf]; omega)
    _ = 1 := by rw [← abs_val_eq_fieldVal, val_oneF, abs_one]

/-- From the exponent of 1 on, `1075 - expOf b` bits of the significand are its fractional part. -/
theorem abs_val_eq_div {b : F64} (hlo : 1023 ≤ expOf b) (hhi : expOf b ≤ 1075) :
    |val K b| = ((2 ^ 52 + fracOf b : ℕ) : K) / ((2 ^ (1075 - expOf b) : ℕ) : K) := by
  have hk : (expOf b : ℤ) - 1075 = -((1075 - expOf b : ℕ) : ℤ) := by omega
  rw [abs_val_eq_norm, norm_of_expOf_ne_zero (by omega), hk, zpow_neg, zpow_natCast, div_eq_mul_inv]
  push_cast
  rfl

theorem abs_val_eq_natCast {b : F64} (h : 1075 ≤ expOf b) :
    |val K b| = (((2 ^ 52 + fracOf b) * 2 ^ (expOf b - 1075) : ℕ) : K) := by
  have hk : (expOf b : ℤ) - 1075 = ((expOf b - 1075 : ℕ) : ℤ) := by omega
  rw [abs_val_eq_norm, norm_of_expOf_ne_zero (by omega), hk, zpow_natCast]
  push_cast
  rfl

theorem two_pow_53_le_abs_val {b : F64} (h : 2 ^ 53 ≤ |val K b|) : 1076 ≤ expOf b := by
  by_contra! hlt
  rcases lt_or_ge (expOf b) 1023 with hsmall | hlarge
  · have hone := abs_val_lt_one (K := K) hsmall
    linarith
  · have hle : |val K b| ≤ ((2 ^ 52 + fracOf b : ℕ) : K) := by
      rw [abs_val_eq_div hlarge (by omega)]
      exact div_le_self (Nat.cast_nonneg _) (Nat.one_le_cast.mpr Nat.one_le_two_pow)
    have hf := fracOf_lt b
    have hsig : 2 ^ 53 ≤ 2 ^ 52 + fracOf b := by exact_mod_cast h.trans hle
    omega

variable [FloorRing K]

variable (K) in
theorem magAtMostOne_iff {b : F64} : magAtMostOne b = true ↔ |val K b| ≤ 1 := by
  rw [magAtMostOne, decide_eq_true_iff, abs_val_eq_magUnits, div_le_one (unitsPerOne_pos K), Nat.cast_le]

variable (K) in
theorem magAtMostOne_eq_false_iff {b : F64} : magAtMostOne b = false ↔ 1 < |val K b| := by
  rw [← Bool.not_eq_true, magAtMostOne_iff K, not_le]

end Value

/-! A number is an integer or an odd integer when its magnitude is one. -/

section Magnitude

variable {K : Type} [Field K] [LinearOrder K] [IsStrictOrderedRing K]

theorem exists_intCast_iff_abs {x : K} : (∃ n : ℤ, x = n) ↔ ∃ m : ℕ, |x| = m := by
  constructor
  · rintro ⟨n, rfl⟩
    exact ⟨n.natAbs, by rw [Nat.cast_natAbs, Int.cast_abs]⟩
  · rintro ⟨m, hm⟩
    rcases eq_or_eq_neg_of_abs_eq hm with h | h
    · exact ⟨m, by rw [h, Int.cast_natCast]⟩
    · exact ⟨-m, by rw [h, Int.cast_neg, Int.cast_natCast]⟩

theorem exists_oddCast_iff_abs {x : K} : (∃ n : ℤ, x = 2 * n + 1) ↔ ∃ m : ℕ, |x| = m ∧ m % 2 = 1 := by
  constructor
  · rintro ⟨n, rfl⟩
    exact ⟨(2 * n + 1).natAbs, by rw [Nat.cast_natAbs, Int.cast_abs]; push_cast; rfl, by omega⟩
  · rintro ⟨m, hm, hodd⟩
    obtain ⟨k, rfl⟩ : ∃ k, m = 2 * k + 1 := ⟨m / 2, by omega⟩
    rcases eq_or_eq_neg_of_abs_eq hm with h | h
    · exact ⟨k, by rw [h]; push_cast; ring⟩
    · exact ⟨-k - 1, by rw [h]; push_cast; ring⟩

end Magnitude

/-! The tests in the three ranges of the exponent: below that of 1, with a fractional part, and without one. -/

theorem isInt_of_exp_lt {b : F64} (h : expOf b < 1023) : isInt b = (cat b == .zero) := by
  simp [isInt, show ¬1075 ≤ expOf b by omega, show ¬1023 ≤ expOf b by omega]

theorem isInt_of_le_exp {b : F64} (hb : isFinite b = true) (h : 1075 ≤ expOf b) : isInt b = true := by
  simp [isInt, hb, h]

theorem cat_eq_normal_of_expOf {b : F64} (hlo : expOf b ≠ 0) (hhi : expOf b ≠ 2047) : cat b = .normal := by
  rw [cat, if_neg hlo, if_neg hhi]

/-- The significand's fractional bits are those of the mantissa field. -/
theorem isInt_iff_dvd {b : F64} (hlo : 1023 ≤ expOf b) (hhi : expOf b ≤ 1075) :
    isInt b = true ↔ 2 ^ (1075 - expOf b) ∣ 2 ^ 52 + fracOf b := by
  have hcat : cat b = .normal := cat_eq_normal_of_expOf (by omega) (by omega)
  rcases hhi.lt_or_eq with hlt | heq
  · rw [Nat.dvd_add_right (pow_dvd_pow 2 (by omega)), Nat.dvd_iff_mod_eq_zero]
    simp [isInt, hcat, hlo, show ¬1075 ≤ expOf b by omega, show expOf b ≤ 1074 by omega]
  · simp [isInt_of_le_exp (isFinite_iff.mpr (.inr (.inr hcat))) heq.ge, heq]

theorem isOdd_iff_quotient {b : F64} (hlo : 1023 ≤ expOf b) (hhi : expOf b ≤ 1075) :
    isOdd b = true ↔ isInt b = true ∧ (2 ^ 52 + fracOf b) / 2 ^ (1075 - expOf b) % 2 = 1 := by
  simp [isOdd, hlo, hhi]

theorem isOdd_of_exp {b : F64} (h : expOf b < 1023 ∨ 1075 < expOf b) : isOdd b = false := by
  rcases h with h | h
  · simp [isOdd, show ¬1023 ≤ expOf b by omega]
  · simp [isOdd, show ¬expOf b ≤ 1075 by omega]

theorem isFinite_iff_expOf {b : F64} : isFinite b = true ↔ expOf b ≠ 2047 := by
  rw [isFinite, cat]
  split_ifs <;> simp_all

theorem isInt_of_not_isFinite {b : F64} (h : isFinite b = false) : isInt b = false ∧ isOdd b = false := by
  have hexp : expOf b = 2047 := by simpa [h] using isFinite_iff_expOf (b := b)
  have hzero : cat b ≠ .zero := fun hz => by simp [isFinite, hz] at h
  exact ⟨by simp [isInt, h, hzero, hexp], isOdd_of_exp (.inr (by omega))⟩

/-! The tests read as statements about the magnitude. -/

section Value

variable (K : Type) [Field K] [LinearOrder K] [IsStrictOrderedRing K]

theorem natCast_div_eq_iff {M d m : ℕ} (hd : 0 < d) : (M : K) / d = m ↔ M = d * m := by
  rw [div_eq_iff (Nat.cast_ne_zero.mpr hd.ne'), mul_comm]
  exact_mod_cast Iff.rfl

variable {K} in
theorem eq_zero_of_abs_val_eq {b : F64} (h : expOf b < 1023) {m : ℕ} (hm : |val K b| = m) : m = 0 :=
  Nat.lt_one_iff.mp (by exact_mod_cast hm ▸ abs_val_lt_one (K := K) h)

theorem isInt_iff {b : F64} (hb : isFinite b = true) : isInt b = true ↔ ∃ m : ℕ, |val K b| = m := by
  rcases lt_or_ge (expOf b) 1023 with hsmall | hlo
  · rw [isInt_of_exp_lt hsmall, beq_iff_eq]
    refine ⟨fun hz => ⟨0, by rw [val_of_zero hz, abs_zero, Nat.cast_zero]⟩, fun ⟨m, hm⟩ => ?_⟩
    rw [eq_zero_of_abs_val_eq hsmall hm, Nat.cast_zero, abs_eq_zero] at hm
    exact (val_eq_zero_iff K).mp hm
  rcases le_or_gt (expOf b) 1075 with hhi | hlarge
  · rw [isInt_iff_dvd hlo hhi, abs_val_eq_div hlo hhi]
    exact exists_congr fun m => (natCast_div_eq_iff K (by positivity)).symm
  · exact iff_of_true (isInt_of_le_exp hb hlarge.le) ⟨_, abs_val_eq_natCast hlarge.le⟩

theorem isOdd_iff {b : F64} : isOdd b = true ↔ ∃ m : ℕ, |val K b| = m ∧ m % 2 = 1 := by
  rcases lt_or_ge (expOf b) 1023 with hsmall | hlo
  · rw [isOdd_of_exp (.inl hsmall)]
    refine iff_of_false Bool.false_ne_true ?_
    rintro ⟨m, hm, hodd⟩
    rw [eq_zero_of_abs_val_eq hsmall hm] at hodd
    exact absurd hodd (by decide)
  rcases le_or_gt (expOf b) 1075 with hhi | hlarge
  · have hd : 0 < 2 ^ (1075 - expOf b) := by positivity
    rw [isOdd_iff_quotient hlo hhi, isInt_iff_dvd hlo hhi, abs_val_eq_div hlo hhi]
    simp only [natCast_div_eq_iff K hd]
    constructor
    · rintro ⟨⟨m, hm⟩, hodd⟩
      exact ⟨m, hm, by rwa [hm, Nat.mul_div_cancel_left m hd] at hodd⟩
    · rintro ⟨m, hm, hodd⟩
      exact ⟨⟨m, hm⟩, by rwa [hm, Nat.mul_div_cancel_left m hd]⟩
  · rw [isOdd_of_exp (.inr hlarge), abs_val_eq_natCast hlarge.le]
    refine iff_of_false Bool.false_ne_true ?_
    rintro ⟨m, hm, hodd⟩
    have heven : 2 ∣ (2 ^ 52 + fracOf b) * 2 ^ (expOf b - 1075) := (dvd_pow_self 2 (by omega)).mul_left _
    rw [Nat.cast_injective hm] at heven
    omega

end Value

end Sys2Proof.Machine
end

section
/-! PROOFS. The transcendental engine: the exact cases, by the operand's category and value, and the contract of the
last case (rules R184, R190 to R207). -/

namespace Sys2Proof.Machine

/-- All that is known of the engine (rule R184). -/
theorem engine_conforms : engine.Conforms := Config.engine.property

/-! Eight operations look at nothing but the category of their operand before their last case. -/

/-- The results for a zero and for an infinity, and the last case, in the order of the rules; a NaN comes first. -/
def byCategory (a zero infinite last : F64) : F64 :=
  if cat a = .nan then canonNaN else if cat a = .zero then zero else if cat a = .infinite then infinite else last

section Categories

variable {a zero infinite last : F64}

theorem byCategory_of_nan (h : cat a = .nan) : byCategory a zero infinite last = canonNaN := by simp [byCategory, h]

theorem byCategory_of_zero (h : cat a = .zero) : byCategory a zero infinite last = zero := by simp [byCategory, h]

theorem byCategory_of_infinite (h : cat a = .infinite) : byCategory a zero infinite last = infinite := by
  simp [byCategory, h]

theorem byCategory_of_finite (h : isFiniteNonzero a = true) : byCategory a zero infinite last = last := by
  obtain ⟨hnan, hinf, hzero⟩ := isFiniteNonzero_iff.mp h
  simp [byCategory, hnan, hinf, hzero]

end Categories

theorem sinF_eq (a : F64) : sinF a = byCategory a a canonNaN (engine.sin a) := rfl

theorem cosF_eq (a : F64) : cosF a = byCategory a oneF canonNaN (engine.cos a) := rfl

theorem tanF_eq (a : F64) : tanF a = byCategory a a canonNaN (engine.tan a) := rfl

theorem atanF_eq (a : F64) : atanF a = byCategory a a (withSign (signOf a) piO2F) (engine.atan a) := rfl

theorem expF_eq (a : F64) :
    expF a = byCategory a oneF (if signOf a then zeroF false else infF false) (engine.exp a) := rfl

theorem sinhF_eq (a : F64) : sinhF a = byCategory a a a (engine.sinh a) := rfl

theorem coshF_eq (a : F64) : coshF a = byCategory a oneF (infF false) (engine.cosh a) := rfl

theorem tanhF_eq (a : F64) : tanhF a = byCategory a a (withSign (signOf a) oneF) (engine.tanh a) := rfl

/-! The constants with a sign (rule R181). -/

theorem withSign_piO2F (s : Bool) :
    withSign s piO2F = if s then 0xBFF921FB54442D18#64 else 0x3FF921FB54442D18#64 := by cases s <;> rfl

theorem withSign_oneF (s : Bool) :
    withSign s oneF = if s then 0xBFF0000000000000#64 else 0x3FF0000000000000#64 := by cases s <;> rfl

theorem oneF_eq : oneF = 0x3FF0000000000000#64 := rfl

theorem withSign_true_oneF : withSign true oneF = 0xBFF0000000000000#64 := rfl

/-! ASIN and ACOS: the domain error lies between the exact cases. -/

/-- The domain errors of ASIN and ACOS, a NaN included (rules R194, R195). -/
theorem asinF_acosF_of_domain {a : F64}
    (h : cat a = .nan ∨ cat a = .infinite ∨ (isFinite a = true ∧ 1 < |val ℚ a|)) :
    asinF a = canonNaN ∧ acosF a = canonNaN := by
  rcases h with hnan | hinf | ⟨-, hbig⟩
  · simp [asinF, acosF, hnan]
  · simp [asinF, acosF, hinf]
  · have hmag : magAtMostOne a = false := (magAtMostOne_eq_false_iff ℚ).mpr hbig
    have hzero : cat a ≠ .zero := fun hz => by
      rw [val_of_zero hz, abs_zero] at hbig
      exact zero_le_one.not_gt hbig
    simp [asinF, acosF, hmag, hzero]

theorem asinF_of_zero {a : F64} (h : cat a = .zero) : asinF a = a := by simp [asinF, h]

theorem asinF_of_le_one {a : F64} (ha : isFiniteNonzero a = true) (h : |val ℚ a| ≤ 1) : asinF a = engine.asin a := by
  obtain ⟨hnan, hinf, hzero⟩ := isFiniteNonzero_iff.mp ha
  simp [asinF, hnan, hinf, hzero, (magAtMostOne_iff ℚ).mpr h]

theorem acosF_oneF : acosF oneF = zeroF false := by
  have hmag : magAtMostOne oneF = true := (magAtMostOne_iff ℚ).mpr (by rw [val_oneF, abs_one])
  have hcat : cat oneF = .normal := rfl
  simp [acosF, hcat, hmag]

theorem acosF_of_le_one {a : F64} (ha : isFinite a = true) (h : |val ℚ a| ≤ 1) (hone : a ≠ oneF) :
    acosF a = engine.acos a := by
  obtain ⟨hnan, hinf⟩ := isFinite_iff_ne.mp ha
  simp [acosF, hnan, hinf, hone, (magAtMostOne_iff ℚ).mpr h]

/-! LOG: the pole, the domain error, and the positive operands. -/

theorem logF_of_negative {a : F64} (hnan : cat a ≠ .nan) (hzero : cat a ≠ .zero) (hs : signOf a = true) :
    logF a = canonNaN := by simp [logF, hnan, hzero, hs]

theorem logF_oneF : logF oneF = zeroF false := rfl

/-- A positive finite value is that of a non-zero pattern with the sign bit clear. -/
theorem isFiniteNonzero_of_val_pos {a : F64} (ha : isFinite a = true) (h : 0 < val ℚ a) :
    isFiniteNonzero a = true ∧ signOf a = false := by
  obtain ⟨hnan, hinf⟩ := isFinite_iff_ne.mp ha
  exact ⟨isFiniteNonzero_iff.mpr ⟨hnan, hinf, fun hz => h.ne' (val_of_zero hz)⟩, signOf_of_val_pos ℚ h⟩

theorem logF_of_positive {a : F64} (ha : isFiniteNonzero a = true) (hs : signOf a = false) (hone : a ≠ oneF) :
    logF a = engine.log a := by
  obtain ⟨hnan, hinf, hzero⟩ := isFiniteNonzero_iff.mp ha
  simp [logF, hnan, hinf, hzero, hs, hone]

/-! POW: its cases in order, and its comparison of the base with 1. -/

/-- A result defined by cases, held against a statement by the same cases in the same order. -/
theorem ite_of_eq_ite {c d : Prop} [Decidable c] [Decidable d] {r x y : F64} {P Q : Prop}
    (hr : r = if c then x else y) (hcd : c ↔ d) (hpos : r = x → P) (hneg : ¬c → r = y → Q) : if d then P else Q := by
  by_cases h : c
  · rw [if_pos (hcd.mp h)]
    exact hpos (hr.trans (if_pos h))
  · rw [if_neg (hcd.not.mp h)]
    exact hneg h (hr.trans (if_neg h))

/-- Where the exponent is infinite, the result is an infinity when the base is beyond 1 and the exponent positive, or
neither (rule R202 case 6). -/
theorem powF_infinite_exponent_iff (a b : F64) : ((cat a == .infinite || !magAtMostOne a) = !signOf b) ↔
    ((cat a = .infinite ∨ 1 < |val ℚ a|) ↔ signOf b = false) := by
  rw [← magAtMostOne_eq_false_iff ℚ, Bool.eq_iff_iff]
  simp

end Sys2Proof.Machine
end

section
/-! PROOFS. The informative methods of the transcendental engine (rules R186 to R189) as identities over the reals. -/

namespace Sys2Proof.Machine

open Real (pi sin cos tan arctan)

/-! Reduction by the nearest multiple of a constant: of pi/2 for the trigonometric functions, of ln 2 for EXP. -/

theorem abs_sub_round_mul_le {c : ℝ} (hc : 0 < c) (x : ℝ) : |x - round (x / c) * c| ≤ c / 2 := by
  have hx : x - round (x / c) * c = (x / c - round (x / c)) * c := by field_simp
  calc |x - round (x / c) * c| = |x / c - round (x / c)| * c := by rw [hx, abs_mul, abs_of_pos hc]
    _ ≤ 1 / 2 * c := by gcongr; exact abs_sub_round _
    _ = c / 2 := by ring

theorem quadrantCount_eq (x : ℝ) : quadrantCount pi x = round (x / (pi / 2)) := by
  rw [quadrantCount, div_div_eq_mul_div, mul_div_assoc]

theorem abs_reducedArgument_le (x : ℝ) : |reducedArgument pi x| ≤ pi / 4 := by
  rw [reducedArgument, quadrantCount_eq]
  exact (abs_sub_round_mul_le Real.pi_div_two_pos x).trans_eq (by ring)

theorem reducedArgument_add (x : ℝ) : reducedArgument pi x + quadrantCount pi x * (pi / 2) = x := by
  rw [reducedArgument, sub_add_cancel]

/-! The quadrant table (rule R187). -/

/-- Multiples of pi/2 are whole turns and up to three quarter turns. -/
theorem add_mul_pi_div_two (rho : ℝ) (k : ℤ) :
    rho + k * (pi / 2) = rho + ((k % 4 : ℤ) : ℝ) * (pi / 2) + ((k / 4 : ℤ) : ℝ) * (2 * pi) := by
  have hk : (k : ℝ) = ((k % 4 : ℤ) : ℝ) + 4 * ((k / 4 : ℤ) : ℝ) := by exact_mod_cast (Int.emod_add_mul_ediv k 4).symm
  rw [hk]
  ring

theorem quadrant_sin_cos (rho : ℝ) (k : ℤ) :
    sin (rho + k * (pi / 2)) = quadrantSin (k % 4) (sin rho) (cos rho) ∧
      cos (rho + k * (pi / 2)) = quadrantCos (k % 4) (sin rho) (cos rho) := by
  have htwo : rho + 2 * (pi / 2) = rho + pi := by ring
  have hthree : rho + 3 * (pi / 2) = rho + pi / 2 + pi := by ring
  rw [add_mul_pi_div_two, Real.sin_add_int_mul_two_pi, Real.cos_add_int_mul_two_pi]
  have hquad : k % 4 = 0 ∨ k % 4 = 1 ∨ k % 4 = 2 ∨ k % 4 = 3 := by omega
  rcases hquad with h | h | h | h
  all_goals
    rw [h]
    simp [quadrantSin, quadrantCos, Real.sin_add_pi_div_two, Real.cos_add_pi_div_two, htwo, hthree]

theorem quadrantSin_div_quadrantCos (quad : ℤ) (s c : ℝ) :
    quadrantSin quad s c / quadrantCos quad s c = quadrantTan quad (s / c) := by
  rw [quadrantSin, quadrantCos, quadrantTan]
  split_ifs
  · rfl
  · rw [div_neg, neg_div, one_div_div]
  · rw [neg_div_neg_eq]
  · rw [neg_div, neg_div, one_div_div]

/-! CORDIC (rule R188): one rotation turns the vector by an arctangent and stretches it by a gain. -/

theorem gain_mul_cos_add_arctan (theta t : ℝ) :
    √(1 + t ^ 2) * cos (theta + arctan t) = cos theta - t * sin theta := by
  have hpos : √(1 + t ^ 2) ≠ 0 := (Real.sqrt_pos.mpr (by positivity)).ne'
  rw [Real.cos_add, Real.cos_arctan, Real.sin_arctan]
  field_simp

theorem gain_mul_sin_add_arctan (theta t : ℝ) :
    √(1 + t ^ 2) * sin (theta + arctan t) = sin theta + t * cos theta := by
  have hpos : √(1 + t ^ 2) ≠ 0 := (Real.sqrt_pos.mpr (by positivity)).ne'
  rw [Real.sin_add, Real.cos_arctan, Real.sin_arctan]
  field_simp

/-- Both directions of a rotation are one formula in the signed tangent of its angle. -/
theorem cordicStep_eq (i : ℕ) (x y z : ℝ) : ∃ t : ℝ, t ^ 2 = (1 / 2 ^ i) ^ 2 ∧
    cordicStep (fun i => arctan (1 / 2 ^ i)) i (x, y, z) = (x - t * y, y + t * x, z - arctan t) := by
  rw [cordicStep]
  by_cases hz : 0 ≤ z
  · refine ⟨1 / 2 ^ i, rfl, ?_⟩
    rw [if_pos hz]
    ring_nf
  · refine ⟨-(1 / 2 ^ i), neg_sq _, ?_⟩
    rw [if_neg hz, Real.arctan_neg]
    ring_nf

theorem cordicStep_rotates (r rho z : ℝ) (i : ℕ) : ∃ z' : ℝ,
    cordicStep (fun i => arctan (1 / 2 ^ i)) i (r * cos (rho - z), r * sin (rho - z), z) =
      (r * √(1 + (1 / 2 ^ i) ^ 2) * cos (rho - z'), r * √(1 + (1 / 2 ^ i) ^ 2) * sin (rho - z'), z') := by
  obtain ⟨t, hgain, hstep⟩ := cordicStep_eq i (r * cos (rho - z)) (r * sin (rho - z)) z
  have hangle : rho - (z - arctan t) = rho - z + arctan t := by ring
  refine ⟨z - arctan t, ?_⟩
  rw [hstep, ← hgain, hangle, mul_assoc r, mul_assoc r, gain_mul_cos_add_arctan, gain_mul_sin_add_arctan]
  ring_nf

theorem cordic_rotates (gain rho : ℝ) (n : ℕ) : ∃ z : ℝ,
    cordic (fun i => arctan (1 / 2 ^ i)) gain rho n =
      (gain * (∏ i ∈ Finset.range n, √(1 + (1 / 2 ^ i) ^ 2)) * cos (rho - z),
       gain * (∏ i ∈ Finset.range n, √(1 + (1 / 2 ^ i) ^ 2)) * sin (rho - z), z) := by
  induction n with
  | zero => exact ⟨rho, by simp [cordic]⟩
  | succ n ih =>
    obtain ⟨z, hz⟩ := ih
    obtain ⟨z', hz'⟩ := cordicStep_rotates (gain * ∏ i ∈ Finset.range n, √(1 + (1 / 2 ^ i) ^ 2)) rho z n
    exact ⟨z', by rw [cordic, hz, hz', Finset.prod_range_succ, ← mul_assoc]⟩

/-! The argument transformations of ATAN, EXP and LOG (rule R189). -/

theorem arctan_eq_atanLarge {x : ℝ} (hx : 1 < |x|) : arctan x = atanLarge pi x (arctan (1 / x)) := by
  rw [atanLarge, one_div]
  rcases lt_abs.mp hx with h | h
  · rw [if_neg (by linarith), Real.arctan_inv_of_pos (by linarith)]
    ring
  · rw [if_pos (by linarith), Real.arctan_inv_of_neg (by linarith)]
    ring

theorem exp_eq_expRebuild (n : ℤ) (x : ℝ) : Real.exp x = expRebuild n (Real.exp (x - n * Real.log 2)) := by
  have hpow : Real.exp (n * Real.log 2) = 2 ^ n := by
    rw [← Real.log_zpow, Real.exp_log (zpow_pos two_pos n)]
  rw [expRebuild, ← hpow, ← Real.exp_add, add_sub_cancel]

theorem log_eq_logRebuild (n : ℤ) {m : ℝ} (hm : 0 < m) :
    Real.log (2 ^ n * m) = logRebuild (Real.log 2) n (Real.log m) := by
  rw [logRebuild, Real.log_mul (zpow_ne_zero n two_ne_zero) hm.ne', Real.log_zpow]

end Sys2Proof.Machine
end

section
/-! PROOFS. The statements about the transcendental engine. -/

namespace Sys2Proof.Proofs

open Machine

/-- Settles O47: no rational but 0 is a multiple of pi, and none is an odd multiple of pi/2. -/
theorem trigResult : Obligations.TrigResult := by
  refine ⟨sinF, cosF, tanF, fun s => ⟨rfl, rfl, rfl⟩, fun a h => ?_, fun a h => ?_, fun a h => ?_⟩
  · rw [sinF_eq, cosF_eq, tanF_eq]
    rcases h with hnan | hinf
    · simp only [byCategory_of_nan hnan, canonNaN, and_self]
    · simp only [byCategory_of_infinite hinf, canonNaN, and_self]
  · rw [sinF_eq, cosF_eq, tanF_eq]
    simp only [byCategory_of_zero h, oneF, and_self]
  · rw [sinF_eq, cosF_eq, tanF_eq]
    simp only [byCategory_of_finite h]
    have hval : val ℚ a ≠ 0 := fun hv => (isFiniteNonzero_iff.mp h).2.2 ((val_eq_zero_iff ℚ).mp hv)
    refine ⟨engine_conforms.sin a h, ?_, engine_conforms.cos a h, engine_conforms.tan a h, ?_⟩
    · exact val_rat_cast a ▸ sin_rat_ne_zero _ hval
    · exact val_rat_cast a ▸ cos_rat_ne_zero _

/-- Settles O48: `magAtMostOne` is the test of the value against 1. -/
theorem inverseTrigResult : Obligations.InverseTrigResult := by
  refine ⟨asinF, acosF, atanF, fun s => ⟨rfl, rfl, rfl⟩, fun a h => asinF_acosF_of_domain h, fun a h => ?_,
    fun a _ h => ?_, fun a ha h => ?_, fun a ha h hone => ?_, fun a h => ?_, fun a h => ?_, fun a h => ?_⟩
  · exact ⟨asinF_of_zero h, by rw [atanF_eq, byCategory_of_zero h]⟩
  · rw [(val_eq_one_iff ℚ).mp h, acosF_oneF]
  · rw [asinF_of_le_one ha h]
    exact engine_conforms.asin a ha ((magAtMostOne_iff ℚ).mpr h)
  · have hne : a ≠ oneF := fun h1 => hone ((val_eq_one_iff ℚ).mpr h1)
    rw [acosF_of_le_one ha h hne]
    exact engine_conforms.acos a ha ((magAtMostOne_iff ℚ).mpr h) hne
  · rw [atanF_eq, byCategory_of_nan h, canonNaN]
  · rw [atanF_eq, byCategory_of_infinite h, withSign_piO2F]
  · rw [atanF_eq, byCategory_of_finite h]
    exact engine_conforms.atan a h

/-- Settles O49: the cases in order, and the engine's contract for the angle. -/
theorem atan2Result : Obligations.Atan2Result := by
  refine ⟨atan2F, fun s => rfl, fun a b => ⟨fun h => if_pos h, fun hnanA hnanB => ⟨fun hz => ?_, fun hz hzb => ?_,
    fun hi hib => ?_, fun hi hb => ?_, fun ha hib => ?_, fun ha hb => ?_⟩⟩⟩
  · simp [atan2F, hnanB, hz, piF]
  · simp [atan2F, hnanA, hz, hzb, piO2F]
  · simp [atan2F, hi, hib, pi3O4F, piO4F]
  · obtain ⟨-, hib, hzb⟩ := isFiniteNonzero_iff.mp hb
    simp [atan2F, hnanB, hi, hib, hzb, piO2F]
  · obtain ⟨-, hi, hz⟩ := isFiniteNonzero_iff.mp ha
    simp [atan2F, hnanA, hi, hz, hib, piF]
  · obtain ⟨-, hi, hz⟩ := isFiniteNonzero_iff.mp ha
    obtain ⟨-, hib, hzb⟩ := isFiniteNonzero_iff.mp hb
    have hlast : atan2F a b = engine.atan2 a b := by simp [atan2F, hnanA, hnanB, hi, hz, hib, hzb]
    exact hlast ▸ engine_conforms.atan2 a b ha hb

/-- Settles O50: a positive value other than 1 reaches the engine. -/
theorem expLogResult : Obligations.ExpLogResult := by
  refine ⟨expF, logF, fun s => ⟨rfl, rfl⟩, fun a => ⟨fun h => ?_, fun h => ?_, fun h => ?_, fun h => ?_,
    logF_of_negative, fun h hs => ?_, fun _ h => ?_, fun ha hpos hone => ?_⟩⟩
  · exact ⟨by rw [expF_eq, byCategory_of_nan h, canonNaN], if_pos h⟩
  · exact ⟨by rw [expF_eq, byCategory_of_zero h, oneF], by simp [logF, h]⟩
  · rw [expF_eq, byCategory_of_infinite h]
  · rw [expF_eq, byCategory_of_finite h]
    exact engine_conforms.exp a h
  · simp [logF, h, hs]
  · rw [(val_eq_one_iff ℚ).mp h, logF_oneF]
  · obtain ⟨hfin, hs⟩ := isFiniteNonzero_of_val_pos ha hpos
    have hne : a ≠ oneF := fun h1 => hone ((val_eq_one_iff ℚ).mpr h1)
    rw [logF_of_positive hfin hs hne]
    exact engine_conforms.log a hfin hs hne

/-- Settles O51: the value's magnitude is a quotient by a power of two below `2^53`, and an even number from there on. -/
theorem integerTests : Obligations.IntegerTests := by
  refine fun b => ⟨fun hb => ?_, isInt_of_not_isFinite, fun hb hlarge => ?_⟩
  · rw [isInt_iff ℚ hb, isOdd_iff ℚ, exists_intCast_iff_abs, exists_oddCast_iff_abs]
    exact ⟨Iff.rfl, Iff.rfl⟩
  · have hexp := two_pow_53_le_abs_val hlarge
    exact ⟨isInt_of_le_exp hb (by omega), isOdd_of_exp (.inr (by omega))⟩

/-- Settles O52: the cases of the definition in order; what is left is the engine's last case. -/
theorem powResult : Obligations.PowResult := by
  refine ⟨powF, fun s => rfl, fun a b => ?_⟩
  rw [← oneF_eq, ← withSign_true_oneF]
  refine ite_of_eq_ite (r := powF a b) rfl .rfl id fun hzb hr => ?_
  refine ite_of_eq_ite hr .rfl id fun hnan hr => ?_
  refine ite_of_eq_ite hr .rfl id fun hone hr => ?_
  refine ite_of_eq_ite hr .rfl id fun _ hr => ?_
  refine ite_of_eq_ite hr .rfl id fun hza hr => ?_
  refine ite_of_eq_ite hr .rfl (fun h => h.trans (by simp only [powF_infinite_exponent_iff])) fun hib hr => ?_
  refine ite_of_eq_ite hr .rfl id fun hia hr => ?_
  refine ite_of_eq_ite hr (by simp) id fun hint hr => ?_
  obtain ⟨hnanA, hnanB⟩ := not_or.mp hnan
  have ha : isFiniteNonzero a = true := isFiniteNonzero_iff.mpr ⟨hnanA, hia, hza⟩
  have hb : isFiniteNonzero b = true := isFiniteNonzero_iff.mpr ⟨hnanB, hib, hzb⟩
  have hlast : powLastCase a b = true := by
    rw [powLastCase, ha, hb, beq_false_of_ne hone, Bool.eq_false_iff.mpr hint]
    rfl
  rw [hr]
  exact engine_conforms.pow a b _ hlast (by simp only [powReal, Bool.and_eq_true])

/-- Settles O53: the engine's functions are those of the exponentials. -/
theorem hyperbolicResult : Obligations.HyperbolicResult := by
  refine ⟨sinhF, coshF, tanhF, fun s => ⟨rfl, rfl, rfl⟩, fun a => ?_⟩
  rw [sinhF_eq, coshF_eq, tanhF_eq, ← Real.sinh_eq, ← Real.cosh_eq, ← Real.tanh_eq, ← withSign_oneF]
  refine ⟨fun h => ?_, fun h => ?_, fun h => ?_, fun h => ?_⟩
  · simp only [byCategory_of_nan h, canonNaN, and_self]
  · simp only [byCategory_of_zero h, oneF, and_self]
  · simp only [byCategory_of_infinite h, and_self]
  · simp only [byCategory_of_finite h]
    exact ⟨engine_conforms.sinh a h, engine_conforms.cosh a h, engine_conforms.tanh a h⟩

/-- Settles O54: the argument is its reduced one and quarter turns; the rotations, by induction on their number. -/
theorem methodIdentities : Obligations.MethodIdentities := by
  refine ⟨fun x rho k hk hrho => ?_, cordic_rotates, fun x hx => arctan_eq_atanLarge hx, fun x => ?_,
    fun n m hm => log_eq_logRebuild n hm⟩
  · subst hk hrho
    obtain ⟨hsin, hcos⟩ := quadrant_sin_cos (reducedArgument Real.pi x) (quadrantCount Real.pi x)
    rw [reducedArgument_add] at hsin hcos
    refine ⟨abs_reducedArgument_le x, hsin, hcos, ?_⟩
    rw [Real.tan_eq_sin_div_cos, Real.tan_eq_sin_div_cos, hsin, hcos, quadrantSin_div_quadrantCos]
  · exact ⟨abs_sub_round_mul_le (Real.log_pos one_lt_two) x, exp_eq_expRebuild _ x⟩

end Sys2Proof.Proofs
end

section
/-! PROOFS. The conversion of integers to float64 (rules R230, R231): the rounding of the magnitude with the sign, the
fields of an exact result, and the datapath. -/

namespace Sys2Proof.Machine

theorem key_negF (b : F64) : key (negF b) = -key b := by
  rw [key_eq_fieldOf, key_eq_fieldOf, signOf_negF, fieldOf_negF]
  cases signOf b <;> simp

section Value

variable (K : Type) [Field K] [LinearOrder K] [IsStrictOrderedRing K] [FloorRing K]

/-- The rounding of rule R230; it is `+0` for zero. -/
theorem i2f_eq_rneOn (v : ℤ) : i2f v = rneOn (decide (v < 0)) (v.natAbs : K) := by
  rw [i2f]
  split_ifs with h0
  · subst h0
    rw [Int.natAbs_zero, Nat.cast_zero, rneOn, roundOn, if_pos rfl]
    rfl
  · rw [rne_eq_rneOn (K := K) _ _ _ one_pos, Nat.cast_one, div_one]

theorem i2f_eq_rneSigned (v : ℤ) : i2f v = if v = 0 then zeroF false else rneSigned (v : K) := by
  have hround := (rne_of_units (K := K) (t := v) one_pos (x := v) (by simp)).2
  rw [i2f, hround]

theorem signOf_i2f (v : ℤ) : signOf (i2f v) = decide (v < 0) := by
  rw [i2f_eq_rneOn ℚ, signOf_rneOn]

theorem fieldOf_i2f (v : ℤ) : fieldOf (i2f v) = roundOn binary64 (v.natAbs : K) := by
  rw [i2f_eq_rneOn K, fieldOf_rneOn _ (Nat.cast_nonneg _)]

/-! Integers of at most 53 bits, and `2^53`: the magnitude shifted to a significand of 53 bits is exact. -/

omit [FloorRing K] in
theorem fieldVal_shifted {n k : ℕ} (hk : k ≤ 52) (hlo : 2 ^ 52 ≤ n * 2 ^ k) (hhi : n * 2 ^ k ≤ 2 ^ 53) :
    binary64.fieldVal K ((1074 - k) * 2 ^ 52 + n * 2 ^ k) = n := by
  rw [fieldVal_binary64 hhi (.inr hlo), show ((1074 - k : ℕ) : ℤ) - 1074 = -(k : ℤ) by omega, Nat.cast_mul,
    two_pow_cast, zpow_neg, zpow_natCast, mul_assoc, mul_inv_cancel₀ (by positivity), mul_one]

end Value

theorem shifted_bounds {n : ℕ} (h0 : n ≠ 0) (hn : n ≤ 2 ^ 53) :
    2 ^ 52 ≤ n * 2 ^ (52 - Nat.log 2 n) ∧ n * 2 ^ (52 - Nat.log 2 n) ≤ 2 ^ 53 := by
  rcases hn.lt_or_eq with hlt | rfl
  · exact (normalise_bounds h0 hlt).imp_right le_of_lt
  · rw [Nat.log_pow one_lt_two]
    decide

/-- The fields of an exact result (rule R231). -/
theorem fieldOf_i2f_of_le {v : ℤ} (h0 : v ≠ 0) (hv : v.natAbs ≤ 2 ^ 53) :
    fieldOf (i2f v) = (1074 - (52 - Nat.log 2 v.natAbs)) * 2 ^ 52 + v.natAbs * 2 ^ (52 - Nat.log 2 v.natAbs) := by
  obtain ⟨hlo, hhi⟩ := shifted_bounds (Int.natAbs_ne_zero.mpr h0) hv
  have hlt : (1074 - (52 - Nat.log 2 v.natAbs)) * 2 ^ 52 + v.natAbs * 2 ^ (52 - Nat.log 2 v.natAbs) <
      binary64.infField := by
    rw [infField_binary64]
    omega
  rw [fieldOf_i2f ℚ, ← roundOn_fieldVal (K := ℚ) Format.regular_binary64 hlt, fieldVal_shifted ℚ (by omega) hlo hhi]

/-- Up to `2^53` in magnitude the conversion is exact (rule R230). -/
theorem val_i2f (K : Type) [Field K] [LinearOrder K] [IsStrictOrderedRing K] [FloorRing K] {v : ℤ}
    (hv : v.natAbs ≤ 2 ^ 53) : val K (i2f v) = v := by
  rcases eq_or_ne v 0 with rfl | h0
  · rw [Int.cast_zero]
    exact val_of_zero (by decide)
  have hmag : |val K (i2f v)| = (v.natAbs : K) := by
    obtain ⟨hlo, hhi⟩ := shifted_bounds (Int.natAbs_ne_zero.mpr h0) hv
    rw [abs_val_eq_fieldVal, fieldOf_i2f_of_le h0 hv, fieldVal_shifted K (by omega) hlo hhi]
  rw [val_eq_signFactor_mul, hmag, signOf_i2f, Nat.cast_natAbs]
  rcases h0.lt_or_gt with hneg | hpos
  · simp [signFactor, hneg, abs_of_neg]
  · simp [signFactor, hpos.not_gt, abs_of_pos hpos]

/-! The category, and the order and symmetry of the results (rules R230, R231 (a), (b)). -/

theorem two_pow_64_lt_overflow : (2 : ℝ) ^ 64 < 2 ^ 1024 - 2 ^ 970 := by
  have hle : (2 : ℝ) ^ 64 ≤ 2 ^ 970 := pow_le_pow_right₀ one_le_two (by norm_num)
  rw [show (1024 : ℕ) = 54 + 970 from rfl, pow_add]
  generalize (2 : ℝ) ^ 970 = u at hle ⊢
  linarith

theorem cat_i2f {v : ℤ} (h0 : v ≠ 0) (hv : v.natAbs ≤ 2 ^ 64) : cat (i2f v) = .normal := by
  have hone : (1 : ℝ) ≤ v.natAbs := by exact_mod_cast Int.natAbs_pos.mpr h0
  have hmax : (v.natAbs : ℝ) ≤ 2 ^ 64 := by exact_mod_cast hv
  rw [i2f_eq_rneOn ℝ]
  exact cat_rneOn_eq_normal _ ((zpow_le_one_of_nonpos₀ one_le_two (by norm_num)).trans hone)
    (hmax.trans_lt two_pow_64_lt_overflow)

theorem isFinite_i2f {v : ℤ} (hv : v.natAbs ≤ 2 ^ 64) : isFinite (i2f v) = true := by
  rcases eq_or_ne v 0 with rfl | h0
  · decide
  · exact isFinite_iff.mpr (.inr (.inr (cat_i2f h0 hv)))

theorem i2f_neg {v : ℤ} (h0 : v ≠ 0) : i2f (-v) = negF (i2f v) := by
  refine eq_of_fieldOf_eq ?_ ?_
  · rw [signOf_negF, signOf_i2f, signOf_i2f, ← decide_not, decide_eq_decide]
    omega
  · rw [fieldOf_negF, fieldOf_i2f ℚ, fieldOf_i2f ℚ, Int.natAbs_neg]

theorem key_i2f_natCast (n : ℕ) : key (i2f n) = roundOn binary64 (n : ℚ) := by
  rw [key_eq_fieldOf, signOf_i2f, fieldOf_i2f ℚ, Int.natAbs_natCast, if_neg (by simp)]

theorem key_i2f_mono : Monotone fun v => key (i2f v) := by
  refine monotone_of_odd_of_monotoneOn_nonneg (fun v => ?_) fun v hv w hw hle => ?_
  · rcases eq_or_ne v 0 with rfl | h0
    · decide
    · rw [i2f_neg h0, key_negF]
  · lift v to ℕ using hv
    lift w to ℕ using hw
    rw [key_i2f_natCast, key_i2f_natCast, Nat.cast_le]
    exact roundOn_mono Format.regular_binary64 (Nat.cast_nonneg v) (Nat.cast_le.mpr (Int.ofNat_le.mp hle))

/-- The datapath of rule R231: the leading one dropped from the shifted magnitude, or `round_pack` of the magnitude. -/
theorem i2fDatapath_eq_i2f {v : ℤ} (h0 : v ≠ 0) : i2fDatapath v = i2f v := by
  rw [i2fDatapath, Nat.log2_eq_log_two]
  split_ifs with hL
  · have hn : v.natAbs ≤ 2 ^ 53 :=
      (Nat.lt_pow_succ_log_self one_lt_two _).le.trans (Nat.pow_le_pow_right two_pos (by omega))
    obtain ⟨hlo, -⟩ := shifted_bounds (Int.natAbs_ne_zero.mpr h0) hn
    have hhi : v.natAbs * 2 ^ (52 - Nat.log 2 v.natAbs) < 2 ^ 53 :=
      (normalise_bounds (Int.natAbs_ne_zero.mpr h0) ((Nat.log_lt_iff_lt_pow one_lt_two
        (Int.natAbs_ne_zero.mpr h0)).mp (by omega))).2
    rw [Nat.shiftLeft_eq]
    change ofFields _ _ _ = _
    refine eq_of_fieldOf_eq (by rw [signOf_ofFields, signOf_i2f]) ?_
    rw [fieldOf_i2f_of_le h0 hn, fieldOf, expOf_ofFields _ _ (by omega), fracOf_ofFields _ _ (by omega)]
    omega
  · rw [roundPack_eq_rneOn (K := ℚ), i2f_eq_rneOn ℚ, if_neg Bool.false_ne_true, zpow_zero, mul_one]

end Sys2Proof.Machine
end

section
/-! PROOFS. The conversion of float64 to integers (rules R240, R241): the integer part of a value from its sign and the
integer part of its magnitude, the saturation, and the datapath. -/

namespace Sys2Proof.Machine

section Value

variable {K : Type} [Field K] [LinearOrder K] [FloorRing K]

/-- `trunc(x)` (rule R240): the integer part, rounded toward zero. -/
def integerPart (x : K) : ℤ := if 0 ≤ x then ⌊x⌋ else ⌈x⌉

@[simp] theorem integerPart_intCast [IsStrictOrderedRing K] (v : ℤ) : integerPart (v : K) = v := by
  simp [integerPart]

variable [IsStrictOrderedRing K]

/-- An integer with the given sign and magnitude. -/
def signedNat (s : Bool) (n : ℕ) : ℤ := if s then -n else n

/-- Rounding toward zero rounds the magnitude down and keeps the sign. -/
theorem integerPart_val (b : F64) : integerPart (val K b) = signedNat (signOf b) ⌊|val K b|⌋₊ := by
  have hfloor := Int.natCast_floor_eq_floor (abs_nonneg (val K b))
  have hval := val_eq_signFactor_mul (K := K) b
  cases hs : signOf b
  · rw [abs_val_of_signOf_false hs] at hfloor ⊢
    rw [integerPart, if_pos (abs_val_of_signOf_false (K := K) hs ▸ abs_nonneg _), ← hfloor]
    rfl
  · rw [hs, signFactor, if_pos rfl, neg_one_mul] at hval
    have hceil : ⌈val K b⌉ = -⌊|val K b|⌋ := by rw [← Int.ceil_neg, ← hval]
    rw [signedNat, if_pos rfl, hfloor, ← hceil, integerPart]
    split_ifs with hnonneg
    · rw [le_antisymm (hval ▸ neg_nonpos.mpr (abs_nonneg _)) hnonneg, Int.floor_zero, Int.ceil_zero]
    · rfl

/-- `trunc(val(a))` computed in units (rule R240). -/
theorem truncF_eq_integerPart (b : F64) : truncF b = integerPart (val K b) := by
  rw [integerPart_val, abs_val_eq_magUnits, Nat.floor_div_eq_div, truncF, valUnits, signedNat]
  split_ifs
  · rw [Int.neg_tdiv, Int.ofNat_tdiv]
  · rw [Int.ofNat_tdiv]

end Value

/-- `f2i(a, lo, hi)` of rule R240 over the exact value. -/
def truncSaturated (a : F64) (lo hi : ℤ) : ℤ :=
  if cat a = .nan then 0
  else if cat a = .infinite then (if signOf a then lo else hi)
  else max lo (min hi (integerPart (val ℚ a)))

/-- Saturating at the ends of a range is clamping to it. -/
theorem clamp_eq {lo hi : ℤ} (h : lo ≤ hi) (t : ℤ) :
    (if hi < t then hi else if t < lo then lo else t) = max lo (min hi t) := by
  split_ifs <;> omega

theorem f2i_eq_truncSaturated (a : F64) {lo hi : ℤ} (h : lo ≤ hi) : f2i a lo hi = truncSaturated a lo hi := by
  rw [f2i, truncSaturated]
  simp only [clamp_eq h, truncF_eq_integerPart (K := ℚ)]

/-- What is converted exactly comes back where it is in range (rule R231(c)). -/
theorem f2i_i2f {v lo hi : ℤ} (hv : v.natAbs ≤ 2 ^ 53) (hlo : lo ≤ v) (hhi : v ≤ hi) : f2i (i2f v) lo hi = v := by
  obtain ⟨hnan, hinf⟩ := isFinite_iff_ne.mp (isFinite_i2f (v := v) (hv.trans (by norm_num)))
  rw [f2i_eq_truncSaturated _ (hlo.trans hhi), truncSaturated, if_neg hnan, if_neg hinf, val_i2f ℚ hv,
    integerPart_intCast, min_eq_right hhi, max_eq_right hlo]

/-! The datapath: the significand without its fractional bits (rule R241). -/

/-- The magnitude's integer part: nothing below 1, and else the significand shifted to the binary point. -/
theorem floor_abs_val_eq_shift {b : F64} (hb : isFinite b = true) : ⌊|val ℚ b|⌋₊ =
    if (unpack b).e < 0 then 0
    else if (unpack b).e ≤ 52 then (unpack b).m >>> (52 - (unpack b).e).toNat
    else (unpack b).m <<< ((unpack b).e - 52).toNat := by
  by_cases h0 : expOf b = 0
  · rw [Nat.floor_eq_zero.mpr (abs_val_lt_one (by omega)), (unpack_of_expOf_eq_zero h0).1, if_pos (by norm_num)]
  obtain ⟨he, hm⟩ := unpack_of_normal (cat_eq_normal_of_expOf h0 (isFinite_iff_expOf.mp hb))
  rw [he, hm]
  split_ifs with hsmall hmid
  · exact Nat.floor_eq_zero.mpr (abs_val_lt_one (by omega))
  · rw [abs_val_eq_div (by omega) (by omega), Nat.floor_div_eq_div, Nat.shiftRight_eq_div_pow,
      show (52 - ((expOf b : ℤ) - 1023)).toNat = 1075 - expOf b by omega]
  · rw [abs_val_eq_natCast (by omega), Nat.floor_natCast, Nat.shiftLeft_eq,
      show ((expOf b : ℤ) - 1023 - 52).toNat = expOf b - 1075 by omega]

theorem truncDatapath_eq {b : F64} (hb : isFinite b = true) :
    truncDatapath b = signedNat (signOf b) ⌊|val ℚ b|⌋₊ := by
  rw [floor_abs_val_eq_shift hb, truncDatapath, unpack_s]
  rfl

end Sys2Proof.Machine
end

section
/-! PROOFS. Integer operands and results in the request and response fields (rules R66, R68), and that narrow integers
come back through float64 (rule R231(c)). -/

namespace Sys2Proof.Machine

theorem signedOperand_eq {n : ℕ} (hn : n ≤ 64) (a : F64) : signedOperand n a = (a.setWidth n).toInt := by
  rw [signedOperand, BitVec.setWidth_eq_extractLsb' hn]

theorem unsignedOperand_eq {n : ℕ} (hn : n ≤ 64) (a : F64) : unsignedOperand n a = (a.setWidth n).toNat := by
  rw [unsignedOperand, BitVec.setWidth_eq_extractLsb' hn]

theorem signedResult_64 (v : ℤ) : signedResult 64 v = BitVec.ofInt 64 v := BitVec.signExtend_eq _

theorem unsignedResult_64 (v : ℤ) : unsignedResult 64 v = BitVec.ofInt 64 v := BitVec.setWidth_eq _

theorem signedResult_f2i_i2f {n : ℕ} (hn : n ≤ 53) (a : F64) :
    signedResult n (f2i (i2f (signedOperand n a)) (-2 ^ (n - 1)) (2 ^ (n - 1) - 1)) =
      (a.setWidth n).signExtend 64 := by
  have hlo := BitVec.le_toInt (a.setWidth n)
  have hhi := BitVec.toInt_lt (x := a.setWidth n)
  have hpow : (2 : ℤ) ^ (n - 1) ≤ 2 ^ 53 := pow_le_pow_right₀ one_le_two (by omega)
  rw [signedOperand_eq (by omega), f2i_i2f (by omega) hlo (by omega), signedResult, BitVec.ofInt_toInt]

theorem unsignedResult_f2i_i2f {n : ℕ} (hn : n ≤ 53) (a : F64) :
    unsignedResult n (f2i (i2f (unsignedOperand n a)) 0 (2 ^ n - 1)) = (a.setWidth n).setWidth 64 := by
  have hlt : ((a.setWidth n).toNat : ℤ) < 2 ^ n := by exact_mod_cast (a.setWidth n).isLt
  have hpow : (2 : ℤ) ^ n ≤ 2 ^ 53 := pow_le_pow_right₀ one_le_two hn
  rw [unsignedOperand_eq (by omega), f2i_i2f (by omega) (by omega) (by omega), unsignedResult, BitVec.ofInt_natCast,
    BitVec.ofNat_toNat, BitVec.setWidth_eq]

end Sys2Proof.Machine
end

section
/-! PROOFS. The statements about the integer converters. -/

namespace Sys2Proof.Proofs

open Machine

theorem natAbs_le_of_abs_le {v : ℤ} {n : ℕ} (h : |v| ≤ 2 ^ n) : v.natAbs ≤ 2 ^ n := by
  rw [Int.abs_eq_natAbs] at h
  exact_mod_cast h

/-- A response determines its result. -/
theorem result_eq_of_next_eq {s : State} {r r' : F64}
    (h : (.next (s.respond (Resp.ofR r)) : Host.Outcome State Fault Refusal) = .next (s.respond (Resp.ofR r'))) :
    r = r' := congrArg (fun t : State => t.resp.r) (Host.Outcome.next.inj h)

/-- Settles O40: one rounding of the magnitude, exact where 53 bits hold it; zero is its own case of the category. -/
theorem intToFloatExact : Obligations.IntToFloatExact := by
  refine ⟨i2f_eq_rneSigned ℚ, fun v hv => val_i2f ℚ (natAbs_le_of_abs_le hv), fun v hv => ?_,
    fun v w _ _ hle => key_i2f_mono hle, fun v h0 => i2f_neg h0⟩
  rcases eq_or_ne v 0 with rfl | h0
  · decide
  · have hnormal := cat_i2f h0 (natAbs_le_of_abs_le hv)
    exact ⟨.inr hnormal, fun h => absurd (h ▸ hnormal) (by decide)⟩

/-- Settles O39: each operation converts its operand by `i2f`. -/
theorem intToFloatResult : Obligations.IntToFloatResult := by
  have signed (s : State) {n : ℕ} (hn : n ≤ 64) := next_congr s (congrArg i2f (signedOperand_eq hn s.req.a))
  have unsigned (s : State) {n : ℕ} (hn : n ≤ 64) := next_congr s (congrArg i2f (unsignedOperand_eq hn s.req.a))
  obtain ⟨hround, hexact, -⟩ := intToFloatExact
  refine ⟨i2f, hround, hexact, fun s => ⟨signed s ?_, unsigned s ?_, signed s ?_, unsigned s ?_, signed s ?_,
    unsigned s ?_, ?_, ?_⟩⟩
  case refine_7 => exact (signed s le_rfl).trans (by rw [BitVec.setWidth_eq])
  case refine_8 => exact (unsigned s le_rfl).trans (by rw [BitVec.setWidth_eq])
  all_goals norm_num

/-- Settles O41: each operation saturates at the ends of a range that is not empty. -/
theorem floatToIntResult : Obligations.FloatToIntResult := by
  have signed (s : State) (n : ℕ) {lo hi : ℤ} (h : lo ≤ hi) :=
    next_congr s (congrArg (signedResult n) (f2i_eq_truncSaturated s.req.a h))
  have unsigned (s : State) (n : ℕ) {lo hi : ℤ} (h : lo ≤ hi) :=
    next_congr s (congrArg (unsignedResult n) (f2i_eq_truncSaturated s.req.a h))
  refine ⟨truncSaturated, fun a lo hi => rfl, fun s => ⟨signed s 8 ?_, unsigned s 8 ?_, signed s 16 ?_,
    unsigned s 16 ?_, signed s 32 ?_, unsigned s 32 ?_, ?_, ?_⟩⟩
  case refine_7 => exact (signed s 64 (by norm_num)).trans (next_congr s (signedResult_64 _))
  case refine_8 => exact (unsigned s 64 (by norm_num)).trans (next_congr s (unsignedResult_64 _))
  all_goals norm_num

/-- Settles O42: the result of I2F is `i2f` of the operand, which F2I of the same type gives back. -/
theorem integerRoundTrip : Obligations.IntegerRoundTrip := by
  intro i j n signed hmem s s' r hexec hr
  simp only [List.mem_cons, Prod.mk.injEq, List.not_mem_nil, or_false] at hmem
  rcases hmem with ⟨rfl, rfl, rfl, rfl⟩ | ⟨rfl, rfl, rfl, rfl⟩ | ⟨rfl, rfl, rfl, rfl⟩ | ⟨rfl, rfl, rfl, rfl⟩ |
    ⟨rfl, rfl, rfl, rfl⟩ | ⟨rfl, rfl, rfl, rfl⟩ <;>
    refine next_congr s' ?_ <;> rw [hr, ← result_eq_of_next_eq hexec]
  case inl | inr.inr.inl | inr.inr.inr.inr.inl => exact signedResult_f2i_i2f (by norm_num) s.req.a
  all_goals exact unsignedResult_f2i_i2f (by norm_num) s.req.a

/-- Settles O43: the shifted significand, and the integer part of a magnitude below 1. -/
theorem conversionDatapaths : Obligations.ConversionDatapaths := by
  refine ⟨fun v h0 _ => i2fDatapath_eq_i2f h0, fun a ha => ⟨?_, fun hlt => ?_⟩⟩
  · exact (truncDatapath_eq ha).trans (integerPart_val a).symm
  · rw [truncDatapath_eq ha, Nat.floor_eq_zero.mpr hlt, signedNat, Nat.cast_zero, neg_zero, ite_self]

end Sys2Proof.Proofs
end

section
/-! PROOFS. The float32 patterns (rule R260): sign and exponent and fraction fields, the categories by the fields, the
exact magnitude, and the thresholds of rule R263. -/

namespace Sys2Proof.Machine

theorem expOf32_lt (w : F32) : expOf32 w < 2 ^ 8 := (w.extractLsb' 23 8).isLt

theorem fracOf32_lt (w : F32) : fracOf32 w < 2 ^ 23 := (w.extractLsb' 0 23).isLt

/-- The exponent and fraction fields of a float32 pattern as one number. -/
def fieldOf32 (w : F32) : ℕ := expOf32 w * 2 ^ 23 + fracOf32 w

theorem fieldOf32_eq_toNat (w : F32) : fieldOf32 w = (w.extractLsb' 0 31).toNat := by
  simp only [fieldOf32, expOf32, fracOf32, BitVec.extractLsb'_toNat, Nat.shiftRight_eq_div_pow]
  omega

/-- The float32 pattern with the given sign and the fields `m`. -/
def ofField32 (s : Bool) (m : ℕ) : F32 := BitVec.ofBool s ++ BitVec.ofNat 31 m

@[simp] theorem signOf32_ofField32 (s : Bool) (m : ℕ) : signOf32 (ofField32 s m) = s := by
  rw [signOf32, ofField32, BitVec.getLsbD_append]
  exact BitVec.getLsbD_ofBool ..

theorem fieldOf32_ofField32 (s : Bool) {m : ℕ} (hm : m < 2 ^ 31) : fieldOf32 (ofField32 s m) = m := by
  rw [fieldOf32_eq_toNat, ofField32, BitVec.extractLsb'_append_eq_right, BitVec.toNat_ofNat, Nat.mod_eq_of_lt hm]

/-- A float32 pattern is its sign and its exponent and fraction fields. -/
@[simp] theorem ofField32_fields (w : F32) : ofField32 (signOf32 w) (fieldOf32 w) = w := by
  have hsign : w.extractLsb' 31 1 = BitVec.ofBool (signOf32 w) := by
    ext i hi
    simp [signOf32, show i = 0 by omega]
  rw [ofField32, fieldOf32_eq_toNat, BitVec.ofNat_toNat, BitVec.setWidth_eq, ← hsign]
  exact (BitVec.extractLsb'_append_extractLsb'_eq_extractLsb' rfl).trans BitVec.extractLsb'_eq_self

theorem ofField32_inj (s : Bool) {m n : ℕ} (hm : m < 2 ^ 31) (hn : n < 2 ^ 31) :
    ofField32 s m = ofField32 s n ↔ m = n := by
  refine ⟨fun h => ?_, congrArg _⟩
  rw [← fieldOf32_ofField32 s hm, h, fieldOf32_ofField32 s hn]

/-! The categories by the fields. -/

theorem infField_binary32 : binary32.infField = 255 * 2 ^ 23 := rfl

theorem cat32_eq_of_fieldOf32 (w : F32) : cat32 w =
    if fieldOf32 w = 0 then .zero else if fieldOf32 w < 2 ^ 23 then .subnormal
    else if fieldOf32 w < binary32.infField then .normal
    else if fieldOf32 w = binary32.infField then .infinite else .nan := by
  have he := expOf32_lt w
  have hf := fracOf32_lt w
  rw [cat32, fieldOf32, infField_binary32]
  split_ifs
  any_goals rfl
  all_goals omega

theorem cat32_eq_nan_iff {w : F32} : cat32 w = .nan ↔ binary32.infField < fieldOf32 w := by
  rw [cat32_eq_of_fieldOf32, infField_binary32]
  split_ifs <;> simp <;> omega

theorem cat32_eq_infinite_iff {w : F32} : cat32 w = .infinite ↔ fieldOf32 w = binary32.infField := by
  rw [cat32_eq_of_fieldOf32, infField_binary32]
  split_ifs <;> simp <;> omega

theorem cat32_eq_zero_iff {w : F32} : cat32 w = .zero ↔ fieldOf32 w = 0 := by
  rw [cat32_eq_of_fieldOf32]
  split_ifs <;> simp_all

theorem fieldOf32_lt_infField_iff {w : F32} :
    fieldOf32 w < binary32.infField ↔ cat32 w ≠ .nan ∧ cat32 w ≠ .infinite := by
  rw [Ne, Ne, cat32_eq_nan_iff, cat32_eq_infinite_iff]
  omega

/-- The non-zero finite patterns. -/
theorem cat32_subnormal_or_normal_iff {w : F32} :
    cat32 w = .subnormal ∨ cat32 w = .normal ↔ 0 < fieldOf32 w ∧ fieldOf32 w < binary32.infField := by
  rw [cat32_eq_of_fieldOf32, infField_binary32]
  split_ifs <;> simp <;> omega

section Value

variable {K : Type} [Field K]

/-- Fields 0 are those of zero, in every format. -/
@[simp] theorem fieldVal_zero (f : Format) : f.fieldVal K 0 = 0 := by simp [Format.fieldVal, fieldUnits]

variable [LinearOrder K] [IsStrictOrderedRing K]

theorem fieldVal_binary32 {j n : ℕ} (hn : n ≤ 2 ^ 24) (hj : j = 0 ∨ 2 ^ 23 ≤ n) :
    binary32.fieldVal K (j * 2 ^ 23 + n) = n * 2 ^ ((j : ℤ) - 149) := by
  refine (Format.fieldVal_add (f := binary32) hn hj Format.regular_binary32).trans ?_
  rw [Format.ulp, show binary32.emin = -126 from rfl, show binary32.P = 24 from rfl]
  congr 2
  push_cast
  ring

/-- The magnitude of a float32 pattern (rule R260) as a significand at an exponent. -/
theorem abs_val32 (w : F32) : |val32 K w| =
    if expOf32 w = 0 then (fracOf32 w : K) * 2 ^ (-149 : ℤ)
    else ((2 : K) ^ 23 + fracOf32 w) * 2 ^ ((expOf32 w : ℤ) - 150) := by
  have hval : val32 K w = signFactor K (signOf32 w) * _ := rfl
  rw [hval, abs_mul, abs_signFactor, one_mul, abs_of_nonneg]
  split_ifs <;> positivity

/-- A float32 value is its sign and its magnitude. -/
theorem val32_eq_signFactor_mul (w : F32) : val32 K w = signFactor K (signOf32 w) * |val32 K w| := by
  rw [abs_val32]
  rfl

/-- The magnitude of a float32 pattern is that of its fields. -/
theorem abs_val32_eq_fieldVal (w : F32) : |val32 K w| = binary32.fieldVal K (fieldOf32 w) := by
  have hf := fracOf32_lt w
  rw [abs_val32, fieldOf32]
  split_ifs with h0
  · rw [h0, fieldVal_binary32 (by omega) (.inl rfl)]
    norm_num
  · obtain ⟨j, hj⟩ := Nat.exists_eq_succ_of_ne_zero h0
    rw [hj, show j.succ * 2 ^ 23 + fracOf32 w = j * 2 ^ 23 + (2 ^ 23 + fracOf32 w) by omega,
      fieldVal_binary32 (by omega) (.inr (Nat.le_add_right ..))]
    push_cast
    ring_nf

/-- The magnitude in units of `2^-149`. -/
theorem abs_val32_eq_magUnits32 (w : F32) : |val32 K w| = (magUnits32 w : K) / ((2 ^ 149 : ℕ) : K) := by
  rw [abs_val32, magUnits32, two_pow_cast, div_eq_mul_inv, ← zpow_natCast (2 : K) 149, ← zpow_neg]
  split_ifs with h0
  · rfl
  · obtain ⟨j, hj⟩ := Nat.exists_eq_succ_of_ne_zero h0
    rw [hj, Nat.cast_mul, two_pow_cast, Nat.cast_add, two_pow_cast, mul_assoc, ← zpow_natCast (2 : K) (j.succ - 1),
      ← zpow_add₀ two_ne_zero]
    congr 2
    push_cast
    omega

/-- The midpoint above zero: half the least float32 subnormal (rule R263). -/
theorem midpoint_binary32_zero : binary32.midpoint K 0 = 2 ^ (-150 : ℤ) := by
  have h := Format.midpoint_add (K := K) (f := binary32) (j := 0) (n := 0) (by decide) (.inl rfl)
    Format.regular_binary32
  rw [Nat.zero_mul, Nat.add_zero, Nat.cast_zero, zero_add, Format.half_mul_ulp] at h
  exact h

/-- The overflow threshold of float32 (rule R263). -/
theorem midpoint_binary32_max : binary32.midpoint K (binary32.infField - 1) = 2 ^ 128 - 2 ^ 103 := by
  have h := Format.midpoint_add (K := K) (f := binary32) (j := 253) (n := 2 ^ 24 - 1) (by decide) (.inr (by decide))
    Format.regular_binary32
  refine h.trans ?_
  rw [Format.ulp, show binary32.emin + (253 : ℕ) - ((binary32.P : ℤ) - 1) = (104 : ℕ) by decide, zpow_natCast]
  norm_num

end Value

end Sys2Proof.Machine
end

section
/-! PROOFS. The widening of float32 patterns (rule R262): one rounding of the exact value, which is a value of a normal
float64 pattern, the one the datapath assembles. -/

namespace Sys2Proof.Machine

/-! A float64 pattern with a significand of 24 bits, the leading one dropped and 29 zeros below. -/

/-- The normal float64 pattern of the significand `M` of 24 bits and the biased exponent `e`. -/
def ofSignificand24 (s : Bool) (e M : ℕ) : F64 := ofFields s e ((M - 2 ^ 23) * 2 ^ 29)

theorem append_zeros_eq_ofSignificand24 (s : Bool) (e M : ℕ) :
    BitVec.ofBool s ++ BitVec.ofNat 11 e ++ BitVec.ofNat 23 (M - 2 ^ 23) ++ 0#29 = ofSignificand24 s e M := by
  have hfrac : BitVec.ofNat 23 (M - 2 ^ 23) ++ 0#29 = BitVec.ofNat 52 ((M - 2 ^ 23) * 2 ^ 29) := by
    rw [← BitVec.toNat_inj, BitVec.toNat_append, BitVec.toNat_ofNat, BitVec.toNat_ofNat, BitVec.toNat_ofNat,
      Nat.zero_mod, Nat.or_zero, Nat.shiftLeft_eq]
    omega
  rw [ofSignificand24, ofFields, ← hfrac, BitVec.append_assoc]
  rfl

theorem fieldOf_ofSignificand24 (s : Bool) {j M : ℕ} (hj : j < 2046) (hM : 2 ^ 23 ≤ M) (hM' : M < 2 ^ 24) :
    fieldOf (ofSignificand24 s (j + 1) M) = j * 2 ^ 52 + M * 2 ^ 29 := by
  rw [ofSignificand24, fieldOf, expOf_ofFields _ _ (by omega), fracOf_ofFields _ _ (by omega)]
  omega

theorem cat_ofSignificand24 (s : Bool) {j M : ℕ} (hj : j < 2046) (hM : 2 ^ 23 ≤ M) (hM' : M < 2 ^ 24) :
    cat (ofSignificand24 s (j + 1) M) = .normal := by
  refine cat_eq_normal_of_fieldOf ?_ ?_
  all_goals
    simp only [fieldOf_ofSignificand24 s hj hM hM', infField_binary64]
    omega

section Value

variable {K : Type} [Field K] [LinearOrder K] [IsStrictOrderedRing K]

theorem abs_val_ofSignificand24 (s : Bool) {j M : ℕ} (hj : j < 2046) (hM : 2 ^ 23 ≤ M) (hM' : M < 2 ^ 24) :
    |val K (ofSignificand24 s (j + 1) M)| = M * 2 ^ ((j : ℤ) - 1045) := by
  rw [abs_val_eq_fieldVal, fieldOf_ofSignificand24 s hj hM hM', fieldVal_binary64 (by omega) (.inr (by omega)),
    Nat.cast_mul, two_pow_cast, mul_assoc, ← zpow_natCast, ← zpow_add₀ two_ne_zero]
  congr 2
  push_cast
  ring

variable (K) in
/-- The datapath's pattern has a significand of 24 bits: that of the float32 pattern, normalised for a subnormal. -/
theorem exists_widenDatapath_eq {w : F32} (hpos : 0 < fieldOf32 w) (hfin : fieldOf32 w < binary32.infField) :
    ∃ j M : ℕ, j < 2046 ∧ 2 ^ 23 ≤ M ∧ M < 2 ^ 24 ∧ widenDatapath w = ofSignificand24 (signOf32 w) (j + 1) M ∧
      |val32 K w| = M * 2 ^ ((j : ℤ) - 1045) := by
  have he := expOf32_lt w
  have hf := fracOf32_lt w
  rw [infField_binary32] at hfin
  simp only [fieldOf32] at hpos hfin
  rw [abs_val32, widenDatapath, cat32]
  by_cases h0 : expOf32 w = 0
  · have hf0 : fracOf32 w ≠ 0 := by omega
    obtain ⟨hlo, hhi⟩ := normalise_bounds (k := 23) hf0 (by omega)
    simp only [if_pos h0, if_neg hf0, if_true, Nat.log2_eq_log_two, Nat.shiftLeft_eq]
    refine ⟨896 - (23 - Nat.log 2 (fracOf32 w)), _, by omega, hlo, hhi, ?_, ?_⟩
    · rw [append_zeros_eq_ofSignificand24]
      congr 1
      omega
    · rw [Nat.cast_mul, two_pow_cast, mul_assoc, ← zpow_natCast, ← zpow_add₀ two_ne_zero]
      congr 2
      omega
  · have h255 : expOf32 w ≠ 255 := by omega
    simp only [if_neg h0, if_neg h255, reduceCtorEq, if_false]
    refine ⟨expOf32 w + 895, 2 ^ 23 + fracOf32 w, by omega, by omega, by omega, ?_, ?_⟩
    · rw [← append_zeros_eq_ofSignificand24, Nat.add_sub_cancel_left]
    · rw [Nat.cast_add, two_pow_cast, show ((expOf32 w + 895 : ℕ) : ℤ) - 1045 = expOf32 w - 150 by omega]

theorem signOf_widenDatapath {w : F32} (hpos : 0 < fieldOf32 w) (hfin : fieldOf32 w < binary32.infField) :
    signOf (widenDatapath w) = signOf32 w := by
  obtain ⟨j, M, -, -, -, heq, -⟩ := exists_widenDatapath_eq ℚ hpos hfin
  rw [heq, ofSignificand24, signOf_ofFields]

theorem cat_widenDatapath {w : F32} (hpos : 0 < fieldOf32 w) (hfin : fieldOf32 w < binary32.infField) :
    cat (widenDatapath w) = .normal := by
  obtain ⟨j, M, hj, hM, hM', heq, -⟩ := exists_widenDatapath_eq ℚ hpos hfin
  rw [heq, cat_ofSignificand24 _ hj hM hM']

variable (K) in
theorem abs_val_widenDatapath {w : F32} (hpos : 0 < fieldOf32 w) (hfin : fieldOf32 w < binary32.infField) :
    |val K (widenDatapath w)| = |val32 K w| := by
  obtain ⟨j, M, hj, hM, hM', heq, hval⟩ := exists_widenDatapath_eq K hpos hfin
  rw [heq, abs_val_ofSignificand24 _ hj hM hM', hval]

variable [FloorRing K]

variable (K) in
/-- A finite pattern is the rounding of its own value (rule R116(a)). -/
theorem rneOn_abs_val {b : F64} (hb : isFinite b = true) : rneOn (signOf b) |val K b| = b := by
  refine eq_of_fieldOf_eq (signOf_rneOn ..) ?_
  rw [fieldOf_rneOn _ (abs_nonneg _), abs_val_eq_fieldVal,
    roundOn_fieldVal Format.regular_binary64 (isFinite_iff_fieldOf.mp hb)]

/-! Widening of each category (rule R262). -/

theorem widenF_of_nan {w : F32} (h : cat32 w = .nan) : widenF w = canonNaN := if_pos h

theorem widenF_of_infinite {w : F32} (h : cat32 w = .infinite) : widenF w = infF (signOf32 w) := by
  rw [widenF, h, if_neg (by decide), if_pos rfl]

theorem widenF_of_zero {w : F32} (h : cat32 w = .zero) : widenF w = zeroF (signOf32 w) := by
  rw [widenF, h, if_neg (by decide), if_neg (by decide), if_pos rfl]

variable (K) in
/-- Widening rounds the exact value once; zero is its own rounding. -/
theorem widenF_eq_rneOn {w : F32} (hfin : fieldOf32 w < binary32.infField) :
    widenF w = rneOn (signOf32 w) |val32 K w| := by
  obtain ⟨hnan, hinf⟩ := fieldOf32_lt_infField_iff.mp hfin
  rw [widenF, if_neg hnan, if_neg hinf, rne_eq_rneOn (K := K) _ _ _ (by positivity), ← abs_val32_eq_magUnits32]
  split_ifs with hz
  · rw [abs_val32_eq_fieldVal, cat32_eq_zero_iff.mp hz, fieldVal_zero, rneOn, roundOn, if_pos rfl]
    rfl
  · rfl

theorem widenF_eq_widenDatapath {w : F32} (hpos : 0 < fieldOf32 w) (hfin : fieldOf32 w < binary32.infField) :
    widenF w = widenDatapath w := by
  have hnormal := isFinite_iff.mpr (.inr (.inr (cat_widenDatapath hpos hfin)))
  rw [widenF_eq_rneOn ℚ hfin, ← signOf_widenDatapath hpos hfin, ← abs_val_widenDatapath ℚ hpos hfin,
    rneOn_abs_val ℚ hnormal]

theorem signOf_widenF {w : F32} (h : cat32 w ≠ .nan) : signOf (widenF w) = signOf32 w := by
  by_cases hinf : cat32 w = .infinite
  · rw [widenF_of_infinite hinf]
    exact signOf_ofField _ binary64.infField
  · rw [widenF_eq_rneOn ℚ (fieldOf32_lt_infField_iff.mpr ⟨h, hinf⟩), signOf_rneOn]

theorem isFinite_widenF {w : F32} (hfin : fieldOf32 w < binary32.infField) : isFinite (widenF w) = true := by
  rcases Nat.eq_zero_or_pos (fieldOf32 w) with h0 | hpos
  · rw [widenF_of_zero (cat32_eq_zero_iff.mpr h0)]
    cases signOf32 w <;> rfl
  · rw [widenF_eq_widenDatapath hpos hfin]
    exact isFinite_iff.mpr (.inr (.inr (cat_widenDatapath hpos hfin)))

variable (K) in
omit [FloorRing K] in
/-- Widening is exact (rule R262). -/
theorem val_widenF {w : F32} (hfin : fieldOf32 w < binary32.infField) : val K (widenF w) = val32 K w := by
  have habs : |val K (widenF w)| = |val32 K w| := by
    rcases Nat.eq_zero_or_pos (fieldOf32 w) with h0 | hpos
    · rw [widenF_of_zero (cat32_eq_zero_iff.mpr h0), abs_val32_eq_fieldVal, h0, fieldVal_zero, abs_eq_zero]
      exact val_of_zero (by cases signOf32 w <;> rfl)
    · rw [widenF_eq_widenDatapath hpos hfin, abs_val_widenDatapath K hpos hfin]
  rw [val_eq_signFactor_mul, habs, signOf_widenF (fieldOf32_lt_infField_iff.mp hfin).1, ← val32_eq_signFactor_mul]

end Value

end Sys2Proof.Machine
end

section
/-! PROOFS. The narrowing of float64 patterns (rule R263): one rounding with its thresholds, the fields of its result in
the order of the operand's fields, and narrowing and widening one after the other (rule R264). -/

namespace Sys2Proof.Machine

/-! The categories of float64 patterns by the fields. -/

theorem cat_eq_infinite_iff {b : F64} : cat b = .infinite ↔ fieldOf b = binary64.infField := by
  have hf := fracOf_lt b
  rw [cat_eq_iff, fieldOf, infField_binary64]
  simp only [Category.exps, Category.fracs, Finset.mem_singleton]
  omega

/-! Narrowing of each category (rule R263). -/

theorem narrowF_of_nan {a : F64} (h : cat a = .nan) : narrowF a = canonNaN32 := if_pos h

theorem narrowF_of_infinite {a : F64} (h : cat a = .infinite) : narrowF a = infF32 (signOf a) := by
  rw [narrowF, h, if_neg (by decide), if_pos rfl]

theorem narrowF_of_zero {a : F64} (h : cat a = .zero) : narrowF a = zeroF32 (signOf a) := by
  rw [narrowF, h, if_neg (by decide), if_neg (by decide), if_pos rfl]

section Value

variable (K : Type) [Field K] [LinearOrder K] [IsStrictOrderedRing K] [FloorRing K]

/-- Narrowing rounds the exact value once to float32; zero is its own rounding. -/
theorem narrowF_eq_rne32On {a : F64} (ha : isFinite a = true) : narrowF a = rne32On (signOf a) |val K a| := by
  obtain ⟨hnan, hinf⟩ := isFinite_iff_ne.mp ha
  rw [narrowF, if_neg hnan, if_neg hinf, rne32_eq_rne32On (K := K) _ _ _ unitsPerOne_pos_nat, ← abs_val_eq_magUnits]
  split_ifs with hz
  · rw [val_of_zero hz, abs_zero, rne32On, roundOn, if_pos rfl]
    rfl
  · rfl

variable {K}

theorem roundOn_binary32_lt {q : K} (hq : 0 ≤ q) : roundOn binary32 q < 2 ^ 31 :=
  (roundOn_le_infField Format.regular_binary32 hq).trans_lt (by decide)

theorem rne32On_eq_ofField32_iff (s : Bool) {q : K} (hq : 0 ≤ q) {m : ℕ} (hm : m < 2 ^ 31) :
    rne32On s q = ofField32 s m ↔ roundOn binary32 q = m := ofField32_inj s (roundOn_binary32_lt hq) hm

/-- Overflow of the rounding to float32 (rule R263). -/
theorem rne32On_eq_infF32_iff (s : Bool) {q : K} (hq : 0 ≤ q) : rne32On s q = infF32 s ↔ 2 ^ 128 - 2 ^ 103 ≤ q := by
  have hfmt := Format.regular_binary32
  rw [show infF32 s = ofField32 s binary32.infField from rfl, rne32On_eq_ofField32_iff s hq (by decide),
    ← midpoint_binary32_max, ← not_lt, ← roundOn_lt_infField_iff hfmt hq, not_lt]
  exact ⟨ge_of_eq, (roundOn_le_infField hfmt hq).antisymm⟩

/-- Underflow of the rounding to float32; the tie goes to zero (rule R263). -/
theorem rne32On_eq_zeroF32_iff (s : Bool) {q : K} (hq : 0 ≤ q) : rne32On s q = zeroF32 s ↔ q ≤ 2 ^ (-150 : ℤ) := by
  rw [show zeroF32 s = ofField32 s 0 from rfl, rne32On_eq_ofField32_iff s hq (by decide), ← Nat.le_zero,
    roundOn_le_iff Format.regular_binary32 hq (by decide), midpoint_binary32_zero, le_iff_lt_or_eq, and_iff_left rfl]

variable (K) in
theorem fieldOf32_narrowF_of_finite {a : F64} (ha : isFinite a = true) :
    fieldOf32 (narrowF a) = roundOn binary32 (binary64.fieldVal K (fieldOf a)) := by
  rw [narrowF_eq_rne32On K ha, ← abs_val_eq_fieldVal]
  exact fieldOf32_ofField32 _ (roundOn_binary32_lt (abs_nonneg _))

end Value

theorem signOf32_narrowF {a : F64} (ha : cat a ≠ .nan) : signOf32 (narrowF a) = signOf a := by
  by_cases hinf : cat a = .infinite
  · rw [narrowF_of_infinite hinf]
    exact signOf32_ofField32 _ binary32.infField
  · rw [narrowF_eq_rne32On ℚ (isFinite_iff_ne.mpr ⟨ha, hinf⟩)]
    exact signOf32_ofField32 ..

theorem fieldOf32_narrowF_of_infinite {a : F64} (ha : cat a = .infinite) :
    fieldOf32 (narrowF a) = binary32.infField := by
  rw [narrowF_of_infinite ha]
  exact fieldOf32_ofField32 _ (by decide)

/-- Narrowing makes no NaN. -/
theorem fieldOf32_narrowF_le {a : F64} (ha : cat a ≠ .nan) : fieldOf32 (narrowF a) ≤ binary32.infField := by
  by_cases hinf : cat a = .infinite
  · exact (fieldOf32_narrowF_of_infinite hinf).le
  · rw [fieldOf32_narrowF_of_finite ℚ (isFinite_iff_ne.mpr ⟨ha, hinf⟩)]
    exact roundOn_le_infField Format.regular_binary32 (Format.fieldVal_nonneg ..)

theorem cat32_narrowF_ne_nan {a : F64} (ha : cat a ≠ .nan) : cat32 (narrowF a) ≠ .nan :=
  fun h => (fieldOf32_narrowF_le ha).not_gt (cat32_eq_nan_iff.mp h)

/-! Both conversions keep the order of the magnitudes, as one rounding does (rule R264(d)). -/

theorem fieldOf32_narrowF_mono {a b : F64} (ha : cat a ≠ .nan) (hb : cat b ≠ .nan) (hle : fieldOf a ≤ fieldOf b) :
    fieldOf32 (narrowF a) ≤ fieldOf32 (narrowF b) := by
  by_cases hinf : cat b = .infinite
  · exact (fieldOf32_narrowF_le ha).trans_eq (fieldOf32_narrowF_of_infinite hinf).symm
  · have hbfin := isFinite_iff_ne.mpr ⟨hb, hinf⟩
    have hafin := isFinite_iff_fieldOf.mpr (hle.trans_lt (isFinite_iff_fieldOf.mp hbfin))
    rw [fieldOf32_narrowF_of_finite ℚ hafin, fieldOf32_narrowF_of_finite ℚ hbfin]
    exact roundOn_mono Format.regular_binary32 (Format.fieldVal_nonneg ..) (binary64.fieldVal_strictMono.monotone hle)

theorem fieldOf_widenF_of_finite {w : F32} (hfin : fieldOf32 w < binary32.infField) :
    fieldOf (widenF w) = roundOn binary64 (binary32.fieldVal ℚ (fieldOf32 w)) := by
  rw [widenF_eq_rneOn ℚ hfin, fieldOf_rneOn _ (abs_nonneg _), abs_val32_eq_fieldVal]

theorem fieldOf_widenF_of_infinite {w : F32} (h : cat32 w = .infinite) : fieldOf (widenF w) = binary64.infField := by
  rw [widenF_of_infinite h]
  exact fieldOf_ofField _ (by decide)

theorem fieldOf_widenF_le {w : F32} (hw : cat32 w ≠ .nan) : fieldOf (widenF w) ≤ binary64.infField := by
  by_cases hinf : cat32 w = .infinite
  · exact (fieldOf_widenF_of_infinite hinf).le
  · exact (isFinite_iff_fieldOf.mp (isFinite_widenF (fieldOf32_lt_infField_iff.mpr ⟨hw, hinf⟩))).le

theorem fieldOf_widenF_mono {w w' : F32} (hw : cat32 w ≠ .nan) (hw' : cat32 w' ≠ .nan)
    (hle : fieldOf32 w ≤ fieldOf32 w') : fieldOf (widenF w) ≤ fieldOf (widenF w') := by
  by_cases hinf : cat32 w' = .infinite
  · exact (fieldOf_widenF_le hw).trans_eq (fieldOf_widenF_of_infinite hinf).symm
  · have hfin := fieldOf32_lt_infField_iff.mpr ⟨hw', hinf⟩
    rw [fieldOf_widenF_of_finite (hle.trans_lt hfin), fieldOf_widenF_of_finite hfin]
    exact roundOn_mono Format.regular_binary64 (Format.fieldVal_nonneg ..) (binary32.fieldVal_strictMono.monotone hle)

/-! One conversion after the other (rule R264 (a), (b)). -/

/-- Where the values agree, narrowing gives the float32 magnitude. -/
theorem narrowF_of_val_eq {a : F64} {w : F32} (ha : isFinite a = true) (hw : fieldOf32 w < binary32.infField)
    (hval : |val ℚ a| = |val32 ℚ w|) : narrowF a = ofField32 (signOf a) (fieldOf32 w) := by
  rw [narrowF_eq_rne32On ℚ ha, hval, abs_val32_eq_fieldVal, rne32On, roundOn_fieldVal Format.regular_binary32 hw,
    ofField32]

theorem narrowF_widenF_of_finite {w : F32} (hw : fieldOf32 w < binary32.infField) : narrowF (widenF w) = w := by
  rw [narrowF_of_val_eq (isFinite_widenF hw) hw (congrArg _ (val_widenF ℚ hw)),
    signOf_widenF (fieldOf32_lt_infField_iff.mp hw).1, ofField32_fields]

theorem narrowF_widenF (w : F32) : narrowF (widenF w) = if cat32 w = .nan then canonNaN32 else w := by
  split_ifs with hnan
  · rw [widenF_of_nan hnan]
    decide
  by_cases hinf : cat32 w = .infinite
  · have hcat := cat_eq_infinite_iff.mpr (fieldOf_widenF_of_infinite hinf)
    rw [narrowF_of_infinite hcat, signOf_widenF hnan]
    nth_rw 2 [← ofField32_fields w]
    rw [cat32_eq_infinite_iff.mp hinf]
    rfl
  · exact narrowF_widenF_of_finite (fieldOf32_lt_infField_iff.mpr ⟨hnan, hinf⟩)

/-- The patterns that widening gives back are the infinities and the float32 values (rule R264(b)). -/
theorem widenF_narrowF_eq_self_iff {a : F64} (ha : cat a ≠ .nan) : widenF (narrowF a) = a ↔
    cat a = .infinite ∨ (isFinite a = true ∧ ∃ w : F32, fieldOf32 w < binary32.infField ∧ val32 ℚ w = val ℚ a) := by
  by_cases hinf : cat a = .infinite
  · refine iff_of_true (eq_of_fieldOf_eq ?_ ?_) (.inl hinf)
    · rw [signOf_widenF (cat32_narrowF_ne_nan ha), signOf32_narrowF ha]
    · rw [fieldOf_widenF_of_infinite (cat32_eq_infinite_iff.mpr (fieldOf32_narrowF_of_infinite hinf)),
        cat_eq_infinite_iff.mp hinf]
  have hfin := isFinite_iff_ne.mpr ⟨ha, hinf⟩
  rw [or_iff_right hinf, and_iff_right hfin]
  constructor
  · intro heq
    have hw : fieldOf32 (narrowF a) < binary32.infField := by
      refine fieldOf32_lt_infField_iff.mpr ⟨cat32_narrowF_ne_nan ha, fun h => hinf ?_⟩
      rw [← heq, cat_eq_infinite_iff, fieldOf_widenF_of_infinite h]
    exact ⟨narrowF a, hw, by rw [← val_widenF ℚ hw, heq]⟩
  · rintro ⟨w, hw, hval⟩
    have habs : |val ℚ a| = |val32 ℚ w| := congrArg _ hval.symm
    have hfield : fieldOf32 (narrowF a) = fieldOf32 w := by
      rw [narrowF_of_val_eq hfin hw habs, fieldOf32_ofField32 _ (hw.trans (by decide))]
    rw [widenF_eq_rneOn ℚ (hfield.trans_lt hw), signOf32_narrowF ha, abs_val32_eq_fieldVal, hfield,
      ← abs_val32_eq_fieldVal, ← habs, rneOn_abs_val ℚ hfin]

/-! The keys of the narrowed patterns (rule R264(d)). -/

/-- A map of patterns that keeps the sign, the order of the magnitudes and zero keeps the order of the keys. -/
theorem key_le_key_of_fieldOf_mono {f : F64 → F64} {P : F64 → Prop} (hsign : ∀ a, P a → signOf (f a) = signOf a)
    (hmono : ∀ a b, P a → P b → fieldOf a ≤ fieldOf b → fieldOf (f a) ≤ fieldOf (f b))
    (hzero : ∀ a, fieldOf a = 0 → fieldOf (f a) = 0) {a b : F64} (ha : P a) (hb : P b) (hle : key a ≤ key b) :
    key (f a) ≤ key (f b) := by
  have hab := hmono a b ha hb
  have hba := hmono b a hb ha
  have ha0 := hzero a
  have hb0 := hzero b
  rw [key_eq_fieldOf, key_eq_fieldOf] at hle ⊢
  rw [hsign a ha, hsign b hb]
  split_ifs at hle ⊢ <;> omega

theorem fieldOf_widenF_narrowF_of_zero {a : F64} (h : fieldOf a = 0) : fieldOf (widenF (narrowF a)) = 0 := by
  have hnarrow : fieldOf32 (narrowF a) = 0 := by
    rw [fieldOf32_narrowF_of_finite ℚ (isFinite_iff_fieldOf.mpr (h.trans_lt (by decide))), h, fieldVal_zero, roundOn,
      if_pos rfl]
  rw [fieldOf_widenF_of_finite (hnarrow.trans_lt (by decide)), hnarrow, fieldVal_zero, roundOn, if_pos rfl]

theorem key_widenF_narrowF_mono {a b : F64} (ha : cat a ≠ .nan) (hb : cat b ≠ .nan) (hle : key a ≤ key b) :
    key (widenF (narrowF a)) ≤ key (widenF (narrowF b)) := by
  refine key_le_key_of_fieldOf_mono (f := fun a => widenF (narrowF a)) (P := fun a => cat a ≠ .nan)
    (fun a ha => ?_) (fun a b ha hb h => ?_) (fun a h => fieldOf_widenF_narrowF_of_zero h) ha hb hle
  · rw [signOf_widenF (cat32_narrowF_ne_nan ha), signOf32_narrowF ha]
  · exact fieldOf_widenF_mono (cat32_narrowF_ne_nan ha) (cat32_narrowF_ne_nan hb) (fieldOf32_narrowF_mono ha hb h)

end Sys2Proof.Machine
end

section
/-! PROOFS. The statements about the float32 converters. -/

namespace Sys2Proof.Proofs

open Machine

/-- Settles O44: one exact rounding, whose result the datapath assembles. -/
theorem widenResult : Obligations.WidenResult := by
  rintro s w rfl
  refine ⟨widenF (s.req.a.setWidth 32), next_congr s (congrArg widenF ?_), widenF_of_nan, widenF_of_infinite,
    widenF_of_zero, fun h => ?_⟩
  · rw [float32Operand, BitVec.setWidth_eq_extractLsb' (by decide)]
  · obtain ⟨hpos, hfin⟩ := cat32_subnormal_or_normal_iff.mp h
    have hpath := widenF_eq_widenDatapath hpos hfin
    exact ⟨widenF_eq_rneOn ℚ hfin, val_widenF ℚ hfin, hpath ▸ cat_widenDatapath hpos hfin, hpath⟩

/-- Settles O45: one rounding of the operand's value, with its thresholds. -/
theorem narrowResult : Obligations.NarrowResult := by
  refine fun s => ⟨narrowF s.req.a, rfl, narrowF_of_nan, narrowF_of_infinite, narrowF_of_zero, fun h => ?_⟩
  have hround := narrowF_eq_rne32On ℚ (isFinite_of_isFiniteNonzero h)
  refine ⟨hround, ?_, ?_⟩
  · rw [hround, rne32On_eq_infF32_iff _ (abs_nonneg _)]
  · rw [hround, rne32On_eq_zeroF32_iff _ (abs_nonneg _)]

/-- Settles O46: the values a float32 pattern has are kept by both conversions, and one rounding keeps the order. -/
theorem float32RoundTrip : Obligations.Float32RoundTrip := by
  refine ⟨narrowF_widenF, fun a ha => ?_, fun w => signOf_widenF, fun a => signOf32_narrowF,
    fun a b => key_widenF_narrowF_mono⟩
  rw [widenF_narrowF_eq_self_iff ha]
  simp only [fieldOf32_lt_infField_iff, and_assoc]

end Sys2Proof.Proofs
end

section
/-! PROOFS. Decimal digit strings: numerals as the library's digits, their ASCII bytes and decimal values (rules R43,
R272, R293). -/

namespace Sys2Proof.Machine

/-! Numerals without leading zeros. -/

theorem decDigits_length_digits (D : ℕ) : decDigits (Nat.digits 10 D).length D = (Nat.digits 10 D).reverse := by
  induction D using Nat.strong_induction_on with
  | _ D ih =>
    rcases Nat.eq_zero_or_pos D with rfl | h
    · rfl
    · rw [Nat.digits_def' (by norm_num) h, List.length_cons, decDigits, ih _ (Nat.div_lt_self h (by norm_num)),
        List.reverse_cons]

theorem length_natDigits {n D : ℕ} (hlo : 10 ^ n ≤ D) (hhi : D < 10 ^ (n + 1)) : (Nat.digits 10 D).length = n + 1 := by
  have h0 : D ≠ 0 := ((by positivity : 0 < 10 ^ n).trans_le hlo).ne'
  rw [Nat.length_digits 10 D (by norm_num) h0, Nat.log_eq_of_pow_le_of_lt_pow hlo hhi]

/-- The `n`-digit numeral of a number of `n` digits. -/
theorem decDigits_eq_digits {n D : ℕ} (hlo : 10 ^ n ≤ D) (hhi : D < 10 ^ (n + 1)) :
    decDigits (n + 1) D = (Nat.digits 10 D).reverse := by
  rw [← length_natDigits hlo hhi, decDigits_length_digits]

theorem numeral_eq_digits {k : ℕ} (h : k ≠ 0) : numeral k = (Nat.digits 10 k).reverse := by
  rw [numeral, if_neg h, decDigits_eq_digits (ilog10_spec h).1 (ilog10_spec h).2]

theorem numeral_lt (k : ℕ) : ∀ d ∈ numeral k, d < 10 := by
  rw [numeral]
  split
  · simp
  · exact decDigits_lt _ _

theorem numeral_ne_nil (k : ℕ) : numeral k ≠ [] := by
  rw [numeral]
  split
  · simp
  · simp [decDigits]

/-! ASCII digits and their decimal value. -/

theorem toNat_digitByte {d : ℕ} (h : d < 10) : (digitByte d).toNat = 0x30 + d := by
  rw [digitByte, BitVec.toNat_ofNat]
  omega

theorem isDigitByte_digitByte {d : ℕ} (h : d < 10) : isDigitByte (digitByte d) = true := by
  rw [isDigitByte, toNat_digitByte h, Bool.and_eq_true, decide_eq_true_eq, decide_eq_true_eq]
  omega

theorem digitByte_eq_zero_iff {d : ℕ} (h : d < 10) : digitByte d = chZero ↔ d = 0 := by
  rw [← BitVec.toNat_inj, toNat_digitByte h]
  exact Nat.add_eq_left

theorem all_isDigitByte_map {ds : List ℕ} (h : ∀ d ∈ ds, d < 10) : (ds.map digitByte).all isDigitByte = true := by
  rw [List.all_map, List.all_eq_true]
  exact fun d hd => isDigitByte_digitByte (h d hd)

theorem decimalValue_concat (ds : List Byte) (c : Byte) :
    decimalValue (ds ++ [c]) = 10 * decimalValue ds + (c.toNat - 0x30) := by
  rw [decimalValue, List.foldl_append]
  rfl

theorem decimalValue_append (ds es : List Byte) :
    decimalValue (ds ++ es) = decimalValue ds * 10 ^ es.length + decimalValue es := by
  induction es using List.reverseRecOn with
  | nil => simp [decimalValue]
  | append_singleton es c ih =>
    rw [← List.append_assoc, decimalValue_concat, decimalValue_concat, ih, List.length_append, List.length_singleton,
      pow_succ]
    ring

theorem decimalValue_replicate_zero (k : ℕ) : decimalValue (List.replicate k chZero) = 0 := by
  induction k with
  | zero => rfl
  | succ k ih => rw [List.replicate_succ', decimalValue_concat, ih]; rfl

theorem decimalValue_map_digitByte {ds : List ℕ} (h : ∀ d ∈ ds, d < 10) :
    decimalValue (ds.map digitByte) = ds.foldl (fun v d => 10 * v + d) 0 := by
  rw [decimalValue, List.foldl_map]
  refine List.foldl_ext _ _ _ fun v d hd => ?_
  rw [toNat_digitByte (h d hd), Nat.add_sub_cancel_left]

/-! Digit strings without zeros at either end (rules R272, R281(a)). -/

/-- Significant digits, at most `n`: none but '0' to '9', the first and the last not '0'. -/
structure Significant (n : ℕ) (ds : List ℕ) : Prop where
  ne_nil : ds ≠ []
  length_le : ds.length ≤ n
  lt_ten : ∀ d ∈ ds, d < 10
  first_ne_zero : ∀ h, ds.head h ≠ 0
  last_ne_zero : ∀ h, ds.getLast h ≠ 0

namespace Significant

variable {n : ℕ} {ds : List ℕ} (h : Significant n ds)

include h

theorem isDigitByte_byte {j : ℕ} (hj : j < ds.length) : isDigitByte (digitByte ds[j]) = true :=
  isDigitByte_digitByte (h.lt_ten _ (List.getElem_mem hj))

theorem first_byte_ne (hj : 0 < ds.length) : digitByte ds[0] ≠ chZero := by
  rw [Ne, digitByte_eq_zero_iff (h.lt_ten _ (List.getElem_mem hj)), ← List.head_eq_getElem h.ne_nil]
  exact h.first_ne_zero _

theorem last_byte_ne (hj : 0 < ds.length) : digitByte (ds[ds.length - 1]'(Nat.sub_lt hj one_pos)) ≠ chZero := by
  rw [Ne, digitByte_eq_zero_iff (h.lt_ten _ (List.getElem_mem _)), ← List.getLast_eq_getElem h.ne_nil]
  exact h.last_ne_zero _

end Significant

theorem stripZeros_reverse (ds : List ℕ) : stripZeros ds.reverse = (ds.dropWhile (fun d => d == 0)).reverse := by
  rw [stripZeros, List.reverse_reverse]

theorem significant_stripZeros {n D : ℕ} (hlo : 10 ^ n ≤ D) (hhi : D < 10 ^ (n + 1)) :
    Significant (n + 1) (stripZeros (decDigits (n + 1) D)) := by
  have h0 : D ≠ 0 := ((by positivity : 0 < 10 ^ n).trans_le hlo).ne'
  have htop := Nat.getLast_digit_ne_zero 10 h0
  have hne : (Nat.digits 10 D).dropWhile (fun d => d == 0) ≠ [] := fun h =>
    htop (by simpa using List.dropWhile_eq_nil_iff.mp h _ (List.getLast_mem _))
  have hsuffix := List.dropWhile_suffix (l := Nat.digits 10 D) (fun d => d == 0)
  rw [decDigits_eq_digits hlo hhi, stripZeros_reverse]
  constructor
  case ne_nil => simpa using hne
  case length_le => rw [List.length_reverse, ← length_natDigits hlo hhi]; exact hsuffix.length_le
  case lt_ten => exact fun d hd => Nat.digits_lt_base (by norm_num) (hsuffix.subset (List.mem_reverse.mp hd))
  case first_ne_zero => intro h; rw [List.head_reverse, hsuffix.getLast hne]; exact htop
  case last_ne_zero =>
    intro h
    rw [List.getLast_reverse]
    simpa using List.head_dropWhile_not (fun d => d == 0) (w := hne)

/-- Stripping trailing zeros divides the number by a power of ten. -/
theorem decimalValue_stripZeros {n D : ℕ} (hD : D < 10 ^ n) :
    decimalValue ((stripZeros (decDigits n D)).map digitByte) * 10 ^ (n - (stripZeros (decDigits n D)).length) = D := by
  obtain ⟨k, hk⟩ := stripZeros_append (decDigits n D)
  have hlen : n = (stripZeros (decDigits n D)).length + k := by
    have := congrArg List.length hk
    rwa [decDigits_length, List.length_append, List.length_replicate] at this
  have hval := decimalValue_map_digitByte (decDigits_lt n D)
  rw [decDigits_value, Nat.mod_eq_of_lt hD, hk, List.map_append, List.map_replicate, decimalValue_append,
    show digitByte 0 = chZero from rfl, decimalValue_replicate_zero, List.length_replicate, add_zero] at hval
  rwa [show n - (stripZeros (decDigits n D)).length = k by omega]

end Sys2Proof.Machine
end

section
/-! PROOFS. Digit generation (rule R272): the significand and the exponent of a positive rational, their ranges, and
that seventeen digits identify a float64 (rule R280). -/

namespace Sys2Proof.Machine

/-- `D` of rule R272 before the carry: `q` scaled to `n` integer digits, rounded half to even. -/
def decScaled (q : ℚ) (n : ℕ) : ℕ := rheOn (q / 10 ^ (Int.log 10 q - n + 1))

/-- `D` of rule R272 after the carry. -/
def decSignificand (q : ℚ) (n : ℕ) : ℕ := if decScaled q n = 10 ^ n then 10 ^ (n - 1) else decScaled q n

/-- `e0` of rule R272 after the carry. -/
def decExponent (q : ℚ) (n : ℕ) : ℤ := if decScaled q n = 10 ^ n then Int.log 10 q + 1 else Int.log 10 q

/-- The digits of rule R272. -/
def decDigitString (q : ℚ) (n : ℕ) : List ℕ := stripZeros (decDigits n (decSignificand q n))

theorem digits_eq_decDigitString {num den : ℕ} (n : ℕ) (hn : 0 < num) (hd : 0 < den) :
    digits num den n = (decDigitString ((num : ℚ) / den) n, decExponent ((num : ℚ) / den) n) := by
  rw [digits_eq num den n hn hd, decDigitString, decSignificand, decExponent, decScaled]
  split_ifs <;> rfl

theorem ten_pow_mul_zpow (n m : ℕ) (e : ℤ) : (10 : ℚ) ^ m * 10 ^ (e - (n + 1 : ℕ) + 1) = 10 ^ (e + m - n) := by
  rw [← zpow_natCast, ← zpow_add₀ (by norm_num)]
  congr 1
  omega

section Positive

variable {q : ℚ} {n : ℕ} (hq : 0 < q)

include hq

theorem log_bounds : (10 : ℚ) ^ Int.log 10 q ≤ q ∧ q < 10 ^ (Int.log 10 q + 1) :=
  ⟨by exact_mod_cast Int.zpow_log_le_self (b := 10) (by norm_num) hq,
    by exact_mod_cast Int.lt_zpow_succ_log_self (b := 10) (by norm_num) q⟩

/-- The digit count of `q` scaled is `n`, or `n + 1` after a carry. -/
theorem decScaled_bounds : 10 ^ n ≤ decScaled q (n + 1) ∧ decScaled q (n + 1) ≤ 10 ^ (n + 1) := by
  obtain ⟨hlo, hhi⟩ := log_bounds hq
  have hunit : (0 : ℚ) < 10 ^ (Int.log 10 q - (n + 1 : ℕ) + 1) := by positivity
  constructor
  · refine le_rheOn ?_
    rw [le_div_iff₀ hunit, Nat.cast_pow, Nat.cast_ofNat, ten_pow_mul_zpow, add_sub_cancel_right]
    exact hlo
  · refine rheOn_le (by positivity) ?_
    rw [div_le_iff₀ hunit, Nat.cast_pow, Nat.cast_ofNat, ten_pow_mul_zpow, Nat.cast_succ, ← add_assoc,
      add_sub_right_comm, add_sub_cancel_right]
    exact hhi.le

/-- The significand has exactly the digits asked for. -/
theorem decSignificand_bounds : 10 ^ n ≤ decSignificand q (n + 1) ∧ decSignificand q (n + 1) < 10 ^ (n + 1) := by
  obtain ⟨hlo, hhi⟩ := decScaled_bounds (n := n) hq
  rw [decSignificand]
  split_ifs with hcarry
  · exact ⟨le_rfl, Nat.pow_lt_pow_right (by norm_num) (Nat.lt_succ_self n)⟩
  · exact ⟨hlo, hhi.lt_of_ne hcarry⟩

/-- The digits in the words of the library: the number's own, least significant first, without the zeros they begin
with, and turned round. -/
theorem decDigitString_eq : decDigitString q (n + 1) =
    ((Nat.digits 10 (decSignificand q (n + 1))).dropWhile (fun d => d == 0)).reverse := by
  obtain ⟨hlo, hhi⟩ := decSignificand_bounds (n := n) hq
  rw [decDigitString, decDigits_eq_digits hlo hhi, stripZeros_reverse]

theorem significant_decDigitString : Significant (n + 1) (decDigitString q (n + 1)) :=
  significant_stripZeros (decSignificand_bounds hq).1 (decSignificand_bounds hq).2

omit hq in
/-- A carry into a new leading digit does not change the number. -/
theorem decSignificand_mul : (decSignificand q (n + 1) : ℚ) * 10 ^ (decExponent q (n + 1) - n) =
    decScaled q (n + 1) * 10 ^ (Int.log 10 q - n) := by
  rw [decSignificand, decExponent]
  split_ifs with hcarry
  · rw [hcarry, add_sub_right_comm, zpow_add_one₀ (by norm_num), Nat.add_sub_cancel, pow_succ]
    push_cast
    ring
  · rfl

/-- The number the digits denote: one digit before the point, times ten to the exponent (rule R272). -/
theorem decimalValue_decDigitString :
    (decimalValue ((decDigitString q (n + 1)).map digitByte) : ℚ) *
      10 ^ (decExponent q (n + 1) - ((decDigitString q (n + 1)).length - 1)) =
    decSignificand q (n + 1) * 10 ^ (decExponent q (n + 1) - n) := by
  have hlen := (significant_decDigitString (n := n) hq).length_le
  rw [← decimalValue_stripZeros (decSignificand_bounds (n := n) hq).2, ← decDigitString, Nat.cast_mul, Nat.cast_pow,
    Nat.cast_ofNat, mul_assoc, ← zpow_natCast, ← zpow_add₀ (by norm_num), Nat.cast_sub hlen]
  congr 2
  push_cast
  ring

/-- Digit generation errs by half a unit of the last digit at most. -/
theorem abs_decSignificand_sub_le :
    |(decSignificand q (n + 1) : ℚ) * 10 ^ (decExponent q (n + 1) - n) - q| ≤ 1 / 2 * 10 ^ (Int.log 10 q - n) := by
  have hunit : (0 : ℚ) < 10 ^ (Int.log 10 q - n) := by positivity
  have hround := abs_rheOn_sub_le (y := q / 10 ^ (Int.log 10 q - n)) (by positivity)
  have hscaled : decScaled q (n + 1) = rheOn (q / 10 ^ (Int.log 10 q - n)) := by
    rw [decScaled, Nat.cast_succ, ← sub_sub, sub_add_cancel]
  calc |(decSignificand q (n + 1) : ℚ) * 10 ^ (decExponent q (n + 1) - n) - q|
      = |(decScaled q (n + 1) : ℚ) - q / 10 ^ (Int.log 10 q - n)| * 10 ^ (Int.log 10 q - n) := by
        rw [decSignificand_mul, ← abs_of_pos hunit, ← abs_mul, abs_of_pos hunit, sub_mul,
          div_mul_cancel₀ _ hunit.ne']
    _ ≤ 1 / 2 * 10 ^ (Int.log 10 q - n) := by
        rw [hscaled]
        exact mul_le_mul_of_nonneg_right hround hunit.le

end Positive

/-! The range of the exponent (rule R271). -/

theorem two_pow_1023_le (K : Type) [Field K] [LinearOrder K] [IsStrictOrderedRing K] : (2 : K) ^ 1023 ≤ 10 ^ 308 := by
  calc (2 : K) ^ 1023 = (2 ^ 93) ^ 11 := by rw [← pow_mul]
    _ ≤ (10 ^ 28) ^ 11 := by gcongr; norm_num
    _ = 10 ^ 308 := by rw [← pow_mul]

theorem two_pow_1024_le (K : Type) [Field K] [LinearOrder K] [IsStrictOrderedRing K] :
    (2 : K) ^ 1024 ≤ 2 * 10 ^ 308 := by
  rw [pow_succ']
  exact mul_le_mul_of_nonneg_left (two_pow_1023_le K) (by norm_num)

theorem two_pow_1024_le_ten_pow (K : Type) [Field K] [LinearOrder K] [IsStrictOrderedRing K] :
    (2 : K) ^ 1024 ≤ 10 ^ 309 := by
  refine (two_pow_1024_le K).trans ?_
  rw [pow_succ' (10 : K) 308]
  exact mul_le_mul_of_nonneg_right (by norm_num) (by positivity)

theorem ten_zpow_le_two_zpow (K : Type) [Field K] [LinearOrder K] [IsStrictOrderedRing K] :
    (10 : K) ^ (-324 : ℤ) ≤ 2 ^ (-1075 : ℤ) := by
  rw [zpow_neg, zpow_neg]
  refine inv_anti₀ (by positivity) ?_
  calc (2 : K) ^ (1075 : ℤ) = 2 ^ 52 * 2 ^ 1023 := by rw [zpow_ofNat]; exact pow_add 2 52 1023
    _ ≤ 10 ^ 16 * 10 ^ 308 := mul_le_mul (by norm_num) (two_pow_1023_le K) (by positivity) (by positivity)
    _ = 10 ^ (324 : ℤ) := by rw [zpow_ofNat]; exact (pow_add 10 16 308).symm

theorem abs_val_rat_bounds {b : F64} (hb : isFiniteNonzero b = true) :
    2 ^ (-1074 : ℤ) ≤ |val ℚ b| ∧ |val ℚ b| < 2 ^ 1024 := by
  have h := abs_val_bounds hb
  rw [val_rat_cast, ← Rat.cast_abs] at h
  refine ⟨(Rat.cast_le (K := ℝ)).mp ?_, by exact_mod_cast h.2⟩
  rw [Rat.cast_zpow, Rat.cast_ofNat]
  exact h.1

theorem abs_val_pos {b : F64} (hb : isFiniteNonzero b = true) : 0 < |val ℚ b| :=
  lt_of_lt_of_le (by positivity) (abs_val_rat_bounds hb).1

/-- No magnitude below `2^1024` rounds up to `10^309`. -/
theorem decScaled_ne_of_log {q : ℚ} {n : ℕ} (hq : 0 < q) (hlt : q < 2 ^ 1024) (hlog : Int.log 10 q = 308) :
    decScaled q (n + 1) ≠ 10 ^ (n + 1) := by
  have hle : decScaled q (n + 1) ≤ 2 * 10 ^ n := by
    refine rheOn_le (by positivity) ?_
    rw [hlog, div_le_iff₀ (by positivity)]
    calc q ≤ 2 * 10 ^ (308 : ℤ) := hlt.le.trans (by rw [zpow_ofNat]; exact two_pow_1024_le ℚ)
      _ = ((2 * 10 ^ n : ℕ) : ℚ) * 10 ^ ((308 : ℤ) - (n + 1 : ℕ) + 1) := by
        rw [Nat.cast_mul, Nat.cast_pow, Nat.cast_ofNat, Nat.cast_ofNat, mul_assoc, ten_pow_mul_zpow,
          add_sub_cancel_right]
  have hpos : 0 < 10 ^ n := by positivity
  rw [pow_succ]
  omega

theorem log_abs_val_bounds {b : F64} (hb : isFiniteNonzero b = true) :
    -324 ≤ Int.log 10 |val ℚ b| ∧ Int.log 10 |val ℚ b| ≤ 308 := by
  obtain ⟨hlo, hhi⟩ := abs_val_rat_bounds hb
  have hq := abs_val_pos hb
  constructor
  · refine (Int.zpow_le_iff_le_log (b := 10) (by norm_num) hq).mp (le_trans ?_ hlo)
    exact (ten_zpow_le_two_zpow ℚ).trans (zpow_le_zpow_right₀ one_le_two (by norm_num))
  · refine Int.lt_add_one_iff.mp ((Int.lt_zpow_iff_log_lt (b := 10) (by norm_num) hq).mp (hhi.trans_le ?_))
    exact two_pow_1024_le_ten_pow ℚ

theorem decExponent_bounds {b : F64} (n : ℕ) (hb : isFiniteNonzero b = true) :
    -324 ≤ decExponent |val ℚ b| (n + 1) ∧ decExponent |val ℚ b| (n + 1) ≤ 308 := by
  obtain ⟨hlo, hhi⟩ := log_abs_val_bounds hb
  rw [decExponent]
  split_ifs with hcarry
  · have hne : Int.log 10 |val ℚ b| ≠ 308 := fun h =>
      decScaled_ne_of_log (abs_val_pos hb) (abs_val_rat_bounds hb).2 h hcarry
    omega
  · exact ⟨hlo, hhi⟩

/-! Seventeen digits identify a float64: half a unit of the 17th digit is less than half the distance to the next
magnitude on either side, as `2 * 10^16 > 2^54` (rule R280). -/

/-- What lies nearer to a finite magnitude than `2^-54` of it rounds back to it. -/
theorem rneOn_of_near {b : F64} (hb : isFinite b = true) {x : ℝ} (hx : 0 ≤ x)
    (hnear : |x - (|val ℝ b|)| < 1 / 2 ^ 54 * |val ℝ b|) : rneOn (signOf b) x = b := by
  have hfmt := Format.regular_binary64
  have hfin := isFinite_iff_fieldOf.mp hb
  rw [abs_val_eq_fieldVal, abs_lt] at hnear
  refine eq_of_fieldOf_eq (signOf_rneOn ..) ?_
  rw [fieldOf_rneOn _ hx]
  refine le_antisymm ((roundOn_le_iff hfmt hx hfin).mpr (.inl ?_)) ?_
  · have hstep := fieldVal_le_mul_fieldVal (Nat.lt_succ_self (fieldOf b))
    have hgap : binary64.fieldVal ℝ (fieldOf b) < binary64.fieldVal ℝ (fieldOf b + 1) :=
      binary64.fieldVal_strictMono (Nat.lt_succ_self _)
    rw [Format.midpoint]
    linarith
  · rcases Nat.eq_zero_or_pos (fieldOf b) with h0 | h0
    · omega
    · obtain ⟨m, hm⟩ := Nat.exists_eq_succ_of_ne_zero h0.ne'
      have hstep := fieldVal_le_mul_fieldVal (Nat.lt_succ_self m)
      rw [hm] at hnear hfin ⊢
      refine (lt_roundOn_iff hfmt hx (Nat.lt_of_succ_lt hfin)).mpr (.inl ?_)
      rw [Format.midpoint]
      linarith

/-- Seventeen correctly rounded digits of a finite magnitude round back to it (rule R280). -/
theorem rneOn_decSignificand {b : F64} (hb : isFiniteNonzero b = true) :
    rneOn (signOf b) ((decSignificand |val ℚ b| 17 : ℚ) * 10 ^ (decExponent |val ℚ b| 17 - 16)) = b := by
  have hq := abs_val_pos hb
  have herr := abs_decSignificand_sub_le (n := 16) hq
  have hlog := (log_bounds hq).1
  have hnear : |(decSignificand |val ℚ b| 17 : ℚ) * 10 ^ (decExponent |val ℚ b| 17 - 16) - (|val ℚ b|)| <
      1 / 2 ^ 54 * |val ℚ b| := by
    calc _ ≤ 1 / 2 * (10 : ℚ) ^ (Int.log 10 |val ℚ b| - 16) := herr
      _ = 1 / (2 * 10 ^ 16) * 10 ^ Int.log 10 |val ℚ b| := by rw [zpow_sub₀ (by norm_num)]; norm_num; ring
      _ ≤ 1 / (2 * 10 ^ 16) * |val ℚ b| := by gcongr
      _ < 1 / 2 ^ 54 * |val ℚ b| := by gcongr; norm_num
  rw [← rneOn_cast _ _ (by positivity)]
  refine rneOn_of_near (isFinite_of_isFiniteNonzero hb) (by positivity) ?_
  have hreal := (Rat.cast_lt (K := ℝ)).mpr hnear
  rw [val_rat_cast]
  push_cast at hreal ⊢
  exact hreal

end Sys2Proof.Machine
end

section
/-! PROOFS. PARSE of a whole text the grammar derives (rules R291 to R293): the scan returns the text's parts, and their
exact value is rounded once. -/

namespace Sys2Proof.Machine

/-! The scan's functions at the head of a text, for what the grammar puts there. -/

theorem leadingDigits_append {ds t : List Byte} (hds : ds.all isDigitByte = true) (ht : leadingDigits t = []) :
    leadingDigits (ds ++ t) = ds := by
  rw [leadingDigits, List.takeWhile_append_of_pos (List.all_eq_true.mp hds), ← leadingDigits, ht, List.append_nil]

theorem leadingDigits_of_digits {ds : List Byte} (hds : ds.all isDigitByte = true) : leadingDigits ds = ds := by
  simpa using leadingDigits_append (t := []) hds rfl

theorem leadingDigits_cons {c : Byte} (t : List Byte) (hc : isDigitByte c = false) : leadingDigits (c :: t) = [] :=
  List.takeWhile_cons_of_neg (by simpa using hc)

theorem scanSign_of_ne {c : Byte} (t : List Byte) (hminus : c ≠ chMinus) (hplus : c ≠ chPlus) :
    scanSign (c :: t) = (false, 0) := by
  rw [scanSign, if_neg hminus, if_neg hplus]

theorem scanSign_of_digit {c : Byte} (t : List Byte) (hc : isDigitByte c = true) : scanSign (c :: t) = (false, 0) :=
  scanSign_of_ne t (by rintro rfl; cases hc) (by rintro rfl; cases hc)

/-- An optional sign before a text that begins with none. -/
theorem scanSign_append {sg : Option Byte} {t : List Byte} (hsg : isSign sg = true) (ht : scanSign t = (false, 0)) :
    scanSign (sg.toList ++ t) = (sg == some chMinus, sg.toList.length) := by
  rcases sg with _ | c
  · exact ht
  · rw [isSign, Bool.or_eq_true, beq_iff_eq, beq_iff_eq] at hsg
    rcases hsg with rfl | rfl <;> rfl

theorem scanFraction_cons {c : Byte} (t : List Byte) (hc : c ≠ chPoint) : scanFraction (c :: t) = ([], 0) := by
  rw [scanFraction, if_neg hc]

theorem scanFraction_point (t : List Byte) :
    scanFraction (chPoint :: t) = (leadingDigits t, 1 + (leadingDigits t).length) := by
  rw [scanFraction, if_pos rfl]

/-! The parts of a text the grammar derives. -/

namespace Numeral

variable {m : Numeral}

theorem valid_iff : m.valid = true ↔ isSign m.sign = true ∧ m.mantissaValid = true ∧ m.exponentValid = true := by
  rw [valid, Bool.and_eq_true, Bool.and_eq_true, and_assoc]

theorem exponentValid_some {sign ints frac c sg ds} :
    exponentValid ⟨sign, ints, frac, some (c, sg, ds)⟩ = true ↔
      (c = chLowerE ∨ c = chE) ∧ isSign sg = true ∧ ds.all isDigitByte = true ∧ ds ≠ [] := by
  simp [exponentValid, and_assoc]

/-- A mantissa has digits before the point or after it, and nothing but digits. -/
theorem mantissaValid_iff : m.mantissaValid = true ↔ m.ints.all isDigitByte = true ∧
    m.fracDigits.all isDigitByte = true ∧ ¬(m.ints = [] ∧ m.fracDigits = []) := by
  rw [mantissaValid, fracDigits]
  cases m.frac <;> simp [-not_and, not_and_or]

/-- An exponent begins with its marker, which is neither a digit nor the point. -/
theorem expoText_head (h : m.exponentValid = true) :
    leadingDigits m.expoText = [] ∧ scanFraction m.expoText = ([], 0) := by
  obtain ⟨sign, ints, frac, _ | ⟨c, sg, ds⟩⟩ := m
  · exact ⟨rfl, rfl⟩
  · obtain ⟨rfl | rfl, -⟩ := exponentValid_some.mp h <;>
      exact ⟨leadingDigits_cons _ rfl, scanFraction_cons _ (by decide)⟩

theorem scanExponent_expoText (h : m.exponentValid = true) :
    scanExponent m.expoText = (m.exponent, m.expoText.length) := by
  obtain ⟨sign, ints, frac, _ | ⟨c, sg, ds⟩⟩ := m
  · rfl
  · obtain ⟨hc, hsg, hds, hne⟩ := exponentValid_some.mp h
    obtain ⟨d, ds, rfl⟩ := List.exists_cons_of_ne_nil hne
    have hd : isDigitByte d = true := List.all_eq_true.mp hds d (List.mem_cons_self ..)
    simp only [expoText, scanExponent, if_pos hc, exponent, scanSign_append hsg (scanSign_of_digit ds hd),
      List.drop_left, leadingDigits_of_digits hds, if_neg hne, beq_iff_eq, List.length_cons, List.length_append]
    rw [Nat.add_comm 1, Nat.add_right_comm, Nat.add_assoc]

theorem scanFraction_fracText (hm : m.mantissaValid = true) (he : m.exponentValid = true) :
    scanFraction (m.fracText ++ m.expoText) = (m.fracDigits, m.fracText.length) := by
  obtain ⟨hdigits, hfraction⟩ := expoText_head he
  obtain ⟨-, hfs, -⟩ := mantissaValid_iff.mp hm
  rw [fracDigits] at hfs
  rw [fracText, fracDigits]
  rcases hf : m.frac with _ | fs
  · exact hfraction
  · rw [hf] at hfs
    have hlead : leadingDigits (fs ++ m.expoText) = fs := leadingDigits_append hfs hdigits
    rw [List.cons_append, scanFraction_point, hlead, List.length_cons, Nat.add_comm]
    rfl

theorem leadingDigits_fracText (he : m.exponentValid = true) : leadingDigits (m.fracText ++ m.expoText) = [] := by
  rw [fracText]
  rcases m.frac with _ | fs
  · exact (expoText_head he).1
  · exact leadingDigits_cons _ rfl

/-- A mantissa begins with a digit or the point. -/
theorem scanSign_mantissa (hm : m.mantissaValid = true) (t : List Byte) :
    scanSign (m.ints ++ (m.fracText ++ t)) = (false, 0) := by
  obtain ⟨hints, -, hne⟩ := mantissaValid_iff.mp hm
  rcases hi : m.ints with _ | ⟨c, cs⟩
  · rcases hf : m.frac with _ | fs
    · exact absurd ⟨hi, by rw [fracDigits, hf]; rfl⟩ hne
    · rw [fracText, hf]
      exact scanSign_of_ne _ (by decide) (by decide)
  · rw [hi] at hints
    exact scanSign_of_digit _ (List.all_eq_true.mp hints c (List.mem_cons_self ..))

/-- The scan of a whole text the grammar derives returns its parts and consumes all of it (rule R293). -/
theorem scan_text (h : m.valid = true) : scan m.text =
    some { s := m.negative, ints := m.ints, fracs := m.fracDigits, ex := m.exponent, consumed := m.text.length } := by
  obtain ⟨hsign, hm, he⟩ := valid_iff.mp h
  obtain ⟨hints, -, hne⟩ := mantissaValid_iff.mp hm
  have htext : m.text = m.sign.toList ++ (m.ints ++ (m.fracText ++ m.expoText)) := by
    simp only [text, List.append_assoc]
  simp only [scan, htext, scanSign_append hsign (scanSign_mantissa hm _), List.drop_left,
    leadingDigits_append hints (leadingDigits_fracText he), scanFraction_fracText hm he, if_neg hne,
    scanExponent_expoText he, List.length_append, Nat.add_assoc, negative]

end Numeral

/-! The exact value rounded once; the shortcuts agree with the rounding (rule R292). -/

theorem rneOn_eq_infF (s : Bool) {q : ℚ} (h : 2 ^ 1024 - 2 ^ 970 ≤ q) : rneOn s q = infF s := by
  have hq : 0 ≤ q := le_trans (sub_nonneg.mpr (pow_le_pow_right₀ one_le_two (by norm_num))) h
  rw [show infF s = ofField s binary64.infField from rfl, rneOn_eq_ofField_iff s hq (by decide)]
  refine le_antisymm (roundOn_le_infField Format.regular_binary64 hq) (not_lt.mp fun hlt => ?_)
  exact absurd ((roundOn_binary64_lt_infField_iff hq).mp hlt) (not_lt.mpr h)

theorem rneOn_eq_zeroF (s : Bool) {q : ℚ} (hq : 0 ≤ q) (h : q ≤ 2 ^ (-1075 : ℤ)) : rneOn s q = zeroF s := by
  rw [show zeroF s = ofField s 0 from rfl, rneOn_eq_ofField_iff s hq (by decide), ← Nat.le_zero,
    roundOn_le_iff Format.regular_binary64 hq (by decide), midpoint_binary64_zero, and_iff_left rfl]
  exact h.lt_or_eq

/-- `D * 10^k` lies in the decade its leading digit's exponent says. -/
theorem mul_zpow_bounds {D : ℕ} (hD : D ≠ 0) (k : ℤ) :
    (10 : ℚ) ^ ((ilog10 D : ℤ) + k) ≤ D * 10 ^ k ∧ (D : ℚ) * 10 ^ k < 10 ^ ((ilog10 D : ℤ) + k + 1) := by
  obtain ⟨hlo, hhi⟩ := ilog10_spec hD
  have hk : (0 : ℚ) < 10 ^ k := by positivity
  constructor
  · rw [zpow_add₀ (by norm_num), zpow_natCast]
    exact mul_le_mul_of_nonneg_right (by exact_mod_cast hlo) hk.le
  · rw [add_right_comm, zpow_add₀ (by norm_num), ← Nat.cast_succ, zpow_natCast]
    exact mul_lt_mul_of_pos_right (by exact_mod_cast hhi) hk

theorem decimalToF_eq_rneOn (s : Bool) (D : ℕ) (k : ℤ) : decimalToF s D k = rneOn s ((D : ℚ) * 10 ^ k) := by
  simp only [decimalToF]
  split_ifs with h0 hover hunder
  · rw [h0, Nat.cast_zero, zero_mul]
    exact (rneOn_eq_zeroF s le_rfl (by positivity)).symm
  · refine (rneOn_eq_infF s (le_trans ?_ (mul_zpow_bounds h0 k).1)).symm
    calc (2 : ℚ) ^ 1024 - 2 ^ 970 ≤ 2 ^ 1024 := sub_le_self _ (by positivity)
      _ ≤ 10 ^ (309 : ℤ) := by rw [zpow_ofNat]; exact two_pow_1024_le_ten_pow ℚ
      _ ≤ 10 ^ ((ilog10 D : ℤ) + k) := zpow_le_zpow_right₀ (by norm_num) hover
  · refine (rneOn_eq_zeroF s (by positivity) ((mul_zpow_bounds h0 k).2.le.trans ?_)).symm
    calc (10 : ℚ) ^ ((ilog10 D : ℤ) + k + 1) ≤ 10 ^ (-324 : ℤ) := zpow_le_zpow_right₀ (by norm_num) (by omega)
      _ ≤ 2 ^ (-1075 : ℤ) := ten_zpow_le_two_zpow ℚ
  · rw [rne_eq_rneOn (K := ℚ) _ _ _ (by positivity)]
    congr 1
    rcases Int.eq_nat_or_neg k with ⟨j, rfl | rfl⟩ <;> simp [div_eq_mul_inv]

/-- PARSE of a whole text the grammar derives (rule R292). -/
theorem parseResp_text {m : Numeral} (h : m.valid = true) : parseResp m.text =
    { Resp.zero with r := rneOn m.negative m.magnitude, x := BitVec.ofNat 16 m.text.length } := by
  rw [parseResp, Numeral.scan_text h]
  simp only [decimalToF_eq_rneOn, Numeral.magnitude]

end Sys2Proof.Machine
end

section
/-! PROOFS. The text of TODEC (rules R274 to R276): it is a text the grammar of rule R291 derives, and the number it
denotes is that of the digits and the exponent. -/

namespace Sys2Proof.Machine

/-- The text `t` is derived by the grammar as the parts `m`, and denotes the magnitude `q` with the sign `s`. -/
structure Numeral.Writes (m : Numeral) (t : List Byte) (s : Bool) (q : ℚ) : Prop where
  valid : m.valid = true
  text : m.text = t
  negative : m.negative = s
  magnitude : m.magnitude = q

theorem Numeral.Writes.parseResp_eq {m : Numeral} {t : List Byte} {s : Bool} {q : ℚ} (h : m.Writes t s q) :
    parseResp t = { Resp.zero with r := rneOn s q, x := BitVec.ofNat 16 t.length } := by
  obtain ⟨hvalid, rfl, rfl, rfl⟩ := h
  exact parseResp_text hvalid

/-- The sign TODEC writes: '-' or none (rule R275). -/
def writtenSign (s : Bool) : Option Byte := if s then some chMinus else none

theorem toList_writtenSign (s : Bool) : (writtenSign s).toList = signText s := by cases s <;> rfl

theorem isSign_writtenSign (s : Bool) : isSign (writtenSign s) = true := by cases s <;> rfl

theorem writtenSign_beq (s : Bool) : (writtenSign s == some chMinus) = s := by cases s <;> rfl

/-- The fraction TODEC writes: none where no digits are left for it (rules R275, R276). -/
def writtenFraction (fs : List Byte) : Option (List Byte) := if fs = [] then none else some fs

/-- The parts of a text of TODEC: the digits `is` before the point and `fs` after it, and an exponent or none. -/
def writtenNumeral (s : Bool) (is fs : List Byte) (expo : Option (Byte × Option Byte × List Byte)) : Numeral :=
  { sign := writtenSign s, ints := is, frac := writtenFraction fs, expo := expo }

theorem fracDigits_writtenNumeral (s : Bool) (is fs : List Byte) (expo) :
    (writtenNumeral s is fs expo).fracDigits = fs := by
  rw [Numeral.fracDigits, writtenNumeral, writtenFraction]
  split_ifs with h
  · exact h.symm
  · rfl

theorem writes_writtenNumeral (s : Bool) {is fs t : List Byte} {expo} {q : ℚ}
    (his : ∀ c ∈ is, isDigitByte c = true) (hne : is ≠ []) (hfs : ∀ c ∈ fs, isDigitByte c = true)
    (he : (writtenNumeral s is fs expo).exponentValid = true)
    (ht : t = signText s ++ is ++ (if fs = [] then [] else chPoint :: fs) ++ (writtenNumeral s is fs expo).expoText)
    (hq : q = decimalValue (is ++ fs) * 10 ^ ((writtenNumeral s is fs expo).exponent - (fs.length : ℤ))) :
    (writtenNumeral s is fs expo).Writes t s q := by
  have hdigits := fracDigits_writtenNumeral s is fs expo
  constructor
  case valid =>
    refine Numeral.valid_iff.mpr ⟨isSign_writtenSign s, Numeral.mantissaValid_iff.mpr ⟨?_, ?_, fun h => hne h.1⟩, he⟩
    · exact List.all_eq_true.mpr his
    · rw [hdigits]
      exact List.all_eq_true.mpr hfs
  case text =>
    rw [ht, Numeral.text, ← toList_writtenSign, Numeral.fracText, writtenNumeral, writtenFraction]
    split_ifs <;> rfl
  case negative => exact writtenSign_beq s
  case magnitude =>
    rw [hq, Numeral.magnitude, hdigits]
    rfl

/-! The decimal values of the parts. -/

theorem decimalValue_append_zeros (ds : List Byte) (k : ℕ) :
    decimalValue (ds ++ List.replicate k chZero) = decimalValue ds * 10 ^ k := by
  rw [decimalValue_append, decimalValue_replicate_zero, List.length_replicate, add_zero]

theorem decimalValue_zeros_append (k : ℕ) (ds : List Byte) :
    decimalValue (List.replicate k chZero ++ ds) = decimalValue ds := by
  rw [decimalValue_append, decimalValue_replicate_zero, zero_mul, zero_add]

theorem decimalValue_numeral (k : ℕ) : decimalValue ((numeral k).map digitByte) = k := by
  rw [decimalValue_map_digitByte (numeral_lt k), numeral]
  split_ifs with h
  · exact h.symm
  · rw [decDigits_value, Nat.mod_eq_of_lt (ilog10_spec h).2]

/-- The exponent TODEC writes: the separator 'E', a sign always, and the numeral of the magnitude (rule R276). -/
def writtenExponent (e : ℤ) : Option (Byte × Option Byte × List Byte) :=
  some (chE, some (if e < 0 then chMinus else chPlus), (numeral e.natAbs).map digitByte)

section Exponent

variable (s : Bool) (is fs : List Byte) (e : ℤ)

theorem expoText_writtenExponent : (writtenNumeral s is fs (writtenExponent e)).expoText =
    [chE, if e < 0 then chMinus else chPlus] ++ (numeral e.natAbs).map digitByte := rfl

theorem exponentValid_writtenExponent : (writtenNumeral s is fs (writtenExponent e)).exponentValid = true := by
  refine Numeral.exponentValid_some.mpr ⟨.inr rfl, ?_, all_isDigitByte_map (numeral_lt _), ?_⟩
  · split_ifs <;> rfl
  · simpa using numeral_ne_nil e.natAbs

theorem exponent_writtenExponent : (writtenNumeral s is fs (writtenExponent e)).exponent = e := by
  simp only [Numeral.exponent, writtenNumeral, writtenExponent, decimalValue_numeral]
  by_cases he : e < 0
  · rw [if_pos he, if_pos rfl]
    omega
  · rw [if_neg he, if_neg (by decide)]
    omega

end Exponent

/-- Digits cut at a place, and padded with zeros up to it where they are too few. -/
theorem take_append_zeros_append_drop (ds : List Byte) (w : ℕ) :
    ds.take w ++ List.replicate (w - ds.length) chZero ++ ds.drop w =
      ds ++ List.replicate (w - ds.length) chZero := by
  rcases le_total ds.length w with h | h
  · rw [List.take_of_length_le h, List.drop_eq_nil_of_le h, List.append_nil]
  · rw [Nat.sub_eq_zero_of_le h, List.replicate_zero, List.append_nil, List.append_nil, List.take_append_drop]

section Forms

variable (s : Bool) {ds : List Byte} {e : ℤ}

/-- Fixed form with an integer part (rule R275). -/
theorem exists_writes_fixed (hds : ∀ c ∈ ds, isDigitByte c = true) (hne : ds ≠ []) (he : 0 ≤ e) :
    ∃ m : Numeral, m.Writes (signText s ++ (ds.take (e.toNat + 1) ++ List.replicate (e.toNat + 1 - ds.length) chZero) ++
      (if ds.drop (e.toNat + 1) = [] then [] else chPoint :: ds.drop (e.toNat + 1))) s
      (decimalValue ds * 10 ^ (e - (ds.length - 1))) := by
  refine ⟨writtenNumeral s _ (ds.drop (e.toNat + 1)) none, writes_writtenNumeral s (fun c hc => ?_) ?_
    (fun c hc => hds c (List.mem_of_mem_drop hc)) rfl (List.append_nil _).symm ?_⟩
  · rcases List.mem_append.mp hc with hc | hc
    · exact hds c (List.mem_of_mem_take hc)
    · rw [List.eq_of_mem_replicate hc]
      rfl
  · simp [hne]
  · rw [take_append_zeros_append_drop, decimalValue_append_zeros, Nat.cast_mul, Nat.cast_pow, Nat.cast_ofNat, mul_assoc,
      ← zpow_natCast, ← zpow_add₀ (by norm_num), List.length_drop]
    congr 2
    show e - (ds.length - 1) = ((e.toNat + 1 - ds.length : ℕ) : ℤ) + (0 - ((ds.length - (e.toNat + 1) : ℕ) : ℤ))
    omega

/-- Fixed form with leading zeros (rule R275). -/
theorem exists_writes_leadingZeros (hds : ∀ c ∈ ds, isDigitByte c = true) (hne : ds ≠ []) (he : e < 0) :
    ∃ m : Numeral, m.Writes (signText s ++ [chZero, chPoint] ++ List.replicate (-e - 1).toNat chZero ++ ds) s
      (decimalValue ds * 10 ^ (e - (ds.length - 1))) := by
  have hfs : List.replicate (-e - 1).toNat chZero ++ ds ≠ [] := by simp [hne]
  refine ⟨writtenNumeral s [chZero] _ none, writes_writtenNumeral s (fs := List.replicate (-e - 1).toNat chZero ++ ds)
    (List.forall_mem_singleton.mpr rfl) (List.cons_ne_nil _ _) (fun c hc => ?_) rfl ?_ ?_⟩
  · rcases List.mem_append.mp hc with hc | hc
    · rw [List.eq_of_mem_replicate hc]
      rfl
    · exact hds c hc
  · rw [if_neg hfs, show (writtenNumeral s [chZero] _ none).expoText = [] from rfl]
    simp only [List.append_assoc, List.append_nil, List.cons_append, List.nil_append]
  · rw [decimalValue_append [chZero], show decimalValue [chZero] = 0 from rfl, zero_mul, zero_add,
      decimalValue_zeros_append, List.length_append, List.length_replicate]
    congr 2
    show e - (ds.length - 1) = 0 - (((-e - 1).toNat + ds.length : ℕ) : ℤ)
    omega

/-- Exponential form (rule R276). -/
theorem exists_writes_exponential (hds : ∀ c ∈ ds, isDigitByte c = true) (hne : ds ≠ []) :
    ∃ m : Numeral, m.Writes (signText s ++ ds.take 1 ++ (if 1 < ds.length then chPoint :: ds.drop 1 else []) ++
      [chE, if e < 0 then chMinus else chPlus] ++ (numeral e.natAbs).map digitByte) s
      (decimalValue ds * 10 ^ (e - (ds.length - 1))) := by
  have hlen : 1 ≤ ds.length := List.length_pos_of_ne_nil hne
  refine ⟨writtenNumeral s _ _ (writtenExponent e), writes_writtenNumeral s (is := ds.take 1) (fs := ds.drop 1)
    (fun c hc => hds c (List.mem_of_mem_take hc)) (by simpa using hne) (fun c hc => hds c (List.mem_of_mem_drop hc))
    (exponentValid_writtenExponent ..) ?_ ?_⟩
  · simp only [expoText_writtenExponent, List.drop_eq_nil_iff, ← not_lt, ite_not, List.append_assoc]
  · rw [exponent_writtenExponent, List.take_append_drop, List.length_drop, Nat.cast_sub hlen, Nat.cast_one]

end Forms

end Sys2Proof.Machine
end

section
/-! PROOFS. The response of TODEC (rules R271, R281, R284): its digits, exponent and text by the operand's value, and
what of it the round trip needs. -/

namespace Sys2Proof.Machine

/-! The text of TODEC in the words of rules R274 to R276, its length, and what PARSE reads in it. -/

theorem renderText_eq (s : Bool) {dig : List ℕ} {ds : List Byte} (hds : ds = dig.map digitByte) {e : ℤ} {n : ℕ}
    (hn : 0 < n) (p1 : ℕ) : renderText s dig e n p1 =
      if 0 ≤ e ∧ e < n then
        signText s ++ (ds.take (e.toNat + 1) ++ List.replicate (e.toNat + 1 - ds.length) chZero) ++
          (if ds.length ≤ e.toNat + 1 then [] else chPoint :: ds.drop (e.toNat + 1))
      else if e < 0 ∧ -e - 1 ≤ p1 then
        signText s ++ [chZero, chPoint] ++ List.replicate (-e - 1).toNat chZero ++ ds
      else
        signText s ++ ds.take 1 ++ (if 1 < ds.length then chPoint :: ds.drop 1 else []) ++
          [chE, if e < 0 then chMinus else chPlus] ++ (Nat.digits 10 e.natAbs).reverse.map digitByte := by
  subst hds
  by_cases hfix : 0 ≤ e ∧ e < n
  · simp only [renderText, if_pos hfix, List.drop_eq_nil_iff]
  · have hexp : ¬(e < 0 ∧ -e - 1 ≤ p1) → e.natAbs ≠ 0 := by omega
    by_cases hlead : e < 0 ∧ -e - 1 ≤ p1
    · simp only [renderText, if_neg hfix, if_pos hlead]
    · simp only [renderText, if_neg hfix, if_neg hlead, numeral_eq_digits (hexp hlead)]

/-- The text of a zero (rule R277) is that of the digit "0". -/
theorem renderText_zero (s : Bool) (p1 : ℕ) : renderText s [0] 0 1 p1 = signText s ++ [chZero] := by cases s <;> rfl

theorem exists_writes_renderText (s : Bool) {dig : List ℕ} (hne : dig ≠ []) (hlt : ∀ d ∈ dig, d < 10) (e : ℤ)
    (n p1 : ℕ) : ∃ m : Numeral, m.Writes (renderText s dig e n p1) s
      (decimalValue (dig.map digitByte) * 10 ^ (e - (dig.length - 1))) := by
  have hds := List.all_eq_true.mp (all_isDigitByte_map hlt)
  have hne' : dig.map digitByte ≠ [] := by simpa using hne
  have hlen : dig.length = (dig.map digitByte).length := (List.length_map _).symm
  rw [renderText, hlen]
  split
  · next hfix => exact exists_writes_fixed s hds hne' hfix.1
  · split
    · next hlead => exact exists_writes_leadingZeros s hds hne' hlead.1
    · exact exists_writes_exponential s hds hne'

/-- Beside its leading zeros, at most `p1`, the text has at most 20 bytes, or 36 in the other forms. -/
theorem length_renderText_le_max (s : Bool) {dig : List ℕ} {e : ℤ} {n p1 : ℕ} (hn : n ≤ digMax)
    (hd : dig.length ≤ n) (he : e.natAbs < 10 ^ 4) : (renderText s dig e n p1).length ≤ 20 + max p1 16 := by
  have hs := length_signText_le s
  have hlen : (dig.map digitByte).length = dig.length := List.length_map _
  rw [digMax] at hn
  rw [renderText]
  generalize dig.map digitByte = ds at hlen
  split
  · have hfp := length_fraction_le (ds.drop (e.toNat + 1))
    simp only [List.length_append, List.length_take, List.length_replicate, List.length_drop] at hfp ⊢
    omega
  · split
    · simp only [List.length_append, List.length_replicate, List.length_cons, List.length_nil]
      omega
    · have hfp : (if 1 < ds.length then chPoint :: ds.drop 1 else []).length ≤ ds.length + 1 := by split <;> simp
      have hnum := length_numeral_le (by norm_num) he
      simp only [List.length_append, List.length_take, List.length_map, List.length_cons, List.length_nil] at hfp ⊢
      omega

/-! The response to a finite non-zero operand. -/

theorem exists_clampDigits_eq_succ (p0 : ℕ) : ∃ n, clampDigits p0 = n + 1 :=
  Nat.exists_eq_succ_of_ne_zero (by rw [clampDigits, digMax]; omega)

theorem clampDigits_of_le {p0 : ℕ} (h : 17 ≤ p0) : clampDigits p0 = 17 := by
  rw [clampDigits, digMax]
  omega

theorem todecResp_of_finite {a : F64} (ha : isFiniteNonzero a = true) (p0 p1 : ℕ) :
    todecResp a p0 p1 =
      decResp (signOf a) (cat a) ((decDigitString |val ℚ a| (clampDigits p0)).map digitByte)
        (decExponent |val ℚ a| (clampDigits p0))
        (renderText (signOf a) (decDigitString |val ℚ a| (clampDigits p0)) (decExponent |val ℚ a| (clampDigits p0))
          (clampDigits p0) p1) := by
  have hcat : todecResp a p0 p1 = todecFinite a (cat a) p0 p1 := by
    obtain ⟨hnan, hinf, hzero⟩ := isFiniteNonzero_iff.mp ha
    rw [todecResp]
    cases hc : cat a
    case nan => exact absurd hc hnan
    case infinite => exact absurd hc hinf
    case zero => exact absurd hc hzero
    case subnormal => rfl
    case normal => rfl
  rw [hcat, todecFinite, digits_eq_decDigitString _ (magUnits_pos a ha) unitsPerOne_pos_nat, ← abs_val_eq_magUnits]

theorem todecResp_cc (a : F64) (p0 p1 : ℕ) : (todecResp a p0 p1).cc = (cat a).code := by
  rw [todecResp]
  cases cat a <;> rfl

theorem todecResp_sgn {a : F64} (ha : cat a ≠ .nan) (p0 p1 : ℕ) :
    (todecResp a p0 p1).sgn = BitVec.ofBool (signOf a) := by
  rw [todecResp]
  cases hc : cat a
  case nan => exact absurd hc ha
  all_goals rfl

theorem Memory.bytes_congr {m m' : Memory} {n : ℕ} (h : ∀ j, j < n → m.read j = m'.read j) : m.bytes n = m'.bytes n :=
  List.map_congr_left fun j hj => h j (List.mem_range.mp hj)

/-- The strings a response holds, at its own lengths. -/
theorem decResp_bytes (sgn : Bool) (c : Category) (x : ℤ) {dig txt : List Byte} (hd : dig.length ≤ digMax)
    (ht : txt.length ≤ txtOutMax) :
    (decResp sgn c dig x txt).dig.bytes (decResp sgn c dig x txt).dlen.toNat = dig ∧
      (decResp sgn c dig x txt).txt.bytes (decResp sgn c dig x txt).tlen.toNat = txt := by
  obtain ⟨hdlen, hdig, htlen, htxt, -⟩ := decResp_spec sgn c x hd ht
  rw [hdlen, htlen]
  exact ⟨hdig, htxt⟩

theorem decResp_x_toInt (sgn : Bool) (c : Category) (dig txt : List Byte) {x : ℤ} (hx : x.natAbs < 2 ^ 15) :
    (decResp sgn c dig x txt).x.toInt = x :=
  (BitVec.toInt_ofInt ..).trans (Int.bmod_eq_of_le (by omega) (by omega))

theorem read_ofBytes_map {ds : List ℕ} {j : ℕ} (hj : j < ds.length) :
    (Memory.ofBytes (ds.map digitByte)).read j = digitByte ds[j] := by
  rw [Memory.read_ofBytes, List.length_map, if_pos hj, List.getD_eq_getElem _ _ (by simpa using hj), List.getElem_map]

section Finite

variable {a : F64} (ha : isFiniteNonzero a = true) (p0 : ℕ)

include ha

theorem significant_clamped : Significant (clampDigits p0) (decDigitString |val ℚ a| (clampDigits p0)) := by
  obtain ⟨n, hn⟩ := exists_clampDigits_eq_succ p0
  rw [hn]
  exact significant_decDigitString (abs_val_pos ha)

theorem decExponent_clamped_bounds :
    -324 ≤ decExponent |val ℚ a| (clampDigits p0) ∧ decExponent |val ℚ a| (clampDigits p0) ≤ 308 := by
  obtain ⟨n, hn⟩ := exists_clampDigits_eq_succ p0
  rw [hn]
  exact decExponent_bounds n ha

theorem todecResp_bytes {p1 : ℕ} (hp1 : p1 < 2 ^ 8) :
    (todecResp a p0 p1).dig.bytes (todecResp a p0 p1).dlen.toNat =
        (decDigitString |val ℚ a| (clampDigits p0)).map digitByte ∧
      (todecResp a p0 p1).txt.bytes (todecResp a p0 p1).tlen.toNat =
        renderText (signOf a) (decDigitString |val ℚ a| (clampDigits p0)) (decExponent |val ℚ a| (clampDigits p0))
          (clampDigits p0) p1 := by
  have hclamp := clampDigits_le p0
  have hlen := (significant_clamped ha p0).length_le
  obtain ⟨hlo, hhi⟩ := decExponent_clamped_bounds ha p0
  rw [todecResp_of_finite ha]
  exact decResp_bytes _ _ _ (by rw [List.length_map]; exact hlen.trans hclamp)
    (length_renderText_le _ hclamp hlen (by omega) hp1)

theorem todecResp_dlen {p1 : ℕ} (hp1 : p1 < 2 ^ 8) :
    (todecResp a p0 p1).dlen.toNat = (decDigitString |val ℚ a| (clampDigits p0)).length := by
  simpa using congrArg List.length (todecResp_bytes ha p0 hp1).1

theorem todecResp_read_dig (p1 : ℕ) {j : ℕ} (hj : j < (decDigitString |val ℚ a| (clampDigits p0)).length) :
    (todecResp a p0 p1).dig.read j = digitByte (decDigitString |val ℚ a| (clampDigits p0))[j] := by
  rw [todecResp_of_finite ha]
  exact read_ofBytes_map hj

theorem todecResp_x_toInt (p1 : ℕ) : (todecResp a p0 p1).x.toInt = decExponent |val ℚ a| (clampDigits p0) := by
  obtain ⟨hlo, hhi⟩ := decExponent_clamped_bounds ha p0
  rw [todecResp_of_finite ha, decResp_x_toInt _ _ _ _ (by omega)]

end Finite

theorem decide_ofBool_eq_one (b : Bool) : decide (BitVec.ofBool b = 1#1) = b := by cases b <;> rfl

/-- PARSE of a request whose text the grammar derives. -/
theorem exec_parse_of_writes {m : Numeral} {t : List Byte} {b : Bool} {q : ℚ} (hm : m.Writes t b q) {s : State}
    (ht : s.req.text = t) : exec .parse s =
      .next (s.respond { Resp.zero with r := rneOn b q, x := BitVec.ofNat 16 t.length }) := by
  show Host.Outcome.next (s.respond (parseResp s.req.text)) = _
  rw [ht, hm.parseResp_eq]

/-! What the round trip needs of a finite operand's digits and exponent: no bound on the leading zeros (rule R280). -/

/-- Digits and an exponent whose number, rounded once, is the operand `a`. -/
structure RoundTrips (a : F64) (dig : List ℕ) (e : ℤ) : Prop where
  ne_nil : dig ≠ []
  length_le : dig.length ≤ 17
  lt_ten : ∀ d ∈ dig, d < 10
  exponent_le : e.natAbs ≤ 324
  rounds : rneOn (signOf a) ((decimalValue (dig.map digitByte) : ℚ) * 10 ^ (e - (dig.length - 1))) = a

theorem roundTrips_of_zero {a : F64} (ha : cat a = .zero) : RoundTrips a [0] 0 := by
  refine ⟨List.cons_ne_nil _ _, by decide, by simp, by decide, eq_of_fieldOf_eq (signOf_rneOn ..) ?_⟩
  obtain ⟨hexp, hfrac⟩ := cat_eq_iff.mp ha
  rw [Category.exps, Finset.mem_singleton] at hexp
  rw [Category.fracs, Finset.mem_singleton] at hfrac
  rw [fieldOf_rneOn _ (by positivity), fieldOf, hexp, hfrac, show decimalValue ([0].map digitByte) = 0 from rfl,
    Nat.cast_zero, zero_mul, roundOn, if_pos rfl, zero_mul]

theorem roundTrips_of_finiteNonzero {a : F64} (ha : isFiniteNonzero a = true) :
    RoundTrips a (decDigitString |val ℚ a| 17) (decExponent |val ℚ a| 17) := by
  obtain ⟨hlo, hhi⟩ : -324 ≤ decExponent |val ℚ a| 17 ∧ decExponent |val ℚ a| 17 ≤ 308 := decExponent_bounds 16 ha
  have hsig := significant_decDigitString (n := 16) (abs_val_pos ha)
  refine ⟨hsig.ne_nil, hsig.length_le, hsig.lt_ten, by omega, ?_⟩
  rw [decimalValue_decDigitString (n := 16) (abs_val_pos ha)]
  exact rneOn_decSignificand ha

theorem exists_roundTrips {a : F64} (ha : isFinite a = true) {p0 : ℕ} (hp0 : 17 ≤ p0) (p1 : ℕ) :
    ∃ dig e n, n ≤ 17 ∧ dig.length ≤ n ∧ RoundTrips a dig e ∧
      todecResp a p0 p1 = decResp (signOf a) (cat a) (dig.map digitByte) e (renderText (signOf a) dig e n p1) := by
  by_cases hzero : cat a = .zero
  · refine ⟨[0], 0, 1, by decide, le_rfl, roundTrips_of_zero hzero, ?_⟩
    rw [todecResp, hzero, renderText_zero]
    rfl
  · have hfin : isFiniteNonzero a = true := by
      obtain ⟨hnan, hinf⟩ := isFinite_iff_ne.mp ha
      exact isFiniteNonzero_iff.mpr ⟨hnan, hinf, hzero⟩
    have h := roundTrips_of_finiteNonzero hfin
    refine ⟨_, _, 17, le_rfl, h.length_le, h, ?_⟩
    rw [todecResp_of_finite hfin, clampDigits_of_le hp0]

end Sys2Proof.Machine
end

section
/-! PROOFS. The statements about the decimal encoder. -/

namespace Sys2Proof.Proofs

open Machine

/-- Settles O55: digit generation over the rationals, and the text by its three forms. -/
theorem todecResult : Obligations.TodecResult := by
  rintro p0 p1 s _ rfl
  refine ⟨todecResp s.req.a p0.toNat p1.toNat, rfl, responseTo_writesOnly (.todec p0 p1) s.req, todecResp_cc ..,
    ?_, ?_, ?_⟩
  · intro hnan
    rw [todecResp, hnan]
    exact ⟨rfl, rfl, rfl, rfl⟩
  · intro hnan
    rw [todecResp_sgn hnan, extractLsb'_sign]
  rintro sg rfl
  refine ⟨fun hinf => ?_, fun hzero => ?_, ?_⟩
  · rw [todecResp, hinf]
    cases signOf s.req.a <;> exact ⟨rfl, rfl, rfl⟩
  · rw [todecResp, hzero]
    cases signOf s.req.a <;> exact ⟨rfl, rfl, rfl⟩
  · rintro ha q n k e0 D D' dig rfl hn rfl rfl rfl rfl rfl
    obtain rfl : n = clampDigits p0.toNat := hn
    obtain ⟨hdigits, htext⟩ := todecResp_bytes ha p0.toNat p1.isLt
    obtain ⟨hlo, hhi⟩ := decExponent_clamped_bounds ha p0.toNat
    obtain ⟨n, hclamp⟩ := exists_clampDigits_eq_succ p0.toNat
    have hdig := congrArg (List.map digitByte) (decDigitString_eq (n := n) (abs_val_pos ha))
    rw [← hclamp] at hdig
    rw [renderText_eq _ hdig.symm (by omega)] at htext
    refine ⟨hdigits.trans hdig, ?_, hlo, hhi, htext⟩
    rw [todecResp_of_finite ha]
    rfl

/-- Settles O56: the digits are a numeral without zeros at either end, the bounds those of the strings. -/
theorem todecShape : Obligations.TodecShape := by
  intro p0 p1 s
  have hshape := todecResp_shaped s.req.a p0.toNat p1.isLt
  refine ⟨todecResp s.req.a p0.toNat p1.toNat, rfl, hshape, ?_⟩
  simp only [Resp.shaped, Bool.and_eq_true, decide_eq_true_eq] at hshape
  obtain ⟨⟨⟨⟨hdlen, htlen⟩, -⟩, -⟩, -⟩ := hshape
  refine ⟨hdlen, htlen, fun ha => ?_⟩
  have hsig := significant_clamped ha p0.toNat
  have hpos := List.length_pos_of_ne_nil hsig.ne_nil
  have hread {j : ℕ} := todecResp_read_dig (j := j) ha p0.toNat p1.toNat
  rw [todecResp_dlen ha p0.toNat p1.isLt]
  refine ⟨hpos, hsig.length_le, ?_, ?_, fun j hj => ?_, ?_⟩
  · rw [hread hpos]
    exact hsig.first_byte_ne hpos
  · rw [hread (Nat.sub_lt hpos one_pos)]
    exact hsig.last_byte_ne hpos
  · rw [hread hj]
    exact hsig.isDigitByte_byte hj
  · rw [todecResp_x_toInt ha]
    exact decExponent_clamped_bounds ha p0.toNat

/-- Settles O57: PARSE rounds the number the text denotes, and seventeen digits identify the operand. -/
theorem decimalRoundTrip : Obligations.DecimalRoundTrip := by
  intro p0 p1 s ha hp0
  obtain ⟨dig, e, n, hn, hlen, h, hresp⟩ := exists_roundTrips ha hp0 p1.toNat
  have he := h.exponent_le
  have hd : (dig.map digitByte).length ≤ digMax := by rw [List.length_map]; exact h.length_le
  have ht := length_renderText_le (signOf s.req.a) (e0 := e) hn hlen (by omega) p1.isLt
  have hmax := length_renderText_le_max (signOf s.req.a) (e := e) (p1 := p1.toNat) hn hlen (by omega)
  obtain ⟨hdlen, hdig, htlen, htxt, -⟩ := decResp_spec (signOf s.req.a) (cat s.req.a) e hd ht
  have hx := decResp_x_toInt (signOf s.req.a) (cat s.req.a) (dig.map digitByte)
    (renderText (signOf s.req.a) dig e n p1.toNat) (x := e) (by omega)
  have hsgn := todecResp_sgn (isFinite_iff_ne.mp ha).1 p0.toNat p1.toNat
  obtain ⟨m, hm⟩ := exists_writes_renderText (signOf s.req.a) h.ne_nil h.lt_ten e n p1.toNat
  rw [← hresp] at hdlen hdig htlen htxt hx
  refine ⟨todecResp s.req.a p0.toNat p1.toNat, rfl, fun hp1 => ?_, fun s' _ hslen hread => ?_, ?_⟩
  · rw [htlen, txtInMax]
    omega
  · have htext : s'.req.text = renderText (signOf s.req.a) dig e n p1.toNat := by
      rw [Req.text, hslen, Memory.bytes_congr hread, htlen, htxt]
    rw [exec_parse_of_writes hm htext, h.rounds, ← htlen, BitVec.ofNat_toNat]
  · rw [hx, hdlen, hdig, List.length_map, hsgn, decide_ofBool_eq_one]
    exact h.rounds

end Sys2Proof.Proofs
end

section
/-! PROOFS. PARSE of any text (rules R291 to R293): the scan takes the longest initial part of the text that the grammar
derives, so PARSE of a text is PARSE of that part alone. -/

namespace Sys2Proof.Machine

/-! What each stage of the scan takes, as the grammar's part: a text is the part followed by the rest. -/

theorem leadingDigits_digits_append {ds : List Byte} (hds : ds.all isDigitByte = true) (t : List Byte) :
    leadingDigits (ds ++ t) = ds ++ leadingDigits t := List.takeWhile_append_of_pos (List.all_eq_true.mp hds)

/-- The digits a text begins with, and a rest that begins with none. -/
theorem exists_leadingDigits (t : List Byte) :
    ∃ ds t', t = ds ++ t' ∧ ds.all isDigitByte = true ∧ leadingDigits t = ds ∧ leadingDigits t' = [] := by
  have hsplit : leadingDigits t ++ t.dropWhile isDigitByte = t := List.takeWhile_append_dropWhile
  have hds : (leadingDigits t).all isDigitByte = true := List.all_takeWhile
  have hrest := leadingDigits_digits_append hds (t.dropWhile isDigitByte)
  rw [hsplit] at hrest
  exact ⟨_, _, hsplit.symm, hds, rfl, List.append_cancel_left (hrest.symm.trans (List.append_nil _).symm)⟩

/-- The sign a text begins with, if any. -/
theorem exists_sign (t : List Byte) : ∃ (sg : Option Byte) (t' : List Byte),
    t = sg.toList ++ t' ∧ isSign sg = true ∧ scanSign t = (sg == some chMinus, sg.toList.length) := by
  rcases t with _ | ⟨c, t⟩
  · exact ⟨none, [], rfl, rfl, rfl⟩
  · by_cases hminus : c = chMinus
    · subst hminus
      exact ⟨some chMinus, t, rfl, rfl, rfl⟩
    · by_cases hplus : c = chPlus
      · subst hplus
        exact ⟨some chPlus, t, rfl, rfl, rfl⟩
      · exact ⟨none, c :: t, rfl, rfl, scanSign_of_ne t hminus hplus⟩

theorem scanExponent_cons {c : Byte} (t : List Byte) (hc : ¬(c = chLowerE ∨ c = chE)) :
    scanExponent (c :: t) = (0, 0) := by
  rw [scanExponent, if_neg hc]

/-- A marker and an optional sign: the exponent is taken when a digit follows (rule R291(d)). -/
theorem scanExponent_marker {c : Byte} {sg : Option Byte} {t : List Byte} (hc : c = chLowerE ∨ c = chE)
    (hsg : scanSign (sg.toList ++ t) = (sg == some chMinus, sg.toList.length)) :
    scanExponent (c :: (sg.toList ++ t)) =
      if leadingDigits t = [] then (0, 0)
      else (if sg = some chMinus then -(decimalValue (leadingDigits t) : ℤ) else (decimalValue (leadingDigits t) : ℤ),
        1 + sg.toList.length + (leadingDigits t).length) := by
  simp only [scanExponent, if_pos hc, hsg, List.drop_left, beq_iff_eq]

namespace Numeral

theorem text_eq (m : Numeral) : m.text = m.sign.toList ++ (m.ints ++ (m.fracText ++ m.expoText)) := by
  simp only [text, List.append_assoc]

/-- The fraction a text begins with; the other parts of a numeral do not matter. -/
theorem exists_frac (t : List Byte) : ∃ (frac : Option (List Byte)) (t' : List Byte), ∀ sign ints expo,
    t = fracText ⟨sign, ints, frac, expo⟩ ++ t' ∧ (fracDigits ⟨sign, ints, frac, expo⟩).all isDigitByte = true ∧
    scanFraction t = (fracDigits ⟨sign, ints, frac, expo⟩, (fracText ⟨sign, ints, frac, expo⟩).length) := by
  rcases t with _ | ⟨c, t⟩
  · exact ⟨none, [], fun _ _ _ => ⟨rfl, rfl, rfl⟩⟩
  · by_cases hc : c = chPoint
    · subst hc
      obtain ⟨fs, t', rfl, hfs, hlead, -⟩ := exists_leadingDigits t
      refine ⟨some fs, t', fun _ _ _ => ⟨rfl, hfs, ?_⟩⟩
      rw [scanFraction_point, hlead, Nat.add_comm]
      rfl
    · exact ⟨none, c :: t, fun _ _ _ => ⟨rfl, rfl, scanFraction_cons t hc⟩⟩

/-- The exponent a text begins with; the other parts of a numeral do not matter. -/
theorem exists_expo (t : List Byte) : ∃ (expo : Option (Byte × Option Byte × List Byte)) (t' : List Byte),
    ∀ sign ints frac, t = expoText ⟨sign, ints, frac, expo⟩ ++ t' ∧
      exponentValid ⟨sign, ints, frac, expo⟩ = true ∧
      scanExponent t = (exponent ⟨sign, ints, frac, expo⟩, (expoText ⟨sign, ints, frac, expo⟩).length) := by
  rcases t with _ | ⟨c, t⟩
  · exact ⟨none, [], fun _ _ _ => ⟨rfl, rfl, rfl⟩⟩
  · by_cases hc : c = chLowerE ∨ c = chE
    · obtain ⟨sg, t, rfl, hsg, hscan⟩ := exists_sign t
      obtain ⟨ds, t', rfl, hds, hlead, -⟩ := exists_leadingDigits t
      have hexp := scanExponent_marker hc hscan
      rw [hlead] at hexp
      by_cases hne : ds = []
      · exact ⟨none, c :: (sg.toList ++ (ds ++ t')), fun _ _ _ => ⟨rfl, rfl, by rw [hexp, if_pos hne]; rfl⟩⟩
      · refine ⟨some (c, sg, ds), t', fun _ _ _ =>
          ⟨by simp [expoText], exponentValid_some.mpr ⟨hc, hsg, hds, hne⟩, ?_⟩⟩
        rw [hexp, if_neg hne, expoText, exponent, List.length_cons, List.length_append, Nat.add_assoc, Nat.add_comm 1]
    · exact ⟨none, c :: t, fun _ _ _ => ⟨rfl, rfl, scanExponent_cons t hc⟩⟩

end Numeral

/-! The scan from its stages, and the part of the text it takes. -/

/-- The scan of a text cut where its stages end; the exponent is scanned in the rest. -/
theorem scan_of_stages {sg ints frac fs t : List Byte} {s : Bool}
    (hsign : scanSign (sg ++ (ints ++ (frac ++ t))) = (s, sg.length))
    (hints : leadingDigits (ints ++ (frac ++ t)) = ints) (hfrac : scanFraction (frac ++ t) = (fs, frac.length)) :
    scan (sg ++ (ints ++ (frac ++ t))) =
      if ints = [] ∧ fs = [] then none
      else some { s := s, ints := ints, fracs := fs, ex := (scanExponent t).1,
                  consumed := sg.length + ints.length + frac.length + (scanExponent t).2 } := by
  simp only [scan, hsign, List.drop_left, hints, hfrac]

/-- What the scan takes is an initial part of the text that the grammar derives, and that part alone scans the same. -/
theorem exists_prefix_of_scan {t : List Byte} {r : Scan} (h : scan t = some r) :
    ∃ m : Numeral, m.valid = true ∧ m.text <+: t ∧ scan m.text = some r := by
  obtain ⟨sg, t, rfl, hsg, hsign⟩ := exists_sign t
  obtain ⟨ints, t, rfl, hints, hlead, -⟩ := exists_leadingDigits t
  obtain ⟨frac, t, hfrac⟩ := Numeral.exists_frac t
  obtain ⟨expo, t', hexpo⟩ := Numeral.exists_expo t
  obtain ⟨rfl, hfs, hfscan⟩ := hfrac sg ints expo
  obtain ⟨ht, hvalid, hescan⟩ := hexpo sg ints frac
  rw [scan_of_stages hsign hlead hfscan] at h
  split_ifs at h with hne
  have hm : Numeral.valid ⟨sg, ints, frac, expo⟩ = true :=
    Numeral.valid_iff.mpr ⟨hsg, Numeral.mantissaValid_iff.mpr ⟨hints, hfs, hne⟩, hvalid⟩
  refine ⟨_, hm, ⟨t', ?_⟩, ?_⟩
  · rw [Numeral.text_eq, ht]
    simp only [List.append_assoc]
  · rw [Numeral.scan_text hm, ← h, Numeral.text_eq, hescan]
    simp only [List.length_append, Nat.add_assoc, Numeral.negative]

namespace Numeral

variable {m : Numeral}

/-- Whatever follows an exponent, the scan takes all of it. -/
theorem length_expoText_le (h : m.exponentValid = true) (t : List Byte) :
    m.expoText.length ≤ (scanExponent (m.expoText ++ t)).2 := by
  obtain ⟨sign, ints, frac, _ | ⟨c, sg, ds⟩⟩ := m
  · exact Nat.zero_le _
  · obtain ⟨hc, hsg, hds, hne⟩ := exponentValid_some.mp h
    have hsign : scanSign (ds ++ t) = (false, 0) := by
      obtain ⟨d, ds, rfl⟩ := List.exists_cons_of_ne_nil hne
      exact scanSign_of_digit _ (List.all_eq_true.mp hds d (List.mem_cons_self ..))
    have hscan := scanExponent_marker hc (scanSign_append hsg hsign)
    rw [leadingDigits_digits_append hds, if_neg (by simp [hne])] at hscan
    simp only [expoText, List.cons_append, List.append_assoc, hscan, List.length_cons, List.length_append]
    omega

/-- A point, the fraction digits and a rest that begins with no digit. -/
theorem scanFraction_point_append {fs t : List Byte} (hfs : fs.all isDigitByte = true) (ht : leadingDigits t = []) :
    scanFraction (chPoint :: fs ++ t) = (fs, (chPoint :: fs).length) := by
  rw [List.cons_append, scanFraction_point, leadingDigits_append hfs ht, List.length_cons, Nat.add_comm]

/-- An exponent that is there begins with neither a digit nor the point, whatever follows it. -/
theorem expoText_append_head (h : m.exponentValid = true) (hexpo : m.expo ≠ none) (t : List Byte) :
    leadingDigits (m.expoText ++ t) = [] ∧ scanFraction (m.expoText ++ t) = ([], 0) := by
  obtain ⟨sign, ints, frac, _ | ⟨c, sg, ds⟩⟩ := m
  · exact absurd rfl hexpo
  · obtain ⟨rfl | rfl, -⟩ := exponentValid_some.mp h <;>
      exact ⟨leadingDigits_cons _ rfl, scanFraction_cons _ (by decide)⟩

/-- The scan of a text whose mantissa ends where the grammar's does. -/
theorem scan_mantissa_append (hsign : isSign m.sign = true) (hm : m.mantissaValid = true) {t : List Byte}
    (hints : leadingDigits (m.fracText ++ t) = [])
    (hfrac : scanFraction (m.fracText ++ t) = (m.fracDigits, m.fracText.length)) :
    scan (m.sign.toList ++ (m.ints ++ (m.fracText ++ t))) =
      some { s := m.negative, ints := m.ints, fracs := m.fracDigits, ex := (scanExponent t).1,
             consumed := m.sign.toList.length + m.ints.length + m.fracText.length + (scanExponent t).2 } := by
  obtain ⟨hdigits, -, hne⟩ := mantissaValid_iff.mp hm
  rw [scan_of_stages (scanSign_append hsign (scanSign_mantissa hm t)) (leadingDigits_append hdigits hints) hfrac,
    if_neg hne, negative]

/-! Whatever follows a text the grammar derives, the scan takes all of it: the stages before the text's last part end
where its parts do, and the last part may only go on. -/

theorem exists_scan_ints_append {sign : Option Byte} {ints : List Byte} (hsign : isSign sign = true)
    (hints : ints.all isDigitByte = true) (hne : ints ≠ []) (t : List Byte) :
    ∃ r, scan (sign.toList ++ (ints ++ t)) = some r ∧ sign.toList.length + ints.length ≤ r.consumed := by
  obtain ⟨ds, t, rfl, hds, -, hrest⟩ := exists_leadingDigits t
  obtain ⟨frac, t, hstage⟩ := exists_frac t
  obtain ⟨rfl, hfs, hfrac⟩ := hstage sign (ints ++ ds) none
  have hm : mantissaValid ⟨sign, ints ++ ds, frac, none⟩ = true :=
    mantissaValid_iff.mpr ⟨by rw [List.all_append, hints, hds]; rfl, hfs,
      fun hnil => hne (List.append_eq_nil_iff.mp hnil.1).1⟩
  rw [← List.append_assoc ints]
  refine ⟨_, scan_mantissa_append hsign hm hrest hfrac, ?_⟩
  simp only [List.length_append]
  omega

theorem exists_scan_frac_append {sign : Option Byte} {ints fs : List Byte} (hsign : isSign sign = true)
    (hm : mantissaValid ⟨sign, ints, some fs, none⟩ = true) (t : List Byte) :
    ∃ r, scan (sign.toList ++ (ints ++ (chPoint :: fs ++ t))) = some r ∧
      sign.toList.length + ints.length + (chPoint :: fs).length ≤ r.consumed := by
  obtain ⟨hints, hfs, hne⟩ := mantissaValid_iff.mp hm
  obtain ⟨ds, t, rfl, hds, -, hrest⟩ := exists_leadingDigits t
  have hall : (fs ++ ds).all isDigitByte = true := by
    rw [List.all_append, hds, Bool.and_true]
    exact hfs
  have hm' : mantissaValid ⟨sign, ints, some (fs ++ ds), none⟩ = true :=
    mantissaValid_iff.mpr ⟨hints, hall, fun hnil => hne ⟨hnil.1, (List.append_eq_nil_iff.mp hnil.2).1⟩⟩
  rw [← List.append_assoc (chPoint :: fs)]
  refine ⟨_, scan_mantissa_append hsign hm' (leadingDigits_cons _ rfl) ?_, ?_⟩
  · exact scanFraction_point_append hall hrest
  · dsimp only [fracText]
    rw [← List.cons_append, List.length_append]
    omega

theorem exists_scan_expo_append (h : m.valid = true) (hexpo : m.expo ≠ none) (t : List Byte) :
    ∃ r, scan (m.text ++ t) = some r ∧ m.text.length ≤ r.consumed := by
  obtain ⟨hsign, hm, he⟩ := valid_iff.mp h
  obtain ⟨-, hfs, -⟩ := mantissaValid_iff.mp hm
  have hlen := length_expoText_le he t
  obtain ⟨hdigits, hpoint⟩ := expoText_append_head he hexpo t
  have hints : leadingDigits (m.fracText ++ (m.expoText ++ t)) = [] := by
    rw [fracText]
    rcases m.frac with _ | fs
    · exact hdigits
    · exact leadingDigits_cons _ rfl
  have hfrac : scanFraction (m.fracText ++ (m.expoText ++ t)) = (m.fracDigits, m.fracText.length) := by
    rw [fracDigits] at hfs
    rw [fracText, fracDigits]
    rcases hf : m.frac with _ | fs
    · exact hpoint
    · rw [hf] at hfs
      exact scanFraction_point_append hfs hdigits
  refine ⟨_, Eq.trans ?_ (scan_mantissa_append hsign hm hints hfrac), ?_⟩
  · simp only [text_eq, List.append_assoc]
  · simp only [text_eq, List.length_append]
    omega

theorem exists_scan_append (h : m.valid = true) (t : List Byte) :
    ∃ r, scan (m.text ++ t) = some r ∧ m.text.length ≤ r.consumed := by
  rcases hexpo : m.expo with _ | x
  · obtain ⟨hsign, hm, -⟩ := valid_iff.mp h
    obtain ⟨sign, ints, frac, expo⟩ := m
    obtain rfl : expo = none := hexpo
    rcases frac with _ | fs
    · obtain ⟨hints, -, hne⟩ := mantissaValid_iff.mp hm
      obtain ⟨r, hscan, hlen⟩ := exists_scan_ints_append hsign hints (fun hnil => hne ⟨hnil, rfl⟩) t
      exact ⟨r, by simpa [text, fracText, expoText] using hscan, by simpa [text, fracText, expoText] using hlen⟩
    · obtain ⟨r, hscan, hlen⟩ := exists_scan_frac_append hsign hm t
      exact ⟨r, by simpa [text, fracText, expoText] using hscan,
        by simpa [text, fracText, expoText, Nat.add_assoc] using hlen⟩
  · exact exists_scan_expo_append h (by simp [hexpo]) t

end Numeral

/-! PARSE by the grammar. -/

/-- The text of the parts `m` is the longest initial part of `t` that the grammar derives (rule R291). -/
structure Numeral.LongestIn (m : Numeral) (t : List Byte) : Prop where
  valid : m.valid = true
  isPrefix : m.text <+: t
  longest : ∀ m' : Numeral, m'.valid = true → m'.text <+: t → m'.text.length ≤ m.text.length

/-- The longest initial part is one text, whatever parts it is read as. -/
theorem Numeral.LongestIn.text_eq {m m' : Numeral} {t : List Byte} (h : m.LongestIn t) (h' : m'.LongestIn t) :
    m.text = m'.text :=
  have hle := h'.longest m h.valid h.isPrefix
  (List.prefix_of_prefix_length_le h.isPrefix h'.isPrefix hle).eq_of_length
    (hle.antisymm (h.longest m' h'.valid h'.isPrefix))

/-- The scan fails only where the grammar derives no initial part of the text (rule R293). -/
theorem not_prefix_of_scan_eq_none {t : List Byte} (h : scan t = none) (m : Numeral) (hm : m.valid = true) :
    ¬ m.text <+: t := by
  rintro ⟨u, rfl⟩
  obtain ⟨r, hscan, -⟩ := m.exists_scan_append hm u
  rw [h] at hscan
  cases hscan

/-- The scan takes the longest initial part the grammar derives, and that part alone scans the same (rule R293). -/
theorem exists_longestIn_of_scan {t : List Byte} {r : Scan} (h : scan t = some r) :
    ∃ m : Numeral, m.LongestIn t ∧ scan m.text = some r := by
  obtain ⟨m, hm, hprefix, hscan⟩ := exists_prefix_of_scan h
  refine ⟨m, ⟨hm, hprefix, ?_⟩, hscan⟩
  rintro m' hm' ⟨u, rfl⟩
  obtain ⟨r', hscan', hlen⟩ := m'.exists_scan_append hm' u
  obtain rfl : r' = r := Option.some.inj (hscan'.symm.trans h)
  obtain rfl := Option.some.inj ((Numeral.scan_text hm).symm.trans hscan)
  exact hlen

/-- What PARSE answers: all zeros where the grammar derives no initial part of the text, else what it answers to the
longest one alone. -/
theorem parseResp_cases (t : List Byte) :
    (parseResp t = Resp.zero ∧ ∀ m : Numeral, m.valid = true → ¬ m.text <+: t) ∨
      ∃ m : Numeral, m.LongestIn t ∧ parseResp t = parseResp m.text := by
  rcases h : scan t with _ | r
  · exact .inl ⟨by rw [parseResp, h], not_prefix_of_scan_eq_none h⟩
  · obtain ⟨m, hm, hscan⟩ := exists_longestIn_of_scan h
    exact .inr ⟨m, hm, by rw [parseResp, parseResp, h, hscan]⟩

theorem Numeral.LongestIn.parseResp_eq {m : Numeral} {t : List Byte} (h : m.LongestIn t) :
    parseResp t = parseResp m.text := by
  rcases parseResp_cases t with ⟨-, hnone⟩ | ⟨m', hm', hresp⟩
  · exact absurd h.isPrefix (hnone m h.valid)
  · rw [hresp, hm'.text_eq h]

theorem exec_parse (s : State) : exec .parse s = .next (s.respond (parseResp s.req.text)) := rfl

/-! The text of a request, and what the answer to it can be. -/

theorem Req.length_text (q : Req) : q.text.length = q.len.toNat := Memory.length_bytes ..

theorem Memory.bytes_take (mem : Memory) {k n : ℕ} (h : k ≤ n) : (mem.bytes n).take k = mem.bytes k := by
  rw [Memory.bytes, Memory.bytes, ← List.map_take, List.take_range, min_eq_left h]

/-- A request that holds an initial part of another's text, and is as long, has that part for its text. -/
theorem Req.text_eq_of_prefix {q q' : Req} {u : List Byte} (h : u <+: q.text) (hlen : q'.len.toNat = u.length)
    (hread : ∀ j, j < u.length → q'.txt.read j = q.txt.read j) : q'.text = u := by
  rw [Req.text, hlen, Memory.bytes_congr hread, ← Memory.bytes_take q.txt (h.length_le.trans (Req.length_text q).le)]
  exact (List.prefix_iff_eq_take.mp h).symm

theorem cat_rneOn_ne_nan (s : Bool) {q : ℚ} (hq : 0 ≤ q) : cat (rneOn s q) ≠ .nan :=
  cat_ne_nan_of_fieldOf_le ((fieldOf_rneOn s hq).trans_le (roundOn_le_infField Format.regular_binary64 hq))

theorem Numeral.magnitude_nonneg (m : Numeral) : 0 ≤ m.magnitude := by
  rw [magnitude]
  positivity

/-- The grammar derives no empty text (rule R291(b)). -/
theorem Numeral.length_text_pos {m : Numeral} (h : m.valid = true) : 0 < m.text.length := by
  obtain ⟨-, -, hne⟩ := mantissaValid_iff.mp (valid_iff.mp h).2.1
  rw [text_eq, fracText]
  rw [fracDigits] at hne
  rcases hf : m.frac with _ | fs
  · have hints : m.ints ≠ [] := fun hnil => hne ⟨hnil, by rw [hf]; rfl⟩
    have := List.length_pos_of_ne_nil hints
    simp only [List.length_append]
    omega
  · simp only [List.length_append, List.length_cons]
    omega

end Sys2Proof.Machine
end

section
/-! PROOFS. The statements about the decimal decoder. -/

namespace Sys2Proof.Proofs

open Machine

/-- Settles O58: PARSE of a text is PARSE of the longest initial part the grammar derives. -/
theorem parseResult : Obligations.ParseResult := by
  refine ⟨fun s m hm hprefix hlongest => ?_, fun s hnone => ?_⟩
  · have h : m.LongestIn s.req.text := ⟨hm, hprefix, hlongest⟩
    rw [exec_parse, h.parseResp_eq, parseResp_text hm]
  · rcases parseResp_cases s.req.text with ⟨hresp, -⟩ | ⟨m, hm, -⟩
    · rw [exec_parse, hresp]
    · exact absurd hm.isPrefix (hnone m hm.valid)

/-- Settles O59: the part consumed is no longer than the text, is not empty, and is answered alike alone. -/
theorem parseProperties : Obligations.ParseProperties := by
  intro s
  refine ⟨parseResp s.req.text, rfl, ?_⟩
  rcases parseResp_cases s.req.text with ⟨hresp, -⟩ | ⟨m, hm, hresp⟩
  · rw [hresp]
    exact ⟨Nat.zero_le _, by decide, fun _ => rfl, fun s' hx => absurd rfl hx⟩
  · have hlen : m.text.length ≤ s.req.len.toNat := hm.isPrefix.length_le.trans_eq (Req.length_text _)
    have hpos := Numeral.length_text_pos hm.valid
    have hx : (parseResp m.text).x.toNat = m.text.length := by
      rw [parseResp_text hm.valid]
      exact Nat.mod_eq_of_lt (by omega)
    rw [hresp, hx]
    refine ⟨hlen, ?_, fun hzero => ?_, fun s' _ hlen' hread => ?_⟩
    · rw [parseResp_text hm.valid]
      exact cat_rneOn_ne_nan _ m.magnitude_nonneg
    · rw [hzero] at hx
      exact absurd hx hpos.ne
    · rw [exec_parse, Req.text_eq_of_prefix hm.isPrefix hlen' hread]

end Sys2Proof.Proofs
end
